-- ==== Sys2Proof/Word.lean ====
section
/-! DEFINITION. The two word types of the block: a memory byte and a host register (10_state.md R36, 20_memory.md R60). -/

namespace Sys2Proof

/-- One byte of CODED, OUT or TMP, and one sample (R60, R19). -/
abbrev Byte := BitVec 8

/-- A 32-bit register: the window, a host register, a command word (R21, R36, R37). -/
abbrev Word := BitVec 32

end Sys2Proof
end

