-- ==== Sys2Proof/Config.lean ====
section
/-! DEFINITION. What an instance fixes (the five parameters of 00_scope.md R6, the constants of R7) and the free values of what the spec leaves unspecified. -/

namespace Sys2Proof

/-- The three byte memories of the block (20_memory.md R60). -/
inductive Space where
  | coded
  | out
  | tmp
deriving DecidableEq, Repr, Inhabited

/-- The parameters of an instance, "fixed when an instance is made" (R6, R241). Each field's type is exactly
the range R6 gives, so an illegal instance cannot be written down. -/
structure Params where
  /-- WTAB: the width of a residual field for each 3-bit code, 0 to 32. -/
  wtab : Vector (Fin 33) 8
  /-- P_ACCUM: true is 1 (the sample sum starts from ACT), false is 0. -/
  accum : Bool
  /-- P_CODED_CAP in 4-byte words: a multiple of 4, at most 2^32 - 4. -/
  codedWords : Fin 1073741824
  /-- P_OUT_CAP in 2^20-byte blocks, less one: at least 2^20, at most 2^32 - 2^20. -/
  outBlocks : Fin 4095
  /-- P_TMP_CAP in bytes, at most 2^32 - 1. -/
  tmpCap : Fin 4294967296
deriving DecidableEq, Repr, Inhabited

/-- P_CODED_CAP in bytes (R6). -/
def Params.codedBytes (p : Params) : Nat := 4 * p.codedWords.val

/-- P_OUT_CAP in bytes (R6). -/
def Params.outBytes (p : Params) : Nat := (p.outBlocks.val + 1) * 1048576

/-- P_TMP_CAP in bytes (R6). -/
def Params.tmpBytes (p : Params) : Nat := p.tmpCap.val

/-- WTAB[c] (R6, R95). -/
def Params.width (p : Params) (c : BitVec 3) : Nat := (p.wtab.get c.toFin).val

/-- The capacity of a space in bytes (R6, R60). -/
def Params.capacity (p : Params) : Space → Nat
  | .coded => p.codedBytes
  | .out => p.outBytes
  | .tmp => p.tmpBytes

/-- BLOCK, the growth granule of the output buffer: 2^20 bytes (R7). -/
def Config.block : Nat := 1048576

/-- V3D_WINDOW: the window of a "DDS v3d" chunk, 2^24 samples (R7, R197). -/
def Config.v3dWindow : Nat := 16777216

/-- The registers whose value is unspecified after a fault (60_exceptions.md R215), each at its own width. -/
structure Residue where
  win : Word
  nbits : BitVec 6
  boff : Word
  plen : Word
  bitpos : Nat
  skip : BitVec 3
  strip : BitVec 17
  runrem : BitVec 7
  wcode : BitVec 3
  w : BitVec 6
  act : Byte
  rv : Word
deriving DecidableEq, Repr, Inhabited

/-- The parameters of the instance that comes out of reset: OPEN in the spec (R6), so nothing can be proved
of their values beyond their ranges. Log entry 1. -/
opaque Config.params : Params

/-- Free value: the byte at an address of a space that nothing has written since its contents last became
unspecified (R47, R63, R196, R215). The first number names that occasion, the second is the address. Log entry 4. -/
opaque Config.unwritten : Space → Nat → Nat → Byte

/-- Free value: what the unspecified registers hold after a fault (R215, U1); the number names the fault.
Log entry 5. -/
opaque Config.afterFault : Nat → Residue

end Sys2Proof
end

