-- ==== Sys2Proof/Syntax.lean ====
section
/-! DEFINITION. The eighteen instructions of 30_encoding.md R103, one constructor for each row of the opcode table. -/

namespace Sys2Proof

/-- An instruction: a stream record, the per-sample micro-operation, or a host command (00_scope.md R3). -/
inductive Instr where
  /-- HDR: K is skip - 1, S is strip - 1 (R91). -/
  | hdr (k : BitVec 2) (v : BitVec 16)
  /-- RUN.c0 to RUN.c7: N is the run length, 1 to 127 (R92). -/
  | runC0 (n : BitVec 7)
  | runC1 (n : BitVec 7)
  | runC2 (n : BitVec 7)
  | runC3 (n : BitVec 7)
  | runC4 (n : BitVec 7)
  | runC5 (n : BitVec 7)
  | runC6 (n : BitVec 7)
  | runC7 (n : BitVec 7)
  /-- END: a run length of zero (R93). -/
  | endRec
  /-- SAMPLE: one residual field F of W bits, zero-extended to 32 (R94). -/
  | sample (w : BitVec 6) (f : Word)
  /-- The host commands (R101). -/
  | initbuffer
  | clearbits
  | loadbits
  | readbits (n : BitVec 6)
  | decode
  | xformF
  | xformR
deriving DecidableEq, Repr

/-- Where an instruction's bits stand. "The kind of the next field is decided by the decoder's state, not by a
tag in the stream" (R96): a command word, or a position in the coded stream. -/
inductive Slot where
  | command
  | header
  | runHead
  | residual (w : BitVec 6)
deriving DecidableEq, Repr

end Sys2Proof
end

