-- ==== Sys2Proof/Machine/State.lean ====
section
/-! DEFINITION. The state of one decoder instance as plain data (10_state.md R20), the host's pending moves, the reasons a step can stop, and the state after reset (R47). -/

namespace Sys2Proof.Machine

/-- Why the model stops with a fault. The hardware's own three faults are NOT here: entering one is an ordinary
next state (60_exceptions.md R214). -/
inductive Fault where
  /-- An access to an address at or above the capacity of its space: the address "does not exist" (20_memory.md
  R60, R79). Raised by a host byte access out of range, and by a refill, a SAMPLE or a closing transform in a
  state whose BOFF or CNT lies outside the capacity, which no run reaches. Safe: the spec gives such an access
  no effect. Log entry 14. -/
  | noSuchAddress (sp : Space)
deriving DecidableEq, Repr

/-- Why the model answers no next state. -/
inductive Refusal where
  /-- An instruction whose meaning is not modelled, by its mnemonic. Raised by exec's arms only; safe. -/
  | notModelled (mnemonic : String)
  /-- A stream record or SAMPLE executed where the decoder does not select it (R140, R96): the wrong DSTATE or
  RUNREM, a width other than W, or no DECODE running. Raised by those instructions' meanings; step never does
  so. Safe: no rule gives an effect there. Log entry 13. -/
  | recordOutOfPlace
  /-- A host command executed while ST = BUSY: the host has no move there (R250, U7). Raised by the command
  meanings; step never does so. Safe. Log entry 13. -/
  | commandWhileBusy
  /-- A host write to a memory byte while ST = FAULT, a move R64 and R198 do not give the host. Raised by step.
  Safe. Log entry 15. -/
  | byteWriteInFault
  /-- ST = BUSY with DSTATE = D_IDLE, where no rule selects anything (R140). Raised by step; no run reaches it.
  Safe. Log entry 13. -/
  | nothingSelected
deriving DecidableEq, Repr

/-- ST, STATUS bits 1 to 0; the value 3 never occurs (R39, U11). -/
inductive RunState where
  | idle
  | busy
  | fault
deriving DecidableEq, Repr, Inhabited

/-- CAUSE, STATUS bits 7 to 4; the values 4 to 15 never occur (R39, R211, U11). -/
inductive Cause where
  | none
  | resourceCoded
  | resourceOut
  | resourceTmp
deriving DecidableEq, Repr, Inhabited

/-- DSTATE, the decoder's state (R26). -/
inductive DState where
  | idle
  | readHeader
  | decodeRuns
  | done
deriving DecidableEq, Repr, Inhabited

/-- The two memories the host can reach; TMP is "not accessible to the host" (R63, R64). -/
inductive HostSpace where
  | coded
  | out
deriving DecidableEq, Repr

/-- A move of the host (43_host_commands.md R198). -/
inductive HostMove where
  /-- Write a register by its number; number 0 submits a command word (R36, R37). -/
  | writeReg (reg : Nat) (v : Word)
  /-- Read a register by its number. -/
  | readReg (reg : Nat)
  /-- Write one byte of CODED or OUT (R64). -/
  | writeByte (sp : HostSpace) (a : Word) (b : Byte)
  /-- Read one byte of CODED or OUT. -/
  | readByte (sp : HostSpace) (a : Word)
  /-- The reset event, after that many further steps of the block; it needs no idle block (R240). -/
  | reset (delay : Nat)
deriving DecidableEq, Repr

/-- A byte memory: the bytes something has written, in rising order of address, and the occasions on which its
contents became unspecified, newest first: a mark (b, g) says that the unwritten bytes from address b up hold
the free values of occasion g. Log entry 4. -/
structure Memory where
  cells : List Host.Cell
  marks : List (Nat × Nat)
deriving DecidableEq, Repr, Inhabited

/-- The state of one decoder instance (R20). The last four fields are the model's own or the instance's
parameters: see INVENTORY.md. -/
structure State where
  /-- WIN, the read window (R21). -/
  win : Word
  /-- NBITS, the valid bits in the window (R22). -/
  nbits : BitVec 6
  /-- BOFF, the CODED address of the next refill (R23). -/
  boff : Word
  /-- PLEN, the padded length of the coded buffer (R24). -/
  plen : Word
  /-- BITPOS, the ghost cursor (R25). -/
  bitpos : Nat
  /-- DSTATE (R26). -/
  dstate : DState
  /-- SKIP, the interleave lane count (R27). -/
  skip : BitVec 3
  /-- STRIP, the lookback distance (R28). -/
  strip : BitVec 17
  /-- RUNREM, the samples left in the current run (R29). -/
  runrem : BitVec 7
  /-- WCODE, the width code of the current run (R30). -/
  wcode : BitVec 3
  /-- W, the residual width of the current run (R31). -/
  w : BitVec 6
  /-- CNT, the samples produced (R32). -/
  cnt : Word
  /-- ALLOC, the OUT bytes claimed (R33). -/
  alloc : Word
  /-- ACT, the last sample produced (R34). -/
  act : Byte
  /-- A0, A1, A2, the operand registers (R38). -/
  a0 : Word
  a1 : Word
  a2 : Word
  /-- STATUS.ST (R39). -/
  st : RunState
  /-- STATUS.DONE (R42). -/
  done : Bool
  /-- STATUS.CMDERR (R42). -/
  cmderr : Bool
  /-- STATUS.CAUSE (R39, R211). -/
  cause : Cause
  /-- RV, the value of the last completed READBITS command (R40). -/
  rv : Word
  /-- CODED memory (R61). -/
  coded : Memory
  /-- OUT memory (R62). -/
  out : Memory
  /-- TMP memory (R63). -/
  tmp : Memory
  /-- The parameters of the instance (R6, R241). -/
  params : Params
  /-- The host's pending moves, oldest first. Log entry 10. -/
  host : List HostMove
  /-- What the host's last read returned. Log entry 20. -/
  hostRead : Word
  /-- The number of the next occasion on which something becomes unspecified. Log entry 20. -/
  fresh : Nat
deriving DecidableEq, Repr

/-- A memory whose every byte is unspecified, of one occasion (R47, U4). -/
def Memory.unspecified (g : Nat) : Memory := { cells := [], marks := [(0, g)] }

/-- The machine right after reset (10_state.md R47). SKIP, STRIP, WCODE and W have no reset value in the spec:
the values here are the model's (log entries 2 and 3). -/
def State.reset : State where
  win := 0
  nbits := 0
  boff := 0
  plen := 0
  bitpos := 0
  dstate := .idle
  skip := 1
  strip := 1
  runrem := 0
  wcode := 0
  w := 0
  cnt := 0
  alloc := 0
  act := 0
  a0 := 0
  a1 := 0
  a2 := 0
  st := .idle
  done := false
  cmderr := false
  cause := .none
  rv := 0
  coded := Memory.unspecified 0
  out := Memory.unspecified 0
  tmp := Memory.unspecified 0
  params := Config.params
  host := []
  hostRead := 0
  fresh := 1

end Sys2Proof.Machine
end

