-- ==== Sys2Proof/Machine/Flags.lean ====
section
/-! DEFINITION. The flags DONE and CMDERR, the STATUS register, and the three ways a submitted command word changes them (10_state.md R39, R42; 43_host_commands.md R190 to R193). -/

namespace Sys2Proof.Machine

/-- ST as a number (R39). -/
def RunState.code : RunState → BitVec 2
  | .idle => 0
  | .busy => 1
  | .fault => 2

/-- CAUSE as a number (R39, R211). -/
def Cause.code : Cause → BitVec 4
  | .none => 0
  | .resourceCoded => 1
  | .resourceOut => 2
  | .resourceTmp => 3

/-- DSTATE as a number (R26). -/
def DState.code : DState → BitVec 2
  | .idle => 0
  | .readHeader => 1
  | .decodeRuns => 2
  | .done => 3

/-- STATUS as the host reads it: ST in bits 1 to 0, DONE 2, CMDERR 3, CAUSE 7 to 4, DSTATE 9 to 8, zero above (R39). -/
def statusWord (s : State) : Word :=
  0#22 ++ s.dstate.code ++ s.cause.code ++ BitVec.ofBool s.cmderr ++ BitVec.ofBool s.done ++ s.st.code

/-- Acceptance: the write to CMD clears DONE, then CMDERR <- 0 and ST <- BUSY (R190). -/
def accept (s : State) : State := { s with done := false, cmderr := false, st := .busy }

/-- Refusal: DONE <- 0 by the write itself, CMDERR <- 1, nothing else (R192). -/
def refuseCommand (s : State) : State := { s with done := false, cmderr := true }

/-- Completion without fault: ST <- IDLE, DONE <- 1 (R193). -/
def complete (s : State) : State := { s with st := .idle, done := true }

/-- What a command's meaning does with ST: in IDLE it runs; in FAULT the write to CMD is ignored (R216); while
BUSY the host has no move (R250). The check of ST comes first (R220). -/
def submit (s : State) (run : State → Host.Outcome State Fault Refusal) : Host.Outcome State Fault Refusal :=
  match s.st with
  | .idle => run s
  | .fault => .next s
  | .busy => .refused .commandWhileBusy

end Sys2Proof.Machine
end

