-- ==== Sys2Proof/Machine/Operands.lean ====
section
/-! DEFINITION. The operand forms of the spec: 32-bit shifts and masks (00_scope.md R9, R10), how a field becomes an operand (30_encoding.md R95), the parts of a sample (41_residual_decoder.md R146 to R148), and the TMP need (42_interleave_transform.md R176). -/

namespace Sys2Proof.Machine

/-- shl32: 0 for a shift of 32 or more (R9). -/
def shl32 (x : Word) (k : Nat) : Word := x <<< k

/-- shr32: 0 for a shift of 32 or more (R9). -/
def shr32 (x : Word) (k : Nat) : Word := x >>> k

/-- mask32 k = 2^k - 1 (R9). -/
def mask32 (k : Nat) : Word := BitVec.ofNat 32 (2 ^ k - 1)

/-- BE32: the first byte is the most significant (R10, R65). -/
def be32 (b0 b1 b2 b3 : Byte) : Word := b0 ++ b1 ++ b2 ++ b3

/-- ceil4 n = 4 * ((n + 3) div 4) (R8). -/
def ceil4 (n : Nat) : Nat := 4 * ((n + 3) / 4)

/-- skip = K + 1, exact (R95, R151). -/
def skipOf (k : BitVec 2) : BitVec 3 := BitVec.ofNat 3 (k.toNat + 1)

/-- strip = S + 1, exact in 17 bits (R95, R151). -/
def stripOf (v : BitVec 16) : BitVec 17 := BitVec.ofNat 17 (v.toNat + 1)

/-- The prediction is forced to 0 when STRIP = 1 or i <= STRIP (R146; 90_conflicts.md C2). -/
def noPrediction (strip i : Nat) : Bool := decide (strip = 1) || decide (i ≤ strip)

/-- The prediction from the two lookback samples, an exact integer (R146). -/
def difference (later earlier : Byte) : Int := (later.toNat : Int) - (earlier.toNat : Int)

/-- The residual of a field: F less the bias 2^(W-1), an exact integer; 0 when W = 0 (R147; 90_conflicts.md C8). -/
def residualOf (w f : Nat) : Int := if w = 0 then 0 else (f : Int) - (2 : Int) ^ (w - 1)

/-- Reduction modulo 256 with floor modulo: wrap, never saturate (R148). -/
def fold (x : Int) : Byte := BitVec.ofInt 8 x

/-- The base of the sample sum: ACT when P_ACCUM = 1, else 0 (R148; 90_conflicts.md C1). -/
def sampleBase (accum : Bool) (act : Byte) : Int := if accum then (act.toNat : Int) else 0

/-- The bytes of TMP a transform of n bytes with that many lanes and that window needs (R176). The product is
exact (R175, R181). -/
def tmpNeed (n lanes window : Nat) : Nat :=
  if lanes ≤ 1 then 0 else if window = 0 then n else min n (lanes * window)

end Sys2Proof.Machine
end

