-- ==== Sys2Proof/Machine/Ops.lean ====
section
/-! DEFINITION. The named operations over memory, the Bit Reader and the host registers, entering a fault, and the reset event that alone leaves it. -/

namespace Sys2Proof.Machine

/-! Memory (20_memory.md R60 to R73) -/

/-- The byte listed at an address, if something has written it. -/
def cellAt : List Host.Cell → Nat → Option Byte
  | [], _ => none
  | (x, b) :: rest, a => if a = x then some b else cellAt rest a

/-- The cells with one byte written, in rising order. -/
def putCell : List Host.Cell → Nat → Byte → List Host.Cell
  | [], a, b => [(a, b)]
  | (x, y) :: rest, a, b =>
    if a < x then (a, b) :: (x, y) :: rest
    else if a = x then (a, b) :: rest
    else (x, y) :: putCell rest a b

/-- The occasion an unwritten byte belongs to: that of the newest mark at or below its address. -/
def occasionAt : List (Nat × Nat) → Nat → Nat
  | [], _ => 0
  | (b, g) :: rest, a => if b ≤ a then g else occasionAt rest a

/-- What a byte of a space holds: the latest write, "or the unspecified reset content if there was none" (R73),
which is a free value (log entry 4). Reading has no side effect (R69). -/
def readByte (sp : Space) (m : Memory) (a : Nat) : Byte :=
  match cellAt m.cells a with
  | some b => b
  | none => Config.unwritten sp (occasionAt m.marks a) a

/-- MemRead: n bytes from an address on, lowest address first (00_scope.md R10). -/
def readBytes (sp : Space) (m : Memory) (a : Nat) : Nat → List Byte
  | 0 => []
  | n + 1 => readByte sp m a :: readBytes sp m (a + 1) n

/-- Writing a byte changes only that byte (R69). -/
def writeByte (m : Memory) (a : Nat) (b : Byte) : Memory := { m with cells := putCell m.cells a b }

/-- MemWrite: a list of bytes from an address on (R10). -/
def writeBytes (m : Memory) (a : Nat) : List Byte → Memory
  | [] => m
  | b :: rest => writeBytes (writeByte m a b) (a + 1) rest

/-- The bytes from an address up become unspecified, on occasion g; those below keep what they hold. -/
def forgetFrom (m : Memory) (a g : Nat) : Memory :=
  { cells := m.cells.filter fun c => decide (c.1 < a)
    marks := (a, g) :: m.marks.filter fun k => decide (k.1 < a) }

/-- The addresses of the listed cells rise strictly. -/
def risingCells : List Host.Cell → Bool
  | [] => true
  | [_] => true
  | (x, _) :: (y, b) :: rest => decide (x < y) && risingCells ((y, b) :: rest)

/-- The marks' addresses fall strictly. -/
def fallingMarks : List (Nat × Nat) → Bool
  | [] => true
  | [_] => true
  | (x, _) :: (y, g) :: rest => decide (y < x) && fallingMarks ((y, g) :: rest)

/-- The canonical form of a memory. An unlisted address holds no byte of its own (its reading is a free value),
so no listed entry equals it. -/
def memoryWf (m : Memory) : Bool := risingCells m.cells && fallingMarks m.marks

/-- The three memories by name. -/
def memoryOf (s : State) : Space → Memory
  | .coded => s.coded
  | .out => s.out
  | .tmp => s.tmp

/-- The byte of a space in a state. -/
def byteAt (s : State) (sp : Space) (a : Nat) : Byte := readByte sp (memoryOf s sp) a

/-! The Bit Reader (40_bit_reader.md) -/

/-- INITBUFFER: empty the window; the ghost cursor moves to the next word to be fetched (R121). -/
def initBuffer (s : State) : State := { s with win := 0, nbits := 0, bitpos := 8 * s.boff.toNat }

/-- CLEARBITS: detach the buffer and rewind the cursor (R122). -/
def clearBits (s : State) : State := { s with boff := 0, plen := 0, bitpos := 0 }

/-- The reader is clear: what INITBUFFER and CLEARBITS establish (R123). -/
def readerClear (s : State) : Bool := decide (s.win = 0) && decide (s.nbits = 0) && decide (s.boff = 0)

/-- Padding n bytes would need more of CODED than there is: ceil4(n) > P_CODED_CAP (R123, R211). The first
conjunct is implied by the second; it lets the case of an empty chunk be evaluated whatever the capacity. -/
def chunkTooLarge (p : Params) (n : Nat) : Bool := decide (0 < ceil4 n) && decide (p.codedBytes < ceil4 n)

/-- LOADBITS: zero the bytes from the logical length up to the padded length, then PLEN (R123). -/
def loadBits (n : Nat) (s : State) : State :=
  { s with
    coded := writeBytes s.coded n (List.replicate (ceil4 n - n) 0)
    plen := BitVec.ofNat 32 (ceil4 n) }

/-- The big-endian word at BOFF (R65). -/
def refillWord (s : State) : Word :=
  be32 (byteAt s .coded s.boff.toNat) (byteAt s .coded (s.boff.toNat + 1))
    (byteAt s .coded (s.boff.toNat + 2)) (byteAt s .coded (s.boff.toNat + 3))

/-- READBITS(n), the pseudocode of R124: the value delivered and the state after. -/
def readBits (n : Nat) (s : State) : Word × State :=
  if n < s.nbits.toNat then
    let left := s.nbits.toNat - n
    (shr32 s.win left,
      { s with win := s.win &&& mask32 left, nbits := BitVec.ofNat 6 left, bitpos := s.bitpos + n })
  else
    let old := shl32 s.win (n - s.nbits.toNat)
    let inside := decide (s.boff.toNat < s.plen.toNat)
    let word := if inside then refillWord s else 0
    let boff := if inside then s.boff + 4 else s.boff
    let left := s.nbits.toNat + 32 - n
    (old ||| shr32 word left,
      { s with
        win := word &&& mask32 left, nbits := BitVec.ofNat 6 left, boff := boff, bitpos := s.bitpos + n })

/-- The state after READBITS(n). -/
def advance (n : Nat) (s : State) : State := (readBits n s).2

/-- READBITS(n) would refill from CODED at addresses that do not exist (R60, R79). It cannot where the reader's
invariants hold (10_state.md R45 I3). For the two fields of a record head n is their sum: the two reads together
refill at most once, at this same BOFF. -/
def refillOutside (n : Nat) (s : State) : Bool :=
  decide (s.nbits.toNat ≤ n) && decide (s.boff.toNat < s.plen.toNat)
    && decide (s.params.codedBytes < s.boff.toNat + 4)

/-- A width of 0 reads no bits: the reader is not called (41_residual_decoder.md R147). -/
def advanceField (w : Nat) (s : State) : State := if w = 0 then s else advance w s

/-- A residual field of w bits would be fetched from addresses that do not exist. -/
def fieldOutside (w : Nat) (s : State) : Bool := decide (w ≠ 0) && refillOutside w s

/-! Faults and reset (60_exceptions.md, 70_reset_and_hazards.md) -/

/-- Fault entry (R214) and the faulted state (R215): ST, CAUSE, DONE, CNT and ALLOC are written, DSTATE, CMDERR
and A0 to A2 keep their values, CODED below A0 is unchanged, and everything else is a free value (log entries 5
and 6). There is no handler, no saved cursor and no mode. -/
def takeFault (c : Cause) (s : State) : State :=
  let r := Config.afterFault s.fresh
  { s with
    st := .fault, cause := c, done := false, cnt := 0, alloc := 0
    win := r.win, nbits := r.nbits, boff := r.boff, plen := r.plen, bitpos := r.bitpos
    skip := r.skip, strip := r.strip, runrem := r.runrem, wcode := r.wcode, w := r.w, act := r.act, rv := r.rv
    coded := forgetFrom s.coded s.a0.toNat s.fresh
    out := Memory.unspecified s.fresh
    tmp := Memory.unspecified s.fresh
    fresh := s.fresh + 1 }

/-- The reset event, "the only way out of FAULT" (R240): every register at its reset value, every memory
unspecified. The parameters stay (R241); the host's further moves and what it has read are the host's. -/
def resetEvent (s : State) : State :=
  { State.reset with
    params := s.params
    host := s.host
    hostRead := s.hostRead
    coded := Memory.unspecified s.fresh
    out := Memory.unspecified s.fresh
    tmp := Memory.unspecified s.fresh
    fresh := s.fresh + 1 }

/-! The host's registers and bytes (10_state.md R36 to R43, 20_memory.md R64) -/

/-- A register read: CMD and the absent numbers read 0; RCNT, RSKIP and RSTRIP are views (R36, R41). -/
def readRegister (s : State) (reg : Nat) : Word :=
  match reg with
  | 1 => s.a0
  | 2 => s.a1
  | 3 => s.a2
  | 4 => statusWord s
  | 5 => s.rv
  | 6 => s.cnt
  | 7 => s.skip.setWidth 32
  | 8 => s.strip.setWidth 32
  | _ => 0

/-- A write to a register other than CMD: A0 to A2 take it; read-only and absent registers ignore it (R36). -/
def writeRegister (s : State) (reg : Nat) (v : Word) : State :=
  match reg with
  | 1 => { s with a0 := v }
  | 2 => { s with a1 := v }
  | 3 => { s with a2 := v }
  | _ => s

/-- The space behind a host access. -/
def HostSpace.space : HostSpace → Space
  | .coded => .coded
  | .out => .out

/-- A byte the host deposits. -/
def hostWriteByte (s : State) (sp : HostSpace) (a : Nat) (b : Byte) : State :=
  match sp with
  | .coded => { s with coded := writeByte s.coded a b }
  | .out => { s with out := writeByte s.out a b }

end Sys2Proof.Machine
end

