-- ==== Sys2Proof/WellFormed.lean ====
section
/-! DEFINITION. Which terms of Instr are instructions: the operand ranges of 30_encoding.md R92, R94, R101, R102. -/

namespace Sys2Proof

/-- A run length is 1 to 127; 0 selects END instead (R92). -/
def runLengthOk (n : BitVec 7) : Bool := n != 0

/-- A residual field has 0 to 32 bits and its value fits them (R94, R31). -/
def residualOk (w : BitVec 6) (f : Word) : Bool := decide (w.toNat ≤ 32) && decide (f.toNat < 2 ^ w.toNat)

/-- A READBITS width is 1 to 32 (R101, R102). -/
def readWidthOk (n : BitVec 6) : Bool := n != 0 && decide (n.toNat ≤ 32)

/-- The well-formed instructions: exactly those an encoding stands for. -/
def Instr.wf : Instr → Bool
  | .hdr _ _ => true
  | .runC0 n => runLengthOk n
  | .runC1 n => runLengthOk n
  | .runC2 n => runLengthOk n
  | .runC3 n => runLengthOk n
  | .runC4 n => runLengthOk n
  | .runC5 n => runLengthOk n
  | .runC6 n => runLengthOk n
  | .runC7 n => runLengthOk n
  | .endRec => true
  | .sample w f => residualOk w f
  | .initbuffer => true
  | .clearbits => true
  | .loadbits => true
  | .readbits n => readWidthOk n
  | .decode => true
  | .xformF => true
  | .xformR => true

end Sys2Proof
end

