-- ==== Sys2Proof/Machine/BitReader.lean ====
section
/-! DEFINITION. The four Bit Reader commands (40_bit_reader.md R121 to R124), as the host submits them. -/

namespace Sys2Proof.Machine

/-- INITBUFFER (R121). -/
def execInitbuffer (s : State) : Host.Outcome State Fault Refusal :=
  submit s fun s => .next (complete (initBuffer (accept s)))

/-- CLEARBITS (R122). -/
def execClearbits (s : State) : Host.Outcome State Fault Refusal :=
  submit s fun s => .next (complete (clearBits (accept s)))

/-- LOADBITS (R123). With an unclear reader it is refused with CMDERR (R192, U3; log entry 11); a padded length
above P_CODED_CAP is the fault E_RESOURCE_CODED, before any pad byte is written (R211, R213). -/
def execLoadbits (s : State) : Host.Outcome State Fault Refusal :=
  submit s fun s =>
    if readerClear s = false then .next (refuseCommand s)
    else if chunkTooLarge s.params s.a0.toNat then .next (takeFault .resourceCoded (accept s))
    else .next (complete (loadBits s.a0.toNat (accept s)))

/-- READBITS n (R124): the next n bits, right-aligned, in RV (R40). A width outside 1 to 32 is refused (R102). -/
def execReadbits (n : BitVec 6) (s : State) : Host.Outcome State Fault Refusal :=
  submit s fun s =>
    if readWidthOk n = false then .next (refuseCommand s)
    else if refillOutside n.toNat s then .fault (.noSuchAddress .coded)
    else .next (complete { advance n.toNat (accept s) with rv := (readBits n.toNat s).1 })

end Sys2Proof.Machine
end

