-- ==== Sys2Proof/Machine/Interleave.lean ====
section
/-! DEFINITION. The Interleave Transform as a function on byte lists (42_interleave_transform.md R172 to R177) and the two XFORM commands (R171). -/

namespace Sys2Proof.Machine

/-- L_i: the bytes lane i has in a span of len bytes (R172). -/
def laneLength (len lanes i : Nat) : Nat := if i < len % lanes then len / lanes + 1 else len / lanes

/-- S_i: where lane i starts in the gathered layout (R172). -/
def laneStart (len lanes i : Nat) : Nat := i * (len / lanes) + min i (len % lanes)

/-- Where the byte at relative position j of a span stands in the gathered layout (R173). -/
def gatheredPlace (len lanes j : Nat) : Nat := laneStart len lanes (j % lanes) + j / lanes

/-- The bytes of lane i, in order: positions i, i + s, i + 2s, ... below the length (R172). -/
def laneBytes (x : List Byte) (lanes i : Nat) : List Byte :=
  (List.range (laneLength x.length lanes i)).map fun m => x.getD (i + m * lanes) 0

/-- fwd_s: "write lanes out contiguously (lane 0 fully, then lane 1, ...)" (R173). Lanes from the length up are
empty (R178 (d)), so they are not visited. -/
def gather (lanes : Nat) (x : List Byte) : List Byte :=
  (List.range (min lanes x.length)).flatMap fun i => laneBytes x lanes i

/-- rst_s: "read the contiguous per-lane layout and scatter back to strided positions" (R173). -/
def scatter (lanes : Nat) (y : List Byte) : List Byte :=
  (List.range y.length).map fun j => y.getD (gatheredPlace y.length lanes j) 0

/-- P: the permutation of one span, by direction (R174, R177). -/
def spanMap (restore : Bool) (lanes : Nat) (x : List Byte) : List Byte :=
  if restore then scatter lanes x else gather lanes x

/-- The given number of full windows, each mapped by itself, then the final partial one (R175). -/
def windowMap (restore : Bool) (lanes wb : Nat) : Nat → List Byte → List Byte
  | 0, x => spanMap restore lanes x
  | k + 1, x => spanMap restore lanes (x.take wb) ++ windowMap restore lanes wb k (x.drop wb)

/-- T(X, s, B, restore) (R177). The window product is exact (R175, R181). -/
def transformBytes (restore : Bool) (lanes window : Nat) (x : List Byte) : List Byte :=
  if lanes ≤ 1 then x
  else if window = 0 then spanMap restore lanes x
  else windowMap restore lanes (lanes * window) (x.length / (lanes * window)) x

/-- TMP after a transform holds unspecified values (R63, R171; log entry 7). -/
def forgetTmp (s : State) : State := { s with tmp := Memory.unspecified s.fresh, fresh := s.fresh + 1 }

/-- OUT[0 .. n-1] transformed in place (R174, R177). With at most one lane no byte is touched (R178 (a)). -/
def transformOut (restore : Bool) (n lanes window : Nat) (s : State) : State :=
  if lanes ≤ 1 then s
  else { s with out := writeBytes s.out 0 (transformBytes restore lanes window (readBytes .out s.out 0 n)) }

/-- The transform needs more of TMP than there is (R176). -/
def tmpTooSmall (p : Params) (n lanes window : Nat) : Bool :=
  decide (1 < lanes) && decide (p.tmpBytes < tmpNeed n lanes window)

/-- XFORM is refused when the buffer does not lie inside OUT: skip >= 2 and N > P_OUT_CAP (R171, R192). -/
def bufferOutside (p : Params) (n lanes : Nat) : Bool := decide (1 < lanes) && decide (p.outBytes < n)

/-- An XFORM command: A0 = N, A1 = skip, A2 = windowSamples (R171). -/
def xformCommand (restore : Bool) (s : State) : Host.Outcome State Fault Refusal :=
  submit s fun s =>
    if bufferOutside s.params s.a0.toNat s.a1.toNat then .next (refuseCommand s)
    else if tmpTooSmall s.params s.a0.toNat s.a1.toNat s.a2.toNat then .next (takeFault .resourceTmp (accept s))
    else .next (complete (forgetTmp (transformOut restore s.a0.toNat s.a1.toNat s.a2.toNat (accept s))))

/-- XFORM.F: gather each lane into a contiguous span (R171). -/
def execXformF (s : State) : Host.Outcome State Fault Refusal := xformCommand false s

/-- XFORM.R: the inverse (R171). -/
def execXformR (s : State) : Host.Outcome State Fault Refusal := xformCommand true s

end Sys2Proof.Machine
end

