-- ==== Sys2Proof/Machine/HostCommands.lean ====
section
/-! DEFINITION. DECODE: its submission, and the closing actions that end it (43_host_commands.md R195; 41_residual_decoder.md R150). -/

namespace Sys2Proof.Machine

/-- DECODE up to its first record: INITBUFFER, CLEARBITS, LOADBITS(A0), DSTATE <- D_READHEADER, with ST = BUSY
(R195). The records and samples are the steps that follow, and closeDecode the last one: the small-step reading
R191 allows (log entry 9). A chunk that does not fit CODED faults in LOADBITS and leaves DSTATE (R155). -/
def execDecode (s : State) : Host.Outcome State Fault Refusal :=
  submit s fun s =>
    if chunkTooLarge s.params s.a0.toNat then .next (takeFault .resourceCoded (clearBits (initBuffer (accept s))))
    else .next { loadBits s.a0.toNat (clearBits (initBuffer (accept s))) with dstate := .readHeader }

/-- OUT from CNT up is no part of a decode's result and unspecified (R150, R196, U6; log entry 8). -/
def forgetBeyondResult (s : State) : State :=
  { s with out := forgetFrom s.out s.cnt.toNat s.fresh, fresh := s.fresh + 1 }

/-- The closing actions in D_DONE: the restore transform of OUT[0 .. CNT-1] with SKIP lanes and the window A1,
then completion (R150, R195). The transform may fault for want of TMP (R176). -/
def closeDecode (s : State) : Host.Outcome State Fault Refusal :=
  if bufferOutside s.params s.cnt.toNat s.skip.toNat then .fault (.noSuchAddress .out)
  else if tmpTooSmall s.params s.cnt.toNat s.skip.toNat s.a1.toNat then .next (takeFault .resourceTmp s)
  else .next (complete (forgetBeyondResult
    (forgetTmp (transformOut true s.cnt.toNat s.skip.toNat s.a1.toNat s))))

end Sys2Proof.Machine
end

