-- ==== Sys2Proof/Machine/ResidualDecoder.lean ====
section
/-! DEFINITION. The stream records HDR, RUN.c0 to RUN.c7 and END, and the micro-operation SAMPLE (41_residual_decoder.md R141 to R149). No flag and no host register changes in any of them. -/

namespace Sys2Proof.Machine

/-- A DECODE is running and its decoder is in that state (R140). -/
def decoderAt (d : DState) (s : State) : Bool := decide (s.st = .busy) && decide (s.dstate = d)

/-- A run-length field comes next (R96, R142). -/
def runHeadSelected (s : State) : Bool := decoderAt .decodeRuns s && decide (s.runrem = 0)

/-- A residual field of w bits comes next, w being the current run's width (R96, R145). -/
def sampleSelected (w : BitVec 6) (s : State) : Bool :=
  decoderAt .decodeRuns s && decide (s.runrem ≠ 0) && decide (s.w = w) && decide (w.toNat ≤ 32)

/-- HDR: SKIP, STRIP, the cleared counters, DSTATE, with the reader past 2 and 16 bits (R141). -/
def execHdr (k : BitVec 2) (v : BitVec 16) (s : State) : Host.Outcome State Fault Refusal :=
  if decoderAt .readHeader s = false then .refused .recordOutOfPlace
  else if refillOutside 18 s then .fault (.noSuchAddress .coded)
  else .next
    { advance 16 (advance 2 s) with
      skip := skipOf k, strip := stripOf v, cnt := 0, alloc := 0, act := 0, runrem := 0, dstate := .decodeRuns }

/-- RUN.c for a code c: WCODE, W = WTAB[c], RUNREM = N, with the reader past 7 and 3 bits (R142, R143). -/
def startRun (c : BitVec 3) (n : BitVec 7) (s : State) : Host.Outcome State Fault Refusal :=
  if (runHeadSelected s && decide (n ≠ 0)) = false then .refused .recordOutOfPlace
  else if refillOutside 10 s then .fault (.noSuchAddress .coded)
  else .next
    { advance 3 (advance 7 s) with wcode := c, w := BitVec.ofNat 6 (s.params.width c), runrem := n }

/-- RUN.c0 (R143). -/
def execRunC0 (n : BitVec 7) (s : State) : Host.Outcome State Fault Refusal := startRun 0 n s

/-- RUN.c1 (R143). -/
def execRunC1 (n : BitVec 7) (s : State) : Host.Outcome State Fault Refusal := startRun 1 n s

/-- RUN.c2 (R143). -/
def execRunC2 (n : BitVec 7) (s : State) : Host.Outcome State Fault Refusal := startRun 2 n s

/-- RUN.c3 (R143). -/
def execRunC3 (n : BitVec 7) (s : State) : Host.Outcome State Fault Refusal := startRun 3 n s

/-- RUN.c4 (R143). -/
def execRunC4 (n : BitVec 7) (s : State) : Host.Outcome State Fault Refusal := startRun 4 n s

/-- RUN.c5 (R143). -/
def execRunC5 (n : BitVec 7) (s : State) : Host.Outcome State Fault Refusal := startRun 5 n s

/-- RUN.c6 (R143). -/
def execRunC6 (n : BitVec 7) (s : State) : Host.Outcome State Fault Refusal := startRun 6 n s

/-- RUN.c7 (R143). -/
def execRunC7 (n : BitVec 7) (s : State) : Host.Outcome State Fault Refusal := startRun 7 n s

/-- END: ALLOC <- CNT, DSTATE <- D_DONE, with the reader past 7 bits and no code read (R142, R144). -/
def execEndRec (s : State) : Host.Outcome State Fault Refusal :=
  if runHeadSelected s = false then .refused .recordOutOfPlace
  else if refillOutside 7 s then .fault (.noSuchAddress .coded)
  else .next { advance 7 s with alloc := s.cnt, dstate := .done }

/-- The prediction of the next sample from the samples already written (R146). -/
def predictionOf (s : State) : Int :=
  let i := s.cnt.toNat
  let strip := s.strip.toNat
  if noPrediction strip i then 0
  else difference (byteAt s .out (i - strip)) (byteAt s .out (i - strip - 1))

/-- The next sample: base + prediction + residual, folded (R148). -/
def sampleValue (w f : Nat) (s : State) : Byte :=
  fold (sampleBase s.params.accum s.act + predictionOf s + residualOf w f)

/-- The claim of the next output block fails: i is a multiple of 2^20 and i + 2^20 > P_OUT_CAP (R149). P_OUT_CAP
is at least 2^20, so the claim at i = 0 never fails; the middle conjunct says so without the capacity. -/
def claimFails (p : Params) (i : Nat) : Bool :=
  decide (i % Config.block = 0) && decide (0 < i) && decide (p.outBytes < i + Config.block)

/-- A sample would be written at an address that does not exist although no claim was due: CNT is no multiple of
2^20 and not below P_OUT_CAP, which no run reaches (R46, R79). -/
def sampleOutside (p : Params) (i : Nat) : Bool := decide (i % Config.block ≠ 0) && decide (p.outBytes ≤ i)

/-- ALLOC after the claim for sample i (R149). -/
def claimed (i : Nat) (alloc : Word) : Word :=
  if i % Config.block = 0 then BitVec.ofNat 32 (i + Config.block) else alloc

/-- The write of a sample: OUT[i], ACT, CNT, RUNREM and the claim (R145, R149). -/
def placeSample (v : Byte) (s : State) : State :=
  { s with
    out := writeByte s.out s.cnt.toNat v
    act := v
    cnt := s.cnt + 1
    runrem := s.runrem - 1
    alloc := claimed s.cnt.toNat s.alloc }

/-- SAMPLE (R145 to R149). -/
def execSample (w : BitVec 6) (f : Word) (s : State) : Host.Outcome State Fault Refusal :=
  if sampleSelected w s = false then .refused .recordOutOfPlace
  else if fieldOutside w.toNat s then .fault (.noSuchAddress .coded)
  else if claimFails s.params s.cnt.toNat then .next (takeFault .resourceOut s)
  else if sampleOutside s.params s.cnt.toNat then .fault (.noSuchAddress .out)
  else .next (placeSample (sampleValue w.toNat f.toNat s) (advanceField w.toNat s))

end Sys2Proof.Machine
end

