-- ==== Sys2Proof/Machine/Dispatch.lean ====
section
/-! DEFINITION. exec: one arm for each instruction of the opcode table. -/

namespace Sys2Proof.Machine

def exec (i : Instr) (s : State) : Host.Outcome State Fault Refusal :=
  match i with
  | .hdr k v => Sys2Proof.Machine.execHdr k v s
  | .runC0 n => Sys2Proof.Machine.execRunC0 n s
  | .runC1 n => Sys2Proof.Machine.execRunC1 n s
  | .runC2 n => Sys2Proof.Machine.execRunC2 n s
  | .runC3 n => Sys2Proof.Machine.execRunC3 n s
  | .runC4 n => Sys2Proof.Machine.execRunC4 n s
  | .runC5 n => Sys2Proof.Machine.execRunC5 n s
  | .runC6 n => Sys2Proof.Machine.execRunC6 n s
  | .runC7 n => Sys2Proof.Machine.execRunC7 n s
  | .endRec => Sys2Proof.Machine.execEndRec s
  | .sample w f => Sys2Proof.Machine.execSample w f s
  | .initbuffer => Sys2Proof.Machine.execInitbuffer s
  | .clearbits => Sys2Proof.Machine.execClearbits s
  | .loadbits => Sys2Proof.Machine.execLoadbits s
  | .readbits n => Sys2Proof.Machine.execReadbits n s
  | .decode => Sys2Proof.Machine.execDecode s
  | .xformF => Sys2Proof.Machine.execXformF s
  | .xformR => Sys2Proof.Machine.execXformR s

end Sys2Proof.Machine
end

