-- ==== Sys2Proof/Decode.lean ====
section
/-! DEFINITION. The decoder of the coded stream's records and of host command words, total, rejecting by name, and the encoder after it (30_encoding.md R90 to R102). -/

namespace Sys2Proof

/-- Why a word is no instruction. The first four are the reserved command words of R102; the last is a
residual width above 32, which WTAB's range excludes (R31, R147). Nothing else in the stream is illegal (R99). -/
inductive DecodeError where
  | reservedOp
  | reservedBits
  | reservedImm
  | readWidth
  | residualWidth
deriving DecidableEq, Repr

/-- An operation whose immediate must be zero (R101). -/
def decodePlain (imm : BitVec 8) (i : Instr) : Except DecodeError Instr :=
  if imm = 0 then .ok i else .error .reservedImm

/-- READBITS: IMM bits 5 to 0 are n, 1 to 32; bits 7 to 6 are zero (R101, R102). -/
def decodeReadbits (imm : BitVec 8) : Except DecodeError Instr :=
  if imm.extractLsb' 6 2 ≠ 0 then .error .reservedImm
  else if readWidthOk (imm.extractLsb' 0 6) then .ok (.readbits (imm.extractLsb' 0 6))
  else .error .readWidth

/-- XFORM: IMM bit 0 is the restore bit; bits 7 to 1 are zero (R101). -/
def decodeXform (imm : BitVec 8) : Except DecodeError Instr :=
  if imm = 0 then .ok .xformF
  else if imm = 1 then .ok .xformR
  else .error .reservedImm

/-- A command word: OP in bits 31 to 28, zero in 27 to 8, IMM in 7 to 0 (R100 to R102). -/
def decodeCommand (word : Word) : Except DecodeError Instr :=
  let op := word.extractLsb' 28 4
  let imm := word.extractLsb' 0 8
  if word.extractLsb' 8 20 ≠ 0 then .error .reservedBits
  else if op = 1 then decodePlain imm .initbuffer
  else if op = 2 then decodePlain imm .clearbits
  else if op = 3 then decodePlain imm .loadbits
  else if op = 4 then decodeReadbits imm
  else if op = 5 then decodePlain imm .decode
  else if op = 6 then decodeXform imm
  else .error .reservedOp

/-- HDR: K in the first 2 stream bits, S in the next 16 (R91). The word holds the next 32 stream bits, the
first of them at bit 31 (00_scope.md R11). -/
def decodeHeader (word : Word) : Instr := .hdr (word.extractLsb' 30 2) (word.extractLsb' 14 16)

/-- The instruction RUN.c of a width code (R92). -/
def runOfCode (c : BitVec 3) (n : BitVec 7) : Instr :=
  if c = 0 then .runC0 n
  else if c = 1 then .runC1 n
  else if c = 2 then .runC2 n
  else if c = 3 then .runC3 n
  else if c = 4 then .runC4 n
  else if c = 5 then .runC5 n
  else if c = 6 then .runC6 n
  else .runC7 n

/-- A run-length field of 7 bits: 0 is END, after which no code is read; any other value begins a RUN with a
3-bit code (R92, R93, R96). -/
def decodeRunHead (word : Word) : Instr :=
  if word.extractLsb' 25 7 = 0 then .endRec
  else runOfCode (word.extractLsb' 22 3) (word.extractLsb' 25 7)

/-- A residual field: the first w stream bits, right-aligned; for w = 0 the field is absent (R94). -/
def decodeResidual (w : BitVec 6) (word : Word) : Except DecodeError Instr :=
  if w.toNat ≤ 32 then .ok (.sample w (word >>> (32 - w.toNat))) else .error .residualWidth

/-- The decoder. For the command slot the word is the command word; for a place in the stream it is the next
32 stream bits, the first at bit 31. Bits after the record are not looked at (R97, R98). -/
def decode (slot : Slot) (word : Word) : Except DecodeError Instr :=
  match slot with
  | .command => decodeCommand word
  | .header => .ok (decodeHeader word)
  | .runHead => .ok (decodeRunHead word)
  | .residual w => decodeResidual w word

/-- The slot in which an instruction stands (R96, R100). -/
def Instr.slot : Instr → Slot
  | .hdr _ _ => .header
  | .runC0 _ => .runHead
  | .runC1 _ => .runHead
  | .runC2 _ => .runHead
  | .runC3 _ => .runHead
  | .runC4 _ => .runHead
  | .runC5 _ => .runHead
  | .runC6 _ => .runHead
  | .runC7 _ => .runHead
  | .endRec => .runHead
  | .sample w _ => .residual w
  | .initbuffer => .command
  | .clearbits => .command
  | .loadbits => .command
  | .readbits _ => .command
  | .decode => .command
  | .xformF => .command
  | .xformR => .command

/-- How many bits the instruction has (R97, R100). -/
def Instr.bitLength : Instr → Nat
  | .hdr _ _ => 18
  | .runC0 _ => 10
  | .runC1 _ => 10
  | .runC2 _ => 10
  | .runC3 _ => 10
  | .runC4 _ => 10
  | .runC5 _ => 10
  | .runC6 _ => 10
  | .runC7 _ => 10
  | .endRec => 7
  | .sample w _ => w.toNat
  | .initbuffer => 32
  | .clearbits => 32
  | .loadbits => 32
  | .readbits _ => 32
  | .decode => 32
  | .xformF => 32
  | .xformR => 32

/-- The ten bits of a RUN record, first stream bit at bit 31, zeros after them (R92). -/
def encodeRun (c : BitVec 3) (n : BitVec 7) : Word := n ++ c ++ 0#22

/-- The encoder: a command word, or a record's bits from bit 31 down, zeros after them (R91 to R94, R101). -/
def encode : Instr → Word
  | .hdr k v => k ++ v ++ 0#14
  | .runC0 n => encodeRun 0 n
  | .runC1 n => encodeRun 1 n
  | .runC2 n => encodeRun 2 n
  | .runC3 n => encodeRun 3 n
  | .runC4 n => encodeRun 4 n
  | .runC5 n => encodeRun 5 n
  | .runC6 n => encodeRun 6 n
  | .runC7 n => encodeRun 7 n
  | .endRec => 0
  | .sample w f => f <<< (32 - w.toNat)
  | .initbuffer => 0x10000000
  | .clearbits => 0x20000000
  | .loadbits => 0x30000000
  | .readbits n => 0x1000000#26 ++ n
  | .decode => 0x50000000
  | .xformF => 0x60000000
  | .xformR => 0x60000001

/-- Byte j of a number whose first byte is its least significant one. -/
def tableByte (w j : Nat) : BitVec 8 := BitVec.ofNat 8 (w / 2 ^ (8 * j))

/-- The next 32 stream bits when the bytes of a table word stand in CODED in address order: the first byte in
the most significant place (20_memory.md R65). -/
def tableStreamWord (w : Nat) : Word := tableByte w 0 ++ tableByte w 1 ++ tableByte w 2 ++ tableByte w 3

/-- The slot of a table row, told by its length in whole bytes: SAMPLE has none, END has 7 bits and RUN.c 10,
HDR 18, a command word 32 (R97, R100). A row of no bits is the residual field of width 0. Log entry 17. -/
def tableSlot (nbits : Nat) : Slot :=
  if nbits = 0 then .residual 0
  else if nbits ≤ 16 then .runHead
  else if nbits ≤ 24 then .header
  else .command

/-- The 32-bit word the decoder is given for a table word in that slot. -/
def tableWord (nbits w : Nat) : Word :=
  if nbits ≤ 24 then tableStreamWord w else BitVec.ofNat 32 w

/-- The instruction the decoder reads from a word numbered as the opcode table numbers its bits. -/
def decodeTableWord (nbits w : Nat) : Option Instr :=
  match decode (tableSlot nbits) (tableWord nbits w) with
  | .ok i => some i
  | .error _ => none

end Sys2Proof
end

