-- ==== Sys2Proof/Machine/Fetch.lean ====
section
/-! DEFINITION. What a step does next: the stream record the decoder's state selects (30_encoding.md R96, 41_residual_decoder.md R140), the host's next move (43_host_commands.md R198), or the reset event (70_reset_and_hazards.md R240). -/

namespace Sys2Proof.Machine

/-- What a step finds to do: an instruction and the state it starts from, or something that is no instruction
of the table and its outcome. -/
inductive Fetched where
  | run (i : Instr) (s : State)
  | rest (o : Host.Outcome State Fault Refusal)

/-- The next 32 bits of the stream, the first at bit 31, as READBITS would deliver them; looking changes
nothing (20_memory.md R69; log entry 12). -/
def lookAhead (s : State) : Word := (readBits 32 s).1

/-- The stream record in a slot, decoded. -/
def fetchRecord (slot : Slot) (s : State) : Fetched :=
  match decode slot (lookAhead s) with
  | .ok i => .run i s
  | .error _ => .rest (.refused .recordOutOfPlace)

/-- While BUSY: DSTATE and RUNREM alone select what comes next (R140). -/
def busyTurn (s : State) : Fetched :=
  match s.dstate with
  | .idle => .rest (.refused .nothingSelected)
  | .readHeader => fetchRecord .header s
  | .decodeRuns => fetchRecord (if s.runrem = 0 then .runHead else .residual s.w) s
  | .done => .rest (closeDecode s)

/-- A word written to CMD: ignored in FAULT (R216); decoded otherwise, a reserved word being refused (R102,
R190, R192). The check of ST comes before the check of the word (R220). -/
def commandWord (v : Word) (s : State) : Fetched :=
  if s.st = .fault then .rest (.next s)
  else
    match decode .command v with
    | .ok i => .run i s
    | .error _ => .rest (.next (refuseCommand s))

/-- The host writes a byte of CODED or OUT: in IDLE only (R64, R198). -/
def depositByte (sp : HostSpace) (a : Word) (b : Byte) (s : State) : Host.Outcome State Fault Refusal :=
  if s.params.capacity sp.space ≤ a.toNat then .fault (.noSuchAddress sp.space)
  else if s.st = .fault then .refused .byteWriteInFault
  else .next (hostWriteByte s sp a.toNat b)

/-- The host reads a byte of CODED or OUT, in IDLE or FAULT (R64). -/
def collectByte (sp : HostSpace) (a : Word) (s : State) : Host.Outcome State Fault Refusal :=
  if s.params.capacity sp.space ≤ a.toNat then .fault (.noSuchAddress sp.space)
  else .next { s with hostRead := (byteAt s sp.space a.toNat).setWidth 32 }

/-- One move of the host in a state where it has a move (R43, R198). -/
def hostMove (m : HostMove) (s : State) : Fetched :=
  match m with
  | .writeReg reg v => if reg = 0 then commandWord v s else .rest (.next (writeRegister s reg v))
  | .readReg reg => .rest (.next { s with hostRead := readRegister s reg })
  | .writeByte sp a b => .rest (depositByte sp a b s)
  | .readByte sp a => .rest (collectByte sp a s)
  | .reset _ => .rest (.next (resetEvent s))

/-- IDLE or FAULT: the host's next move, if any; without one the instance "keeps all its state" (60_exceptions.md
R227; log entry 16). -/
def hostTurn (s : State) : Fetched :=
  match s.host with
  | [] => .rest (.next s)
  | m :: rest => hostMove m { s with host := rest }

/-- One turn of the block: while BUSY the host has no move and its list waits (R250). -/
def blockTurn (s : State) : Fetched := if s.st = .busy then busyTurn s else hostTurn s

/-- One turn while a reset is on its way: the block goes on with a running command, or stays idle. -/
def turnBeforeReset (s : State) : Fetched := if s.st = .busy then busyTurn s else .rest (.next s)

/-- What the next step does. The reset event comes in any state, once its delay has run out (R240; log entry 10). -/
def fetch (s : State) : Fetched :=
  match s.host with
  | .reset 0 :: rest => .rest (.next (resetEvent { s with host := rest }))
  | .reset (d + 1) :: rest => turnBeforeReset { s with host := .reset d :: rest }
  | _ => blockTurn s

/-- The move is the reset event. -/
def HostMove.isReset : HostMove → Bool
  | .reset _ => true
  | _ => false

/-- The state as the head of a stream record finds it: a DECODE running, the record's bits in the read window,
no reset event due. -/
def placeInStream (word : Word) (s : State) : State :=
  { s with
    st := .busy, cause := .none, win := word, nbits := 32
    host := s.host.dropWhile HostMove.isReset }

/-- The state in which the next step runs the instruction of that word in that slot (log entry 17). -/
def placeInSlot (slot : Slot) (word : Word) (s : State) : State :=
  match slot with
  | .command => { s with st := .idle, cause := .none, host := .writeReg 0 word :: s.host }
  | .header => { placeInStream word s with dstate := .readHeader }
  | .runHead => { placeInStream word s with dstate := .decodeRuns, runrem := 0 }
  | .residual k =>
    { placeInStream word s with dstate := .decodeRuns, w := k, runrem := if s.runrem = 0 then 1 else s.runrem }

end Sys2Proof.Machine
end

