-- ==== Sys2Proof/Machine/Step.lean ====
section
/-! DEFINITION. One step of the machine, and a word placed where the next step fetches. -/

namespace Sys2Proof.Machine

/-- One step: run the instruction that comes next, or do the host's move, the closing actions of DECODE or the
reset event that comes instead of one (R140, R191, R198, R240). -/
def step (s : State) : Host.Outcome State Fault Refusal :=
  match fetch s with
  | .run i t => exec i t
  | .rest o => o

/-- The state with a table word placed where step fetches its next instruction (log entry 17). -/
def State.withFetchWord (s : State) (nbits w : Nat) : State := placeInSlot (tableSlot nbits) (tableWord nbits w) s

end Sys2Proof.Machine
end

