-- ==== Sys2Proof/Safety.lean ====
section
/-! DEFINITION. The terms claims are stated in: a successful end, the invariants of 10_state.md R45 and R46, the stream as one bit sequence (40_bit_reader.md R125), and the decode as a function (41_residual_decoder.md R156). -/

namespace Sys2Proof.Safety

open Sys2Proof.Machine

/-- A command's successful end: "ST = IDLE and DONE = 1 afterwards" (60_exceptions.md R216, R254). -/
def successful (t : State) : Prop := t.st = .idle ∧ t.done = true

/-! The stream -/

/-- Z[q]: bit 7 - q mod 8 of CODED[q div 8] for q < 8 * PLEN, and 0 from there on (R125, R126). -/
def streamBit (m : Memory) (plen q : Nat) : Bool :=
  decide (q < 8 * plen) && (readByte .coded m (q / 8)).getLsbD (7 - q % 8)

/-- The n-bit number at Z[p .. p+n-1], the first bit most significant (R125; fld of R156). -/
def field (m : Memory) (plen p : Nat) : Nat → Nat
  | 0 => 0
  | n + 1 => 2 * field m plen p n + (streamBit m plen (p + n)).toNat

/-- Reads of the given widths, one after another: the values, and the state after. -/
def readEach : List Nat → State → List Nat × State
  | [], s => ([], s)
  | n :: rest, s =>
    let more := readEach rest (advance n s)
    ((readBits n s).1.toNat :: more.1, more.2)

/-- The reserved command words of R102, by OP, bits 27 to 8, and IMM. -/
def reservedWord (v : Word) : Prop :=
  let op := v.toNat / 2 ^ 28
  let imm := v.toNat % 2 ^ 8
  op = 0 ∨ 7 ≤ op
    ∨ v.toNat / 2 ^ 8 % 2 ^ 20 ≠ 0
    ∨ (op = 1 ∨ op = 2 ∨ op = 3 ∨ op = 5) ∧ imm ≠ 0
    ∨ op = 4 ∧ 64 ≤ imm
    ∨ op = 4 ∧ (imm % 64 = 0 ∨ 33 ≤ imm % 64)
    ∨ op = 6 ∧ 2 ≤ imm

/-! Invariants -/

/-- I1, I2 and I3 of R45. -/
def ReaderInRange (s : State) : Prop :=
  s.nbits.toNat ≤ 32 ∧ s.win.toNat < 2 ^ s.nbits.toNat
    ∧ s.boff.toNat % 4 = 0 ∧ s.plen.toNat % 4 = 0
    ∧ s.boff.toNat ≤ s.plen.toNat ∧ s.plen.toNat ≤ s.params.codedBytes

/-- I4 and I5 of R45 together with what both say of the window: it holds the NBITS stream bits from BITPOS on,
and the bits fetched end at 8 * BOFF, or beyond the buffer once BOFF has reached PLEN. -/
def ReaderInStep (s : State) : Prop :=
  s.win.toNat = field s.coded s.plen.toNat s.bitpos s.nbits.toNat
    ∧ (s.bitpos + s.nbits.toNat = 8 * s.boff.toNat
      ∨ s.boff = s.plen ∧ 8 * s.boff.toNat ≤ s.bitpos + s.nbits.toNat)

/-- STATUS: CAUSE is nonzero exactly when ST = FAULT (R39); while BUSY both flags are clear (R190); in FAULT both
are clear and nothing of OUT is claimed (R214, R215). -/
def StatusConsistent (s : State) : Prop :=
  (s.cause ≠ .none ↔ s.st = .fault)
    ∧ (s.st ≠ .idle → s.done = false ∧ s.cmderr = false)
    ∧ (s.st = .fault → s.cnt = 0 ∧ s.alloc = 0)

/-- The header registers are legal: SKIP 1 to 4, STRIP 1 to 65536 (R27, R28, U11). -/
def HeaderInRange (s : State) : Prop :=
  1 ≤ s.skip.toNat ∧ s.skip.toNat ≤ 4 ∧ 1 ≤ s.strip.toNat ∧ s.strip.toNat ≤ 65536

/-- A decode is between two micro-operations (R46) or at its closing actions. -/
def decoding (s : State) : Prop := s.st = .busy ∧ (s.dstate = .decodeRuns ∨ s.dstate = .done)

/-- The decoder invariants of R46 while a decode runs: the width of a run, the claim, the samples produced so
far all written, and ACT the last of them. In D_DECODERUNS the claim is the smallest multiple of 2^20 that is at
least CNT (R33); in D_DONE it is CNT (R144). -/
def DecoderConsistent (s : State) : Prop :=
  decoding s →
    (s.runrem ≠ 0 → s.w.toNat = s.params.width s.wcode)
    ∧ s.cnt.toNat ≤ s.params.outBytes
    ∧ (s.dstate = .decodeRuns → s.alloc.toNat = Config.block * ((s.cnt.toNat + Config.block - 1) / Config.block))
    ∧ (s.dstate = .done → s.alloc = s.cnt ∧ s.runrem = 0)
    ∧ (∀ a, a < s.cnt.toNat → (cellAt s.out.cells a).isSome = true)
    ∧ s.act = (if s.cnt.toNat = 0 then 0 else byteAt s .out (s.cnt.toNat - 1))

/-- Every listed cell lies inside the capacity (R60, R79). -/
def CellsBelow (cap : Nat) (m : Memory) : Prop := ∀ c ∈ m.cells, c.1 < cap

/-- The three memories are in canonical form and inside their capacities. -/
def MemoriesCanonical (s : State) : Prop :=
  (memoryWf s.coded = true ∧ memoryWf s.out = true ∧ memoryWf s.tmp = true)
    ∧ CellsBelow s.params.codedBytes s.coded ∧ CellsBelow s.params.outBytes s.out
    ∧ CellsBelow s.params.tmpBytes s.tmp

/-- The host's next move is no reset, due or on its way. -/
def noResetPending (s : State) : Prop := ∀ m ∈ s.host.head?, m.isReset = false

/-- The host's next move is no reset that is due now. -/
def noResetDue (s : State) : Prop := s.host.head? ≠ some (.reset 0)

/-- What is defined after a fault of cause c taken from s: fault entry (R214) and the defined part of the faulted
state (R215); the instance's parameters and the host's side are as before. -/
def FaultFrom (c : Cause) (s t : State) : Prop :=
  t.st = .fault ∧ t.cause = c ∧ t.done = false ∧ t.cmderr = false ∧ t.cnt = 0 ∧ t.alloc = 0
    ∧ t.dstate = s.dstate ∧ t.a0 = s.a0 ∧ t.a1 = s.a1 ∧ t.a2 = s.a2
    ∧ (∀ a, a < s.a0.toNat → byteAt t .coded a = byteAt s .coded a)
    ∧ t.params = s.params ∧ t.host = s.host ∧ t.hostRead = s.hostRead

/-- All of it. The reader and the header registers hold no usable value in FAULT (R215), so nothing is said of
them there. ST = BUSY only inside a DECODE, whose decoder has left D_IDLE, and between commands the decoder is
in D_IDLE or D_DONE (R155, R195). -/
def Invariant (s : State) : Prop :=
  StatusConsistent s ∧ MemoriesCanonical s
    ∧ (s.st ≠ .fault → ReaderInRange s ∧ HeaderInRange s)
    ∧ (s.st = .busy → ReaderInStep s ∧ s.dstate ≠ .idle)
    ∧ (s.st = .idle → s.dstate = .idle ∨ s.dstate = .done)
    ∧ DecoderConsistent s

/-! The decode as a function of the stream (R156) -/

/-- One sample from those before it and its field. -/
def specSample (p : Params) (strip w f : Nat) (out : List Byte) : Byte :=
  let i := out.length
  let pred : Int :=
    if strip = 1 ∨ i ≤ strip then 0
    else ((out.getD (i - strip) 0).toNat : Int) - ((out.getD (i - strip - 1) 0).toNat : Int)
  let r : Int := if w = 0 then 0 else (f : Int) - (2 : Int) ^ (w - 1)
  let base : Int := if p.accum then ((out.getLastD 0).toNat : Int) else 0
  BitVec.ofNat 8 ((base + pred + r) % 256).toNat

/-- The samples of a run, its fields standing at p, p + w, p + 2w, ... -/
def specRun (params : Params) (m : Memory) (plen strip w : Nat) : Nat → Nat → List Byte → List Byte
  | 0, _, out => out
  | n + 1, p, out =>
    specRun params m plen strip w n (p + w) (out ++ [specSample params strip w (field m plen p w) out])

/-- The runs from position p on, until a run length of 0. The first number bounds how many are looked at. -/
def specRuns (params : Params) (m : Memory) (plen strip : Nat) : Nat → Nat → List Byte → List Byte
  | 0, _, out => out
  | more + 1, p, out =>
    let n := field m plen p 7
    let w := params.width (BitVec.ofNat 3 (field m plen (p + 7) 3))
    if n = 0 then out
    else specRuns params m plen strip more (p + 10 + n * w) (specRun params m plen strip w n (p + 10) out)

/-- skip = fld(0, 2) + 1. -/
def specSkip (m : Memory) (plen : Nat) : Nat := field m plen 0 2 + 1

/-- strip = fld(2, 16) + 1. -/
def specStrip (m : Memory) (plen : Nat) : Nat := field m plen 2 16 + 1

/-- The samples of a chunk in coded order. A decode reads at most (8 * PLEN) div 10 + 1 RUN records (R152), so
that many and one more to see the END are enough. -/
def specSamples (params : Params) (m : Memory) (plen : Nat) : List Byte :=
  specRuns params m plen (specStrip m plen) (8 * plen / 10 + 2) 18 []

end Sys2Proof.Safety
end

