-- ==== Sys2Proof/Certificates/Slice0/Obligations.lean ====
section
/-! DEFINITION. The statements for the provers, each with the rule of the spec it formalises. -/

open Sys2Proof Sys2Proof.Machine Sys2Proof.Safety

/-! Reset -/

/-- 10_state.md section 7 (reset values): every register the spec gives a reset value has it; STATUS reads 0. -/
def Obligations.ResetRegistersHoldTheSpecsValues : Prop :=
  State.reset.win = 0 ∧ State.reset.nbits = 0 ∧ State.reset.boff = 0 ∧ State.reset.plen = 0
    ∧ State.reset.bitpos = 0 ∧ State.reset.dstate = .idle ∧ State.reset.cnt = 0 ∧ State.reset.alloc = 0
    ∧ State.reset.act = 0 ∧ State.reset.runrem = 0 ∧ statusWord State.reset = 0 ∧ State.reset.rv = 0
    ∧ State.reset.a0 = 0 ∧ State.reset.a1 = 0 ∧ State.reset.a2 = 0

/-- The invariants of R45 and R46 "are true after reset". The clauses about SKIP and STRIP rest on the model's
reset values of log entry 2. -/
def Obligations.ResetMeetsTheInvariant : Prop := Invariant State.reset

/-- R240: the reset event, due now, in any state: every register at its reset value, nothing listed in the
memories, the parameters and the host's side kept. SKIP, STRIP, WCODE and W take the values of log entries 2, 3. -/
def Obligations.ResetEventWorksInEveryState : Prop :=
  ∀ (s : State) (rest : List HostMove), s.host = .reset 0 :: rest →
    ∃ t, step s = .next t ∧ t.coded.cells = [] ∧ t.out.cells = [] ∧ t.tmp.cells = []
      ∧ t = { State.reset with
                params := s.params, host := rest, hostRead := s.hostRead
                coded := t.coded, out := t.out, tmp := t.tmp, fresh := t.fresh }

/-! Steps and decoding -/

/-- While BUSY, a record selected by DSTATE and RUNREM (R96, R140) whose bits decode to i: step is exec of i. A
reset on its way counts down beside it. -/
def Obligations.StepRunsTheSelectedRecord : Prop :=
  ∀ (s : State) (slot : Slot) (i : Instr), s.st = .busy →
    (s.dstate = .readHeader ∧ slot = .header
      ∨ s.dstate = .decodeRuns ∧ s.runrem = 0 ∧ slot = .runHead
      ∨ s.dstate = .decodeRuns ∧ s.runrem ≠ 0 ∧ slot = .residual s.w) →
    decode slot (lookAhead s) = .ok i →
    (noResetPending s → step s = exec i s)
      ∧ (∀ d rest, s.host = .reset (d + 1) :: rest → step s = exec i { s with host := .reset d :: rest })

/-- In IDLE, a command word the host writes to CMD (R190) that decodes to i: step is exec of i, the move taken
off the host's list. -/
def Obligations.StepRunsTheSubmittedCommand : Prop :=
  ∀ (s : State) (v : Word) (rest : List HostMove) (i : Instr), s.st = .idle → s.host = .writeReg 0 v :: rest →
    decode .command v = .ok i → step s = exec i { s with host := rest }

/-- The bits of 30_encoding.md R101 and R106, written out, decode to the instructions they stand for. -/
def Obligations.SpecWordsDecode : Prop :=
  decode .header 0b01000000000000000100000000000000#32 = .ok (.hdr 1 1)
    ∧ decode .runHead 0b00001100110000000000000000000000#32 = .ok (.runC3 6)
    ∧ decode .runHead 0b00000001110000000000000000000000#32 = .ok .endRec
    ∧ decode (.residual 4) 0b10011010101111001101111000000000#32 = .ok (.sample 4 9)
    ∧ decode .command 0x40000020#32 = .ok (.readbits 32)
    ∧ decode .command 0x60000001#32 = .ok .xformR
    ∧ decode .command 0x40000021#32 = .error .readWidth

/-- Decoding the encoding of any well-formed instruction gives it back, whatever bits follow it in the stream
(R97: they "are not read"). -/
def Obligations.DecodeOfEncodeIsTheInstruction : Prop :=
  ∀ (i : Instr) (tail : Word), i.wf = true → tail.toNat < 2 ^ (32 - i.bitLength) →
    decode i.slot (encode i ||| tail) = .ok i

/-- What decodes is well-formed, stands in the slot it was read from, and its encoding is the word but for the
bits after it. -/
def Obligations.EncodeOfDecodeIsTheWord : Prop :=
  ∀ (slot : Slot) (v : Word) (i : Instr), decode slot v = .ok i →
    i.wf = true ∧ i.slot = slot ∧ (encode i).toNat / 2 ^ (32 - i.bitLength) = v.toNat / 2 ^ (32 - i.bitLength)

/-- R99: "Every value of K, S, N and C has a meaning": every word decodes in the header and run-head slots, and
in a residual slot of a legal width. R102: a command word decodes exactly when it is not reserved. -/
def Obligations.OnlyReservedCommandWordsAreIllegal : Prop :=
  (∀ v : Word, (∃ i, decode .header v = .ok i) ∧ (∃ i, decode .runHead v = .ok i)
      ∧ ∀ w : BitVec 6, w.toNat ≤ 32 → ∃ i, decode (.residual w) v = .ok i)
    ∧ ∀ v : Word, (∃ i, decode .command v = .ok i) ↔ ¬ reservedWord v

/-! The Bit Reader -/

/-- R121: the word 0x10000000; WIN <- 0, NBITS <- 0, BITPOS <- 8 * BOFF, DONE, nothing else. -/
def Obligations.InitbufferEffect : Prop :=
  decode .command 0x10000000#32 = .ok .initbuffer
    ∧ ∀ s : State, s.st = .idle →
      exec .initbuffer s =
        .next { s with win := 0, nbits := 0, bitpos := 8 * s.boff.toNat, done := true, cmderr := false }

/-- R122: the word 0x20000000; BOFF <- 0, PLEN <- 0, BITPOS <- 0, DONE, nothing else. -/
def Obligations.ClearbitsEffect : Prop :=
  decode .command 0x20000000#32 = .ok .clearbits
    ∧ ∀ s : State, s.st = .idle →
      exec .clearbits s = .next { s with boff := 0, plen := 0, bitpos := 0, done := true, cmderr := false }

/-- R123, the word 0x30000000: with a clear reader and room, the pad bytes are zeroed and PLEN set, no other byte and no other
register changes; without room the fault E_RESOURCE_CODED. That an unclear reader gives a refusal with CMDERR is the
model's choice (log entry 11): the spec calls the behaviour unspecified (R123, U3). -/
def Obligations.LoadbitsEffect : Prop :=
  decode .command 0x30000000#32 = .ok .loadbits ∧ ∀ s : State, s.st = .idle →
    let n := s.a0.toNat
    let p := 4 * ((n + 3) / 4)
    let clear := s.win = 0 ∧ s.nbits = 0 ∧ s.boff = 0
    (clear → p ≤ s.params.codedBytes →
      ∃ m : Memory,
        exec .loadbits s =
            .next { s with coded := m, plen := BitVec.ofNat 32 p, done := true, cmderr := false }
          ∧ ∀ a, readByte .coded m a = if n ≤ a ∧ a < p then 0 else readByte .coded s.coded a)
    ∧ (clear → s.params.codedBytes < p → ∃ t, exec .loadbits s = .next t ∧ FaultFrom .resourceCoded s t)
    ∧ (¬ clear → exec .loadbits s = .next { s with done := false, cmderr := true })

/-- READBITS n as a command: the reader moves by READBITS(n), RV takes the value, DONE, nothing else; a width
outside 1 to 32 is refused (R102). -/
def Obligations.ReadbitsEffect : Prop :=
  ∀ (s : State) (n : BitVec 6), s.st = .idle → ReaderInRange s →
    (1 ≤ n.toNat ∧ n.toNat ≤ 32 →
      exec (.readbits n) s =
        .next { advance n.toNat s with rv := (readBits n.toNat s).1, done := true, cmderr := false })
    ∧ (n.toNat = 0 ∨ 33 ≤ n.toNat → exec (.readbits n) s = .next { s with done := false, cmderr := true })

/-- R125: a read returns the n bits of Z from BITPOS on, the first most significant, right-aligned. The premises
are the reader's invariants, which preparation establishes and reads keep. -/
def Obligations.ReadReturnsTheStreamBits : Prop :=
  ∀ (s : State) (n : Nat), 1 ≤ n → n ≤ 32 → ReaderInRange s → ReaderInStep s →
    (readBits n s).1.toNat = field s.coded s.plen.toNat s.bitpos n

/-- A read keeps the reader's invariants (R45), moves BITPOS by n (R25), and changes WIN, NBITS, BOFF and BITPOS
only. NBITS and BOFF after it are those of R124's two branches: it refills exactly when n is at least NBITS, so at
n = NBITS at once (R127 (b), U16), and BOFF grows by 4 exactly at a refill inside the buffer (R23). -/
def Obligations.ReadKeepsTheReaderInvariants : Prop :=
  ∀ (s : State) (n : Nat), 1 ≤ n → n ≤ 32 → ReaderInRange s →
    ReaderInRange (advance n s)
      ∧ (ReaderInStep s → ReaderInStep (advance n s))
      ∧ (advance n s).bitpos = s.bitpos + n
      ∧ (advance n s).nbits.toNat = (if n < s.nbits.toNat then s.nbits.toNat - n else s.nbits.toNat + 32 - n)
      ∧ (advance n s).boff.toNat =
          (if s.nbits.toNat ≤ n ∧ s.boff.toNat < s.plen.toNat then s.boff.toNat + 4 else s.boff.toNat)
      ∧ advance n s =
          { s with
            win := (advance n s).win, nbits := (advance n s).nbits
            boff := (advance n s).boff, bitpos := s.bitpos + n }

/-- R126: the bits of a read at or beyond stream bit 8 * PLEN are zero, a read wholly beyond delivers 0, and a read
that reaches past bit 8 * PLEN - 1 makes no access to CODED: neither its value nor the reader it leaves depends on
what CODED holds. -/
def Obligations.ReadsBeyondTheBufferAreZero : Prop :=
  ∀ (s : State) (n : Nat), 1 ≤ n → n ≤ 32 → ReaderInRange s → ReaderInStep s →
    (∀ k, k < n → 8 * s.plen.toNat ≤ s.bitpos + k → (readBits n s).1.getLsbD (n - 1 - k) = false)
      ∧ (8 * s.plen.toNat ≤ s.bitpos → (readBits n s).1 = 0)
      ∧ (8 * s.plen.toNat < s.bitpos + n →
          ∀ m : Memory, readBits n { s with coded := m } = ((readBits n s).1, { advance n s with coded := m }))

/-- R129: 8-bit reads from a byte boundary "yield the original bytes in order, MSB-first". -/
def Obligations.EightBitReadsYieldTheBytes : Prop :=
  ∀ (s : State) (k count : Nat), ReaderInRange s → ReaderInStep s → s.bitpos = 8 * k →
    k + count ≤ s.plen.toNat →
    (readEach (List.replicate count 8) s).1 = (readBytes .coded s.coded k count).map BitVec.toNat

/-- After INITBUFFER in mid-stream the next read starts at stream bit 8 * BOFF: the prefetched bits are gone. -/
def Obligations.InitbufferDropsThePrefetch : Prop :=
  ∀ (s : State) (n : Nat), s.st = .idle → 1 ≤ n → n ≤ 32 → ReaderInRange s →
    ∃ t, exec .initbuffer s = .next t ∧ t.bitpos = 8 * s.boff.toNat
      ∧ (readBits n t).1.toNat = field s.coded s.plen.toNat (8 * s.boff.toNat) n

/-- INITBUFFER and CLEARBITS in either order and then LOADBITS, from any idle state whose chunk fits, leave WIN,
NBITS, BOFF and BITPOS 0, PLEN = ceil4(A0) and a reader in step with the stream. -/
def Obligations.PreparationClearsTheReader : Prop :=
  ∀ s : State, s.st = .idle → ceil4 s.a0.toNat ≤ s.params.codedBytes →
    ∀ first second : Instr, (first, second) ∈ [(Instr.initbuffer, Instr.clearbits), (.clearbits, .initbuffer)] →
    ∃ t u v, exec first s = .next t ∧ exec second t = .next u ∧ exec .loadbits u = .next v
      ∧ v.win = 0 ∧ v.nbits = 0 ∧ v.boff = 0 ∧ v.bitpos = 0 ∧ v.plen.toNat = ceil4 s.a0.toNat
      ∧ ReaderInRange v ∧ ReaderInStep v

/-! The Residual Decoder -/

/-- HDR with operands K and S: SKIP, STRIP, the cleared registers and DSTATE; the reader moves by its two fields;
nothing else changes, no flag, no memory byte. -/
def Obligations.HdrEffect : Prop :=
  ∀ (s : State) (k : BitVec 2) (v : BitVec 16), s.st = .busy → s.dstate = .readHeader → ReaderInRange s →
    exec (.hdr k v) s =
      .next
        { advance 16 (advance 2 s) with
          skip := BitVec.ofNat 3 (k.toNat + 1), strip := BitVec.ofNat 17 (v.toNat + 1)
          cnt := 0, alloc := 0, act := 0, runrem := 0, dstate := .decodeRuns }

/-- R141: in D_READHEADER a step reads the header: SKIP <- READBITS(2) + 1, STRIP <- READBITS(16) + 1, exactly,
then the cleared registers; BITPOS advances by 18. -/
def Obligations.StepReadsTheHeader : Prop :=
  ∀ s : State, s.st = .busy → s.dstate = .readHeader → ReaderInRange s → noResetPending s →
    ∃ t, step s = .next t
      ∧ t.skip.toNat = (readBits 2 s).1.toNat + 1
      ∧ t.strip.toNat = (readBits 16 (advance 2 s)).1.toNat + 1
      ∧ t.bitpos = s.bitpos + 18
      ∧ t = { advance 16 (advance 2 s) with
                skip := t.skip, strip := t.strip
                cnt := 0, alloc := 0, act := 0, runrem := 0, dstate := .decodeRuns }

/-- RUN.c0 to RUN.c7 with operand N: WCODE, W = WTAB[c], RUNREM = N; the reader moves by 7 and 3 bits; nothing
else changes. -/
def Obligations.RunEffect : Prop :=
  ∀ (s : State) (n : BitVec 7) (i : Instr) (c : BitVec 3),
    (i, c) ∈ [(Instr.runC0 n, 0#3), (.runC1 n, 1#3), (.runC2 n, 2#3), (.runC3 n, 3#3),
              (.runC4 n, 4#3), (.runC5 n, 5#3), (.runC6 n, 6#3), (.runC7 n, 7#3)] →
    s.st = .busy → s.dstate = .decodeRuns → s.runrem = 0 → n ≠ 0 → ReaderInRange s →
    exec i s =
      .next
        { advance 3 (advance 7 s) with
          wcode := c, w := BitVec.ofNat 6 (s.params.wtab.get c.toFin).val, runrem := n }

/-- END: ALLOC <- CNT, DSTATE <- D_DONE; the reader moves by 7 bits; nothing else changes. -/
def Obligations.EndEffect : Prop :=
  ∀ s : State, s.st = .busy → s.dstate = .decodeRuns → s.runrem = 0 → ReaderInRange s →
    exec .endRec s = .next { advance 7 s with alloc := s.cnt, dstate := .done }

/-- R142 to R144: at a run-length field N <- READBITS(7); N = 0 is END, any other N begins a RUN whose code is
READBITS(3). -/
def Obligations.StepReadsTheRunHead : Prop :=
  ∀ s : State, s.st = .busy → s.dstate = .decodeRuns → s.runrem = 0 → ReaderInRange s → noResetPending s →
    let n := (readBits 7 s).1
    let c := (readBits 3 (advance 7 s)).1.setWidth 3
    (n = 0 → step s = .next { advance 7 s with alloc := s.cnt, dstate := .done })
      ∧ (n ≠ 0 → n.toNat ≤ 127 ∧
          step s =
            .next
              { advance 3 (advance 7 s) with
                wcode := c, w := BitVec.ofNat 6 (s.params.wtab.get c.toFin).val, runrem := n.setWidth 7 })

/-- R145 to R149: SAMPLE with field F of W bits. With room: the new sample is (base + pred + r) mod 256 of exact
integers, written at OUT[CNT] and into ACT, and no other byte or register but those named changes. At a multiple
of 2^20 whose block does not fit: the fault E_RESOURCE_OUT. -/
def Obligations.SampleEffect : Prop :=
  ∀ (s : State) (w : BitVec 6) (f : Word), s.st = .busy → s.dstate = .decodeRuns → s.runrem ≠ 0 → s.w = w →
    w.toNat ≤ 32 → ReaderInRange s → s.cmderr = false →
    let i := s.cnt.toNat
    let strip := s.strip.toNat
    let base : Int := if s.params.accum then (s.act.toNat : Int) else 0
    let pred : Int :=
      if strip = 1 ∨ i ≤ strip then 0
      else ((byteAt s .out (i - strip)).toNat : Int) - ((byteAt s .out (i - strip - 1)).toNat : Int)
    let r : Int := if w = 0 then 0 else (f.toNat : Int) - (2 : Int) ^ (w.toNat - 1)
    (i < s.params.outBytes →
      ∃ (t : State) (v : Byte), exec (.sample w f) s = .next t
        ∧ (v.toNat : Int) = (base + pred + r) % 256
        ∧ (∀ a, byteAt t .out a = if a = i then v else byteAt s .out a)
        ∧ t = { (if w = 0 then s else advance w.toNat s) with
                  out := t.out, act := v, cnt := s.cnt + 1, runrem := s.runrem - 1
                  alloc := if i % 2 ^ 20 = 0 then BitVec.ofNat 32 (i + 2 ^ 20) else s.alloc })
    ∧ (i % 2 ^ 20 = 0 → s.params.outBytes < i + 2 ^ 20 →
        ∃ t, exec (.sample w f) s = .next t ∧ FaultFrom .resourceOut s t)

/-- R147, where the field comes from: with RUNREM > 0 a step runs SAMPLE on F <- READBITS(W), and on no field at
all when W = 0. -/
def Obligations.StepReadsTheResidualField : Prop :=
  ∀ s : State, s.st = .busy → s.dstate = .decodeRuns → s.runrem ≠ 0 → s.w.toNat ≤ 32 → ReaderInRange s →
    noResetPending s →
    step s = exec (.sample s.w (if s.w = 0 then 0 else (readBits s.w.toNat s).1)) s

/-- R154: with STRIP = 1 a residual field equal to the bias gives the constant initial prediction value 0, for
both values of P_ACCUM, as long as the samples so far were 0. -/
def Obligations.ZeroResidualsGiveZeroSamples : Prop :=
  ∀ (s : State) (w : BitVec 6), s.st = .busy → s.dstate = .decodeRuns → s.runrem ≠ 0 → s.w = w →
    1 ≤ w.toNat → w.toNat ≤ 32 → ReaderInRange s → s.cnt.toNat < s.params.outBytes →
    s.strip = 1 → s.act = 0 →
    ∃ t, exec (.sample w (BitVec.ofNat 32 (2 ^ (w.toNat - 1)))) s = .next t
      ∧ byteAt t .out s.cnt.toNat = 0 ∧ t.act = 0 ∧ t.strip = 1 ∧ t.cnt = s.cnt + 1

/-- The record a step fetches has the stream's bits for operands: K and S at BITPOS and BITPOS + 2 (R91); N and
C at BITPOS and BITPOS + 7, or END when N is 0 (R92, R93); F of W bits at BITPOS (R94). -/
def Obligations.FetchedFieldsAreTheStreamBits : Prop :=
  ∀ s : State, s.st = .busy → ReaderInRange s → ReaderInStep s → noResetPending s →
    let fld := fun q n => field s.coded s.plen.toNat (s.bitpos + q) n
    (s.dstate = .readHeader →
      fetch s = .run (.hdr (BitVec.ofNat 2 (fld 0 2)) (BitVec.ofNat 16 (fld 2 16))) s)
    ∧ (s.dstate = .decodeRuns → s.runrem = 0 → fld 0 7 = 0 → fetch s = .run .endRec s)
    ∧ (s.dstate = .decodeRuns → s.runrem = 0 → fld 0 7 ≠ 0 →
        fetch s = .run (runOfCode (BitVec.ofNat 3 (fld 7 3)) (BitVec.ofNat 7 (fld 0 7))) s)
    ∧ (s.dstate = .decodeRuns → s.runrem ≠ 0 → s.w.toNat ≤ 32 →
        fetch s = .run (.sample s.w (BitVec.ofNat 32 (fld 0 s.w.toNat))) s)

/-- A record or SAMPLE executed where DSTATE and RUNREM do not select it stops by name (R140; log entry 13). -/
def Obligations.RecordsRunOnlyWhereSelected : Prop :=
  ∀ s : State,
    (¬ (s.st = .busy ∧ s.dstate = .readHeader) →
      ∀ k v, exec (.hdr k v) s = .refused .recordOutOfPlace)
    ∧ (¬ (s.st = .busy ∧ s.dstate = .decodeRuns ∧ s.runrem = 0) →
        exec .endRec s = .refused .recordOutOfPlace
          ∧ ∀ n c, exec (runOfCode c n) s = .refused .recordOutOfPlace)
    ∧ ∀ w f, ¬ (s.st = .busy ∧ s.dstate = .decodeRuns ∧ s.runrem ≠ 0 ∧ s.w = w ∧ w.toNat ≤ 32) →
        exec (.sample w f) s = .refused .recordOutOfPlace

/-! The Interleave Transform -/

/-- R172: lane i has ceil((len - i) / s) bytes, none from i = len on; the lanes' lengths before it sum to its
start, and all of them sum to len. -/
def Obligations.LaneGeometry : Prop :=
  ∀ len lanes : Nat, 2 ≤ lanes →
    (∀ i, i < lanes →
      laneLength len lanes i = (if len ≤ i then 0 else (len - i + lanes - 1) / lanes)
        ∧ laneStart len lanes i = ((List.range i).map (laneLength len lanes)).sum)
    ∧ ((List.range lanes).map (laneLength len lanes)).sum = len

/-- R173: fwd_s puts the byte at i + m * s at S_i + m, rst_s puts it back, and each undoes the other. -/
def Obligations.LanesAreGatheredAndScattered : Prop :=
  ∀ (lanes : Nat) (x : List Byte), 2 ≤ lanes →
    (gather lanes x).length = x.length ∧ (scatter lanes x).length = x.length
    ∧ (∀ i m, i < lanes → m < laneLength x.length lanes i →
        laneStart x.length lanes i + m < x.length ∧ i + m * lanes < x.length
        ∧ (gather lanes x)[laneStart x.length lanes i + m]? = x[i + m * lanes]?
        ∧ (scatter lanes x)[i + m * lanes]? = x[laneStart x.length lanes i + m]?)
    ∧ (∀ j, j < x.length → (gather lanes x)[laneStart x.length lanes (j % lanes) + j / lanes]? = x[j]?)
    ∧ scatter lanes (gather lanes x) = x ∧ gather lanes (scatter lanes x) = x

/-- R179: forward then restore is the identity, in the other order too, for every lane count, window and length;
with one lane the transform is a no-op. -/
def Obligations.TransformRoundTrip : Prop :=
  ∀ (lanes window : Nat) (x : List Byte) (restore : Bool),
    transformBytes (!restore) lanes window (transformBytes restore lanes window x) = x
      ∧ transformBytes restore 1 window x = x

/-- The transform "never changes a byte's value, only its place" (42_interleave_transform.md section 1). -/
def Obligations.TransformPermutes : Prop :=
  ∀ (restore : Bool) (lanes window : Nat) (x : List Byte),
    (transformBytes restore lanes window x).Perm x

/-- The transform as R175 and R177 give it: for two lanes or more the unbounded mode is fwd_s or rst_s by the
direction, and the bounded mode maps the first whole window by itself and goes on with the rest. Then the corner
cases of 42_interleave_transform.md: at most one lane, at most one byte a lane, and a window of one sample a lane
are the identity; a window no smaller than the buffer is the unbounded mode. -/
def Obligations.TransformCornerCases : Prop :=
  ∀ (restore : Bool) (lanes window : Nat) (x : List Byte),
    (2 ≤ lanes →
      transformBytes false lanes 0 x = gather lanes x ∧ transformBytes true lanes 0 x = scatter lanes x
        ∧ (0 < window → lanes * window ≤ x.length →
            transformBytes restore lanes window x =
              transformBytes restore lanes 0 (x.take (lanes * window))
                ++ transformBytes restore lanes window (x.drop (lanes * window))))
    ∧ (lanes ≤ 1 → transformBytes restore lanes window x = x)
    ∧ (x.length ≤ lanes → transformBytes restore lanes 0 x = x)
    ∧ transformBytes restore lanes 1 x = x
    ∧ (x.length ≤ lanes * window → transformBytes restore lanes window x = transformBytes restore lanes 0 x)

/-- R171, R176, R177: XFORM.F and XFORM.R on OUT[0 .. A0-1] with A1 lanes and the window A2: the transform of
those bytes and no other byte, TMP left unspecified; the refusal; the fault E_RESOURCE_TMP; their two words. -/
def Obligations.XformEffect : Prop :=
  (decode .command 0x60000000#32 = .ok .xformF ∧ decode .command 0x60000001#32 = .ok .xformR)
    ∧ ∀ (s : State) (i : Instr) (restore : Bool),
    (i, restore) ∈ [(Instr.xformF, false), (.xformR, true)] → s.st = .idle →
    let n := s.a0.toNat
    let lanes := s.a1.toNat
    let window := s.a2.toNat
    let need := if lanes ≤ 1 then 0 else if window = 0 then n else min n (lanes * window)
    (2 ≤ lanes ∧ s.params.outBytes < n → exec i s = .next { s with done := false, cmderr := true })
    ∧ (¬ (2 ≤ lanes ∧ s.params.outBytes < n) → s.params.tmpBytes < need →
        ∃ t, exec i s = .next t ∧ FaultFrom .resourceTmp s t)
    ∧ (¬ (2 ≤ lanes ∧ s.params.outBytes < n) → need ≤ s.params.tmpBytes →
        ∃ t, exec i s = .next t
          ∧ readBytes .out t.out 0 n = transformBytes restore lanes window (readBytes .out s.out 0 n)
          ∧ (∀ a, n ≤ a ∨ lanes ≤ 1 → byteAt t .out a = byteAt s .out a)
          ∧ t = { s with out := t.out, tmp := t.tmp, fresh := t.fresh, done := true, cmderr := false })

/-! DECODE -/

/-- DECODE's submission: the reader cleared and attached to CODED[0 .. A0-1] with its padding zeroed, DSTATE =
D_READHEADER, ST = BUSY; a chunk that does not fit faults and leaves DSTATE (R155). The records are later steps
(log entry 9). -/
def Obligations.DecodeStarts : Prop :=
  ∀ s : State, s.st = .idle →
    let n := s.a0.toNat
    let p := 4 * ((n + 3) / 4)
    (p ≤ s.params.codedBytes →
      ∃ m : Memory,
        exec .decode s =
            .next
              { s with
                win := 0, nbits := 0, boff := 0, bitpos := 0, coded := m, plen := BitVec.ofNat 32 p
                dstate := .readHeader, st := .busy, done := false, cmderr := false }
          ∧ ∀ a, readByte .coded m a = if n ≤ a ∧ a < p then 0 else readByte .coded s.coded a)
    ∧ (s.params.codedBytes < p → ∃ t, exec .decode s = .next t ∧ FaultFrom .resourceCoded s t)

/-- R150: in D_DONE a step performs the restore transform on OUT[0 .. CNT-1] with SKIP lanes and the window A1
and completes, or faults for want of TMP. OUT from CNT up and TMP are left unspecified. -/
def Obligations.ClosingRestoresTheOutput : Prop :=
  ∀ s : State, s.st = .busy → s.dstate = .done → noResetPending s → s.cmderr = false →
    s.cnt.toNat ≤ s.params.outBytes →
    let n := s.cnt.toNat
    let lanes := s.skip.toNat
    let window := s.a1.toNat
    let need := if lanes ≤ 1 then 0 else if window = 0 then n else min n (lanes * window)
    (need ≤ s.params.tmpBytes →
      ∃ t, step s = .next t ∧ successful t
        ∧ readBytes .out t.out 0 n = transformBytes true lanes window (readBytes .out s.out 0 n)
        ∧ t = { s with out := t.out, tmp := t.tmp, fresh := t.fresh, st := .idle, done := true })
    ∧ (s.params.tmpBytes < need → ∃ t, step s = .next t ∧ FaultFrom .resourceTmp s t)

/-- R156 with R195 and R196: a submitted DECODE whose chunk fits CODED ends with the samples the stream's bits
define, restored, in OUT[0 .. CNT-1], CNT their number, SKIP and STRIP the header's, when the samples fit OUT and
the transform's need fits TMP; otherwise it ends in the fault of the resource that was missing first (R220). -/
def Obligations.DecodeIsTheFunctionOfTheStream : Prop :=
  ∀ s : State, s.st = .idle → s.host = [.writeReg 0 0x50000000] → ceil4 s.a0.toNat ≤ s.params.codedBytes →
    let m := (loadBits s.a0.toNat s).coded
    let plen := ceil4 s.a0.toNat
    let samples := specSamples s.params m plen
    let skip := specSkip m plen
    ∃ k t, Host.Core.run Sys2Proof.core k s = .next t
      ∧ (samples.length ≤ s.params.outBytes → tmpNeed samples.length skip s.a1.toNat ≤ s.params.tmpBytes →
          successful t ∧ t.cmderr = false ∧ t.dstate = .done
            ∧ t.cnt.toNat = samples.length ∧ t.alloc = t.cnt ∧ t.runrem = 0
            ∧ t.skip.toNat = skip ∧ t.strip.toNat = specStrip m plen
            ∧ readBytes .out t.out 0 samples.length = transformBytes true skip s.a1.toNat samples)
      ∧ (s.params.outBytes < samples.length → t.st = .fault ∧ t.cause = .resourceOut ∧ t.cnt = 0)
      ∧ (samples.length ≤ s.params.outBytes → s.params.tmpBytes < tmpNeed samples.length skip s.a1.toNat →
          t.st = .fault ∧ t.cause = .resourceTmp ∧ t.cnt = 0)

/-- R152: a decode leaves BUSY after finitely many micro-operations: HDR, at most (8 * PLEN) div 10 + 1 RUN
records of at most 127 samples each, END and the closing actions. -/
def Obligations.DecodeTerminates : Prop :=
  ∀ s : State, Invariant s → s.st = .busy → s.dstate = .readHeader → noResetPending s →
    ∃ k t, k ≤ 128 * (8 * s.plen.toNat / 10 + 1) + 3
      ∧ Host.Core.run Sys2Proof.core k s = .next t ∧ t.st ≠ .busy

/-- A DECODE of the empty chunk takes four steps (DECODE, HDR, END, closing) and gives SKIP = 1, STRIP = 1,
CNT = 0, STATUS = 0x304, whatever CODED holds (70_reset_and_hazards.md section 2). -/
def Obligations.EmptyChunkDecodesToNothing : Prop :=
  ∀ s : State, s.st = .idle → s.cause = .none → s.host = [.writeReg 0 0x50000000] → s.a0 = 0 →
    ∃ t, Host.Core.run Sys2Proof.core 4 s = .next t
      ∧ t.skip = 1 ∧ t.strip = 1 ∧ t.cnt = 0 ∧ t.plen = 0 ∧ t.bitpos = 25 ∧ statusWord t = 0x304

/-! Flags, host registers and memories -/

/-- STATUS: ST in bits 1 to 0, DONE bit 2, CMDERR bit 3, CAUSE 7 to 4, DSTATE 9 to 8, zeros above, with the code
values of R39, R26 and R211. -/
def Obligations.StatusFields : Prop :=
  ∀ s : State,
    (statusWord s).toNat =
      (match s.st with | .idle => 0 | .busy => 1 | .fault => 2)
        + 4 * s.done.toNat + 8 * s.cmderr.toNat
        + 16 * (match s.cause with | .none => 0 | .resourceCoded => 1 | .resourceOut => 2 | .resourceTmp => 3)
        + 256 * (match s.dstate with | .idle => 0 | .readHeader => 1 | .decodeRuns => 2 | .done => 3)

/-- R102 with R192: a reserved word written to CMD in IDLE changes nothing but the flags. -/
def Obligations.ReservedWordsChangeOnlyFlags : Prop :=
  ∀ (s : State) (v : Word) (rest : List HostMove), s.st = .idle → s.host = .writeReg 0 v :: rest →
    reservedWord v → step s = .next { s with host := rest, done := false, cmderr := true }

/-- R36: the nine registers as the host reads and writes them, in IDLE or FAULT. -/
def Obligations.HostRegisterAccess : Prop :=
  ∀ (s : State) (rest : List HostMove) (reg : Nat), s.st ≠ .busy →
    (s.host = .readReg reg :: rest →
      step s =
        .next
          { s with
            host := rest
            hostRead :=
              if reg = 1 then s.a0 else if reg = 2 then s.a1 else if reg = 3 then s.a2
              else if reg = 4 then statusWord s else if reg = 5 then s.rv else if reg = 6 then s.cnt
              else if reg = 7 then BitVec.ofNat 32 s.skip.toNat
              else if reg = 8 then BitVec.ofNat 32 s.strip.toNat else 0 })
    ∧ ∀ v : Word, s.host = .writeReg reg v :: rest → reg ≠ 0 →
        step s =
          .next
            { s with
              host := rest
              a0 := if reg = 1 then v else s.a0
              a1 := if reg = 2 then v else s.a1
              a2 := if reg = 3 then v else s.a2 }

/-- R64: in IDLE the host writes any byte of CODED and OUT and no other byte changes; in IDLE and FAULT it reads
them; a byte write in FAULT stops by name, an address that does not exist faults (the model's stops, log entries 15, 14). -/
def Obligations.HostByteAccess : Prop :=
  ∀ (s : State) (rest : List HostMove) (sp : HostSpace) (a : Word) (b : Byte),
    (a.toNat < s.params.capacity sp.space → s.st = .idle → s.host = .writeByte sp a b :: rest →
      ∃ t, step s = .next t
        ∧ (∀ x, byteAt t sp.space x = if x = a.toNat then b else byteAt s sp.space x)
        ∧ (sp = .coded → t = { s with host := rest, coded := t.coded })
        ∧ (sp = .out → t = { s with host := rest, out := t.out }))
    ∧ (a.toNat < s.params.capacity sp.space → s.st ≠ .busy → s.host = .readByte sp a :: rest →
        step s = .next { s with host := rest, hostRead := (byteAt s sp.space a.toNat).setWidth 32 })
    ∧ (a.toNat < s.params.capacity sp.space → s.st = .fault → s.host = .writeByte sp a b :: rest →
        step s = .refused .byteWriteInFault)
    ∧ (s.params.capacity sp.space ≤ a.toNat → s.st ≠ .busy →
        s.host = .writeByte sp a b :: rest ∨ s.host = .readByte sp a :: rest →
        step s = .fault (.noSuchAddress sp.space))

/-- While BUSY the host has no move: whatever it has in its list, the step does the same, and the list, A0 to A2
and what the host has read stay. This is the model's assumption (log entry 24): the spec leaves a host access while
BUSY unspecified and has a model give the host no move there (R250, U7). -/
def Obligations.HostHasNoMoveWhileBusy : Prop :=
  ∀ s t : State, s.st = .busy → noResetPending s → step s = .next t →
    t.host = s.host ∧ t.hostRead = s.hostRead ∧ t.a0 = s.a0 ∧ t.a1 = s.a1 ∧ t.a2 = s.a2
      ∧ ∀ h : List HostMove, noResetPending { s with host := h } →
          step { s with host := h } = .next { t with host := h }

/-- A command executed while BUSY stops by name (the model's stop, log entry 13), and in FAULT a command does
nothing (R216). -/
def Obligations.CommandsNeedAnIdleBlock : Prop :=
  ∀ (s : State) (i : Instr), i.slot = .command →
    (s.st = .busy → exec i s = .refused .commandWhileBusy) ∧ (s.st = .fault → exec i s = .next s)

/-- An idle instance without a host move keeps all its state (60_exceptions.md R227). That the same holds in FAULT is
the model's inference from R217, "nothing executes in state FAULT" (log entry 16). -/
def Obligations.IdleWithoutAMoveKeepsAllState : Prop :=
  ∀ s : State, s.st ≠ .busy → s.host = [] → step s = .next s

/-! Whole-machine rules -/

/-- R216: in FAULT a command written to CMD is ignored and writes to A0 to A2 are accepted; no step but the reset
event changes anything else but the host's list and what it has read, and without a register write none changes
A0 to A2. -/
def Obligations.FaultIsSticky : Prop :=
  ∀ s : State, s.st = .fault →
    (∀ t : State, noResetDue s → step s = .next t →
      t = { s with a0 := t.a0, a1 := t.a1, a2 := t.a2, host := t.host, hostRead := t.hostRead }
        ∧ ((∀ reg v, s.host.head? ≠ some (.writeReg reg v)) → t.a0 = s.a0 ∧ t.a1 = s.a1 ∧ t.a2 = s.a2))
    ∧ (∀ (v : Word) (rest : List HostMove), s.host = .writeReg 0 v :: rest → step s = .next { s with host := rest })
    ∧ ∀ (reg : Nat) (v : Word) (rest : List HostMove), s.host = .writeReg reg v :: rest → reg ≠ 0 →
        step s =
          .next
            { s with
              host := rest
              a0 := if reg = 1 then v else s.a0
              a1 := if reg = 2 then v else s.a1
              a2 := if reg = 3 then v else s.a2 }

/-- R241: the parameters are "fixed when an instance is made and cannot be changed afterwards, by reset or by any
command". -/
def Obligations.ParametersNeverChange : Prop :=
  ∀ s t : State, step s = .next t → t.params = s.params

/-- R155: DSTATE changes only by these three, but for the reset event: by DECODE, by HDR and by END, and by none of
them when it faults. -/
def Obligations.DecoderStateTransitions : Prop :=
  ∀ s t : State, Invariant s → noResetDue s → step s = .next t → t.dstate ≠ s.dstate →
    t.st = .busy
      ∧ ((s.st = .idle ∧ (∃ u, fetch s = .run .decode u)
            ∧ (s.dstate = .idle ∨ s.dstate = .done) ∧ t.dstate = .readHeader)
        ∨ (s.st = .busy ∧ (∃ k v u, fetch s = .run (.hdr k v) u)
            ∧ s.dstate = .readHeader ∧ t.dstate = .decodeRuns)
        ∨ (s.st = .busy ∧ (∃ u, fetch s = .run .endRec u)
            ∧ s.dstate = .decodeRuns ∧ s.runrem = 0 ∧ t.dstate = .done))

/-- R77: a decode never modifies the stream it is reading: while BUSY no step that does not fault writes CODED
or PLEN. -/
def Obligations.DecodingLeavesTheStreamAlone : Prop :=
  ∀ s t : State, s.st = .busy → noResetDue s → step s = .next t → t.st ≠ .fault →
    t.coded = s.coded ∧ t.plen = s.plen

/-- The canonical form of a memory's cells (log entry 4): two lists of cells in it that list the same byte at every
address, or none, are the same list. Of a memory's marks, which list no byte, it says nothing. -/
def Obligations.EqualCellListsAreEqualData : Prop :=
  ∀ c d : List Host.Cell, risingCells c = true → risingCells d = true → (∀ a, cellAt c a = cellAt d a) → c = d

/-- Every step keeps the three memories in canonical form and inside their capacities (R60, R79). -/
def Obligations.StepKeepsMemoriesCanonical : Prop :=
  ∀ s t : State, MemoriesCanonical s → step s = .next t → MemoriesCanonical t

/-- Every step keeps CAUSE nonzero exactly in FAULT (R39), and the flags clear while BUSY and in FAULT. -/
def Obligations.StepKeepsStatusConsistent : Prop :=
  ∀ s t : State, StatusConsistent s → step s = .next t → StatusConsistent t

/-- Every step keeps I1, I2 and I3 of R45, wherever the reader holds a usable value. -/
def Obligations.StepKeepsReaderInRange : Prop :=
  ∀ s t : State, (s.st ≠ .fault → ReaderInRange s) → step s = .next t → t.st ≠ .fault → ReaderInRange t

/-- Every step keeps the whole invariant: R45 and R46, the status, the memories, and the reader in step with the
stream throughout a decode. That SKIP and STRIP are in range after the reset event, which is a step, is the model's
choice of their reset values (log entry 2): R47 and U2 leave both unspecified there. -/
def Obligations.StepKeepsTheInvariant : Prop :=
  ∀ s t : State, Invariant s → step s = .next t → Invariant t

/-- R210, R228: "Stuck: does not occur". From a state that meets the invariant a step answers a next state, but
for a host byte access the spec does not give the host. -/
def Obligations.NothingGetsStuck : Prop :=
  ∀ s : State, Invariant s →
    (s.st ≠ .busy → ∀ (sp : HostSpace) (a : Word) (b : Byte),
      (s.host.head? = some (.writeByte sp a b) → s.st = .idle ∧ a.toNat < s.params.capacity sp.space)
        ∧ (s.host.head? = some (.readByte sp a) → a.toNat < s.params.capacity sp.space)) →
    ∃ t, step s = .next t

/-- The value of a read and the window after it by R124's two branches, as numbers, for every reader in range and so
also after the host has written CODED between reads (R49, R252): within the window (R127 (a)), and with the word of a
refill, which is the four bytes of CODED at BOFF, the first most significant (R65), or 0 at the end of the buffer and
beyond (R127 (b) to (d)). -/
def Obligations.ReadFollowsTheWindow : Prop :=
  ∀ (s : State) (n : Nat), 1 ≤ n → n ≤ 32 → ReaderInRange s →
    let old := s.win.toNat
    let valid := s.nbits.toNat
    let at4 := s.boff.toNat
    let word :=
      if at4 < s.plen.toNat then
        (byteAt s .coded at4).toNat * 2 ^ 24 + (byteAt s .coded (at4 + 1)).toNat * 2 ^ 16
          + (byteAt s .coded (at4 + 2)).toNat * 2 ^ 8 + (byteAt s .coded (at4 + 3)).toNat
      else 0
    (n < valid →
      (readBits n s).1.toNat = old / 2 ^ (valid - n) ∧ (advance n s).win.toNat = old % 2 ^ (valid - n))
    ∧ (valid ≤ n →
      (readBits n s).1.toNat = old * 2 ^ (n - valid) + word / 2 ^ (valid + 32 - n)
        ∧ (advance n s).win.toNat = word % 2 ^ (valid + 32 - n))
end

