-- ==== Sys2Proof/Laws/State.lean ====
section
/-! SUPPORT. For each named update of State, what each field holds after it. True by definition: no later proof unfolds an update. -/

namespace Sys2Proof.Machine

/-! accept -/

@[simp] theorem accept_win (s : State) : (accept s).win = s.win := rfl
@[simp] theorem accept_nbits (s : State) : (accept s).nbits = s.nbits := rfl
@[simp] theorem accept_boff (s : State) : (accept s).boff = s.boff := rfl
@[simp] theorem accept_plen (s : State) : (accept s).plen = s.plen := rfl
@[simp] theorem accept_bitpos (s : State) : (accept s).bitpos = s.bitpos := rfl
@[simp] theorem accept_dstate (s : State) : (accept s).dstate = s.dstate := rfl
@[simp] theorem accept_skip (s : State) : (accept s).skip = s.skip := rfl
@[simp] theorem accept_strip (s : State) : (accept s).strip = s.strip := rfl
@[simp] theorem accept_runrem (s : State) : (accept s).runrem = s.runrem := rfl
@[simp] theorem accept_wcode (s : State) : (accept s).wcode = s.wcode := rfl
@[simp] theorem accept_w (s : State) : (accept s).w = s.w := rfl
@[simp] theorem accept_cnt (s : State) : (accept s).cnt = s.cnt := rfl
@[simp] theorem accept_alloc (s : State) : (accept s).alloc = s.alloc := rfl
@[simp] theorem accept_act (s : State) : (accept s).act = s.act := rfl
@[simp] theorem accept_a0 (s : State) : (accept s).a0 = s.a0 := rfl
@[simp] theorem accept_a1 (s : State) : (accept s).a1 = s.a1 := rfl
@[simp] theorem accept_a2 (s : State) : (accept s).a2 = s.a2 := rfl
@[simp] theorem accept_st (s : State) : (accept s).st = .busy := rfl
@[simp] theorem accept_done (s : State) : (accept s).done = false := rfl
@[simp] theorem accept_cmderr (s : State) : (accept s).cmderr = false := rfl
@[simp] theorem accept_cause (s : State) : (accept s).cause = s.cause := rfl
@[simp] theorem accept_rv (s : State) : (accept s).rv = s.rv := rfl
@[simp] theorem accept_coded (s : State) : (accept s).coded = s.coded := rfl
@[simp] theorem accept_out (s : State) : (accept s).out = s.out := rfl
@[simp] theorem accept_tmp (s : State) : (accept s).tmp = s.tmp := rfl
@[simp] theorem accept_params (s : State) : (accept s).params = s.params := rfl
@[simp] theorem accept_host (s : State) : (accept s).host = s.host := rfl
@[simp] theorem accept_hostRead (s : State) : (accept s).hostRead = s.hostRead := rfl
@[simp] theorem accept_fresh (s : State) : (accept s).fresh = s.fresh := rfl

/-! refuseCommand -/

@[simp] theorem refuseCommand_win (s : State) : (refuseCommand s).win = s.win := rfl
@[simp] theorem refuseCommand_nbits (s : State) : (refuseCommand s).nbits = s.nbits := rfl
@[simp] theorem refuseCommand_boff (s : State) : (refuseCommand s).boff = s.boff := rfl
@[simp] theorem refuseCommand_plen (s : State) : (refuseCommand s).plen = s.plen := rfl
@[simp] theorem refuseCommand_bitpos (s : State) : (refuseCommand s).bitpos = s.bitpos := rfl
@[simp] theorem refuseCommand_dstate (s : State) : (refuseCommand s).dstate = s.dstate := rfl
@[simp] theorem refuseCommand_skip (s : State) : (refuseCommand s).skip = s.skip := rfl
@[simp] theorem refuseCommand_strip (s : State) : (refuseCommand s).strip = s.strip := rfl
@[simp] theorem refuseCommand_runrem (s : State) : (refuseCommand s).runrem = s.runrem := rfl
@[simp] theorem refuseCommand_wcode (s : State) : (refuseCommand s).wcode = s.wcode := rfl
@[simp] theorem refuseCommand_w (s : State) : (refuseCommand s).w = s.w := rfl
@[simp] theorem refuseCommand_cnt (s : State) : (refuseCommand s).cnt = s.cnt := rfl
@[simp] theorem refuseCommand_alloc (s : State) : (refuseCommand s).alloc = s.alloc := rfl
@[simp] theorem refuseCommand_act (s : State) : (refuseCommand s).act = s.act := rfl
@[simp] theorem refuseCommand_a0 (s : State) : (refuseCommand s).a0 = s.a0 := rfl
@[simp] theorem refuseCommand_a1 (s : State) : (refuseCommand s).a1 = s.a1 := rfl
@[simp] theorem refuseCommand_a2 (s : State) : (refuseCommand s).a2 = s.a2 := rfl
@[simp] theorem refuseCommand_st (s : State) : (refuseCommand s).st = s.st := rfl
@[simp] theorem refuseCommand_done (s : State) : (refuseCommand s).done = false := rfl
@[simp] theorem refuseCommand_cmderr (s : State) : (refuseCommand s).cmderr = true := rfl
@[simp] theorem refuseCommand_cause (s : State) : (refuseCommand s).cause = s.cause := rfl
@[simp] theorem refuseCommand_rv (s : State) : (refuseCommand s).rv = s.rv := rfl
@[simp] theorem refuseCommand_coded (s : State) : (refuseCommand s).coded = s.coded := rfl
@[simp] theorem refuseCommand_out (s : State) : (refuseCommand s).out = s.out := rfl
@[simp] theorem refuseCommand_tmp (s : State) : (refuseCommand s).tmp = s.tmp := rfl
@[simp] theorem refuseCommand_params (s : State) : (refuseCommand s).params = s.params := rfl
@[simp] theorem refuseCommand_host (s : State) : (refuseCommand s).host = s.host := rfl
@[simp] theorem refuseCommand_hostRead (s : State) : (refuseCommand s).hostRead = s.hostRead := rfl
@[simp] theorem refuseCommand_fresh (s : State) : (refuseCommand s).fresh = s.fresh := rfl

/-! complete -/

@[simp] theorem complete_win (s : State) : (complete s).win = s.win := rfl
@[simp] theorem complete_nbits (s : State) : (complete s).nbits = s.nbits := rfl
@[simp] theorem complete_boff (s : State) : (complete s).boff = s.boff := rfl
@[simp] theorem complete_plen (s : State) : (complete s).plen = s.plen := rfl
@[simp] theorem complete_bitpos (s : State) : (complete s).bitpos = s.bitpos := rfl
@[simp] theorem complete_dstate (s : State) : (complete s).dstate = s.dstate := rfl
@[simp] theorem complete_skip (s : State) : (complete s).skip = s.skip := rfl
@[simp] theorem complete_strip (s : State) : (complete s).strip = s.strip := rfl
@[simp] theorem complete_runrem (s : State) : (complete s).runrem = s.runrem := rfl
@[simp] theorem complete_wcode (s : State) : (complete s).wcode = s.wcode := rfl
@[simp] theorem complete_w (s : State) : (complete s).w = s.w := rfl
@[simp] theorem complete_cnt (s : State) : (complete s).cnt = s.cnt := rfl
@[simp] theorem complete_alloc (s : State) : (complete s).alloc = s.alloc := rfl
@[simp] theorem complete_act (s : State) : (complete s).act = s.act := rfl
@[simp] theorem complete_a0 (s : State) : (complete s).a0 = s.a0 := rfl
@[simp] theorem complete_a1 (s : State) : (complete s).a1 = s.a1 := rfl
@[simp] theorem complete_a2 (s : State) : (complete s).a2 = s.a2 := rfl
@[simp] theorem complete_st (s : State) : (complete s).st = .idle := rfl
@[simp] theorem complete_done (s : State) : (complete s).done = true := rfl
@[simp] theorem complete_cmderr (s : State) : (complete s).cmderr = s.cmderr := rfl
@[simp] theorem complete_cause (s : State) : (complete s).cause = s.cause := rfl
@[simp] theorem complete_rv (s : State) : (complete s).rv = s.rv := rfl
@[simp] theorem complete_coded (s : State) : (complete s).coded = s.coded := rfl
@[simp] theorem complete_out (s : State) : (complete s).out = s.out := rfl
@[simp] theorem complete_tmp (s : State) : (complete s).tmp = s.tmp := rfl
@[simp] theorem complete_params (s : State) : (complete s).params = s.params := rfl
@[simp] theorem complete_host (s : State) : (complete s).host = s.host := rfl
@[simp] theorem complete_hostRead (s : State) : (complete s).hostRead = s.hostRead := rfl
@[simp] theorem complete_fresh (s : State) : (complete s).fresh = s.fresh := rfl

/-! initBuffer -/

@[simp] theorem initBuffer_win (s : State) : (initBuffer s).win = 0 := rfl
@[simp] theorem initBuffer_nbits (s : State) : (initBuffer s).nbits = 0 := rfl
@[simp] theorem initBuffer_boff (s : State) : (initBuffer s).boff = s.boff := rfl
@[simp] theorem initBuffer_plen (s : State) : (initBuffer s).plen = s.plen := rfl
@[simp] theorem initBuffer_bitpos (s : State) : (initBuffer s).bitpos = 8 * s.boff.toNat := rfl
@[simp] theorem initBuffer_dstate (s : State) : (initBuffer s).dstate = s.dstate := rfl
@[simp] theorem initBuffer_skip (s : State) : (initBuffer s).skip = s.skip := rfl
@[simp] theorem initBuffer_strip (s : State) : (initBuffer s).strip = s.strip := rfl
@[simp] theorem initBuffer_runrem (s : State) : (initBuffer s).runrem = s.runrem := rfl
@[simp] theorem initBuffer_wcode (s : State) : (initBuffer s).wcode = s.wcode := rfl
@[simp] theorem initBuffer_w (s : State) : (initBuffer s).w = s.w := rfl
@[simp] theorem initBuffer_cnt (s : State) : (initBuffer s).cnt = s.cnt := rfl
@[simp] theorem initBuffer_alloc (s : State) : (initBuffer s).alloc = s.alloc := rfl
@[simp] theorem initBuffer_act (s : State) : (initBuffer s).act = s.act := rfl
@[simp] theorem initBuffer_a0 (s : State) : (initBuffer s).a0 = s.a0 := rfl
@[simp] theorem initBuffer_a1 (s : State) : (initBuffer s).a1 = s.a1 := rfl
@[simp] theorem initBuffer_a2 (s : State) : (initBuffer s).a2 = s.a2 := rfl
@[simp] theorem initBuffer_st (s : State) : (initBuffer s).st = s.st := rfl
@[simp] theorem initBuffer_done (s : State) : (initBuffer s).done = s.done := rfl
@[simp] theorem initBuffer_cmderr (s : State) : (initBuffer s).cmderr = s.cmderr := rfl
@[simp] theorem initBuffer_cause (s : State) : (initBuffer s).cause = s.cause := rfl
@[simp] theorem initBuffer_rv (s : State) : (initBuffer s).rv = s.rv := rfl
@[simp] theorem initBuffer_coded (s : State) : (initBuffer s).coded = s.coded := rfl
@[simp] theorem initBuffer_out (s : State) : (initBuffer s).out = s.out := rfl
@[simp] theorem initBuffer_tmp (s : State) : (initBuffer s).tmp = s.tmp := rfl
@[simp] theorem initBuffer_params (s : State) : (initBuffer s).params = s.params := rfl
@[simp] theorem initBuffer_host (s : State) : (initBuffer s).host = s.host := rfl
@[simp] theorem initBuffer_hostRead (s : State) : (initBuffer s).hostRead = s.hostRead := rfl
@[simp] theorem initBuffer_fresh (s : State) : (initBuffer s).fresh = s.fresh := rfl

/-! clearBits -/

@[simp] theorem clearBits_win (s : State) : (clearBits s).win = s.win := rfl
@[simp] theorem clearBits_nbits (s : State) : (clearBits s).nbits = s.nbits := rfl
@[simp] theorem clearBits_boff (s : State) : (clearBits s).boff = 0 := rfl
@[simp] theorem clearBits_plen (s : State) : (clearBits s).plen = 0 := rfl
@[simp] theorem clearBits_bitpos (s : State) : (clearBits s).bitpos = 0 := rfl
@[simp] theorem clearBits_dstate (s : State) : (clearBits s).dstate = s.dstate := rfl
@[simp] theorem clearBits_skip (s : State) : (clearBits s).skip = s.skip := rfl
@[simp] theorem clearBits_strip (s : State) : (clearBits s).strip = s.strip := rfl
@[simp] theorem clearBits_runrem (s : State) : (clearBits s).runrem = s.runrem := rfl
@[simp] theorem clearBits_wcode (s : State) : (clearBits s).wcode = s.wcode := rfl
@[simp] theorem clearBits_w (s : State) : (clearBits s).w = s.w := rfl
@[simp] theorem clearBits_cnt (s : State) : (clearBits s).cnt = s.cnt := rfl
@[simp] theorem clearBits_alloc (s : State) : (clearBits s).alloc = s.alloc := rfl
@[simp] theorem clearBits_act (s : State) : (clearBits s).act = s.act := rfl
@[simp] theorem clearBits_a0 (s : State) : (clearBits s).a0 = s.a0 := rfl
@[simp] theorem clearBits_a1 (s : State) : (clearBits s).a1 = s.a1 := rfl
@[simp] theorem clearBits_a2 (s : State) : (clearBits s).a2 = s.a2 := rfl
@[simp] theorem clearBits_st (s : State) : (clearBits s).st = s.st := rfl
@[simp] theorem clearBits_done (s : State) : (clearBits s).done = s.done := rfl
@[simp] theorem clearBits_cmderr (s : State) : (clearBits s).cmderr = s.cmderr := rfl
@[simp] theorem clearBits_cause (s : State) : (clearBits s).cause = s.cause := rfl
@[simp] theorem clearBits_rv (s : State) : (clearBits s).rv = s.rv := rfl
@[simp] theorem clearBits_coded (s : State) : (clearBits s).coded = s.coded := rfl
@[simp] theorem clearBits_out (s : State) : (clearBits s).out = s.out := rfl
@[simp] theorem clearBits_tmp (s : State) : (clearBits s).tmp = s.tmp := rfl
@[simp] theorem clearBits_params (s : State) : (clearBits s).params = s.params := rfl
@[simp] theorem clearBits_host (s : State) : (clearBits s).host = s.host := rfl
@[simp] theorem clearBits_hostRead (s : State) : (clearBits s).hostRead = s.hostRead := rfl
@[simp] theorem clearBits_fresh (s : State) : (clearBits s).fresh = s.fresh := rfl

/-! loadBits -/

@[simp] theorem loadBits_win (n : Nat) (s : State) : (loadBits n s).win = s.win := rfl
@[simp] theorem loadBits_nbits (n : Nat) (s : State) : (loadBits n s).nbits = s.nbits := rfl
@[simp] theorem loadBits_boff (n : Nat) (s : State) : (loadBits n s).boff = s.boff := rfl
@[simp] theorem loadBits_plen (n : Nat) (s : State) : (loadBits n s).plen = BitVec.ofNat 32 (ceil4 n) := rfl
@[simp] theorem loadBits_bitpos (n : Nat) (s : State) : (loadBits n s).bitpos = s.bitpos := rfl
@[simp] theorem loadBits_dstate (n : Nat) (s : State) : (loadBits n s).dstate = s.dstate := rfl
@[simp] theorem loadBits_skip (n : Nat) (s : State) : (loadBits n s).skip = s.skip := rfl
@[simp] theorem loadBits_strip (n : Nat) (s : State) : (loadBits n s).strip = s.strip := rfl
@[simp] theorem loadBits_runrem (n : Nat) (s : State) : (loadBits n s).runrem = s.runrem := rfl
@[simp] theorem loadBits_wcode (n : Nat) (s : State) : (loadBits n s).wcode = s.wcode := rfl
@[simp] theorem loadBits_w (n : Nat) (s : State) : (loadBits n s).w = s.w := rfl
@[simp] theorem loadBits_cnt (n : Nat) (s : State) : (loadBits n s).cnt = s.cnt := rfl
@[simp] theorem loadBits_alloc (n : Nat) (s : State) : (loadBits n s).alloc = s.alloc := rfl
@[simp] theorem loadBits_act (n : Nat) (s : State) : (loadBits n s).act = s.act := rfl
@[simp] theorem loadBits_a0 (n : Nat) (s : State) : (loadBits n s).a0 = s.a0 := rfl
@[simp] theorem loadBits_a1 (n : Nat) (s : State) : (loadBits n s).a1 = s.a1 := rfl
@[simp] theorem loadBits_a2 (n : Nat) (s : State) : (loadBits n s).a2 = s.a2 := rfl
@[simp] theorem loadBits_st (n : Nat) (s : State) : (loadBits n s).st = s.st := rfl
@[simp] theorem loadBits_done (n : Nat) (s : State) : (loadBits n s).done = s.done := rfl
@[simp] theorem loadBits_cmderr (n : Nat) (s : State) : (loadBits n s).cmderr = s.cmderr := rfl
@[simp] theorem loadBits_cause (n : Nat) (s : State) : (loadBits n s).cause = s.cause := rfl
@[simp] theorem loadBits_rv (n : Nat) (s : State) : (loadBits n s).rv = s.rv := rfl
@[simp] theorem loadBits_coded (n : Nat) (s : State) : (loadBits n s).coded = writeBytes s.coded n (List.replicate (ceil4 n - n) 0) := rfl
@[simp] theorem loadBits_out (n : Nat) (s : State) : (loadBits n s).out = s.out := rfl
@[simp] theorem loadBits_tmp (n : Nat) (s : State) : (loadBits n s).tmp = s.tmp := rfl
@[simp] theorem loadBits_params (n : Nat) (s : State) : (loadBits n s).params = s.params := rfl
@[simp] theorem loadBits_host (n : Nat) (s : State) : (loadBits n s).host = s.host := rfl
@[simp] theorem loadBits_hostRead (n : Nat) (s : State) : (loadBits n s).hostRead = s.hostRead := rfl
@[simp] theorem loadBits_fresh (n : Nat) (s : State) : (loadBits n s).fresh = s.fresh := rfl

/-! forgetTmp -/

@[simp] theorem forgetTmp_win (s : State) : (forgetTmp s).win = s.win := rfl
@[simp] theorem forgetTmp_nbits (s : State) : (forgetTmp s).nbits = s.nbits := rfl
@[simp] theorem forgetTmp_boff (s : State) : (forgetTmp s).boff = s.boff := rfl
@[simp] theorem forgetTmp_plen (s : State) : (forgetTmp s).plen = s.plen := rfl
@[simp] theorem forgetTmp_bitpos (s : State) : (forgetTmp s).bitpos = s.bitpos := rfl
@[simp] theorem forgetTmp_dstate (s : State) : (forgetTmp s).dstate = s.dstate := rfl
@[simp] theorem forgetTmp_skip (s : State) : (forgetTmp s).skip = s.skip := rfl
@[simp] theorem forgetTmp_strip (s : State) : (forgetTmp s).strip = s.strip := rfl
@[simp] theorem forgetTmp_runrem (s : State) : (forgetTmp s).runrem = s.runrem := rfl
@[simp] theorem forgetTmp_wcode (s : State) : (forgetTmp s).wcode = s.wcode := rfl
@[simp] theorem forgetTmp_w (s : State) : (forgetTmp s).w = s.w := rfl
@[simp] theorem forgetTmp_cnt (s : State) : (forgetTmp s).cnt = s.cnt := rfl
@[simp] theorem forgetTmp_alloc (s : State) : (forgetTmp s).alloc = s.alloc := rfl
@[simp] theorem forgetTmp_act (s : State) : (forgetTmp s).act = s.act := rfl
@[simp] theorem forgetTmp_a0 (s : State) : (forgetTmp s).a0 = s.a0 := rfl
@[simp] theorem forgetTmp_a1 (s : State) : (forgetTmp s).a1 = s.a1 := rfl
@[simp] theorem forgetTmp_a2 (s : State) : (forgetTmp s).a2 = s.a2 := rfl
@[simp] theorem forgetTmp_st (s : State) : (forgetTmp s).st = s.st := rfl
@[simp] theorem forgetTmp_done (s : State) : (forgetTmp s).done = s.done := rfl
@[simp] theorem forgetTmp_cmderr (s : State) : (forgetTmp s).cmderr = s.cmderr := rfl
@[simp] theorem forgetTmp_cause (s : State) : (forgetTmp s).cause = s.cause := rfl
@[simp] theorem forgetTmp_rv (s : State) : (forgetTmp s).rv = s.rv := rfl
@[simp] theorem forgetTmp_coded (s : State) : (forgetTmp s).coded = s.coded := rfl
@[simp] theorem forgetTmp_out (s : State) : (forgetTmp s).out = s.out := rfl
@[simp] theorem forgetTmp_tmp (s : State) : (forgetTmp s).tmp = Memory.unspecified s.fresh := rfl
@[simp] theorem forgetTmp_params (s : State) : (forgetTmp s).params = s.params := rfl
@[simp] theorem forgetTmp_host (s : State) : (forgetTmp s).host = s.host := rfl
@[simp] theorem forgetTmp_hostRead (s : State) : (forgetTmp s).hostRead = s.hostRead := rfl
@[simp] theorem forgetTmp_fresh (s : State) : (forgetTmp s).fresh = s.fresh + 1 := rfl

/-! forgetBeyondResult -/

@[simp] theorem forgetBeyondResult_win (s : State) : (forgetBeyondResult s).win = s.win := rfl
@[simp] theorem forgetBeyondResult_nbits (s : State) : (forgetBeyondResult s).nbits = s.nbits := rfl
@[simp] theorem forgetBeyondResult_boff (s : State) : (forgetBeyondResult s).boff = s.boff := rfl
@[simp] theorem forgetBeyondResult_plen (s : State) : (forgetBeyondResult s).plen = s.plen := rfl
@[simp] theorem forgetBeyondResult_bitpos (s : State) : (forgetBeyondResult s).bitpos = s.bitpos := rfl
@[simp] theorem forgetBeyondResult_dstate (s : State) : (forgetBeyondResult s).dstate = s.dstate := rfl
@[simp] theorem forgetBeyondResult_skip (s : State) : (forgetBeyondResult s).skip = s.skip := rfl
@[simp] theorem forgetBeyondResult_strip (s : State) : (forgetBeyondResult s).strip = s.strip := rfl
@[simp] theorem forgetBeyondResult_runrem (s : State) : (forgetBeyondResult s).runrem = s.runrem := rfl
@[simp] theorem forgetBeyondResult_wcode (s : State) : (forgetBeyondResult s).wcode = s.wcode := rfl
@[simp] theorem forgetBeyondResult_w (s : State) : (forgetBeyondResult s).w = s.w := rfl
@[simp] theorem forgetBeyondResult_cnt (s : State) : (forgetBeyondResult s).cnt = s.cnt := rfl
@[simp] theorem forgetBeyondResult_alloc (s : State) : (forgetBeyondResult s).alloc = s.alloc := rfl
@[simp] theorem forgetBeyondResult_act (s : State) : (forgetBeyondResult s).act = s.act := rfl
@[simp] theorem forgetBeyondResult_a0 (s : State) : (forgetBeyondResult s).a0 = s.a0 := rfl
@[simp] theorem forgetBeyondResult_a1 (s : State) : (forgetBeyondResult s).a1 = s.a1 := rfl
@[simp] theorem forgetBeyondResult_a2 (s : State) : (forgetBeyondResult s).a2 = s.a2 := rfl
@[simp] theorem forgetBeyondResult_st (s : State) : (forgetBeyondResult s).st = s.st := rfl
@[simp] theorem forgetBeyondResult_done (s : State) : (forgetBeyondResult s).done = s.done := rfl
@[simp] theorem forgetBeyondResult_cmderr (s : State) : (forgetBeyondResult s).cmderr = s.cmderr := rfl
@[simp] theorem forgetBeyondResult_cause (s : State) : (forgetBeyondResult s).cause = s.cause := rfl
@[simp] theorem forgetBeyondResult_rv (s : State) : (forgetBeyondResult s).rv = s.rv := rfl
@[simp] theorem forgetBeyondResult_coded (s : State) : (forgetBeyondResult s).coded = s.coded := rfl
@[simp] theorem forgetBeyondResult_out (s : State) : (forgetBeyondResult s).out = forgetFrom s.out s.cnt.toNat s.fresh := rfl
@[simp] theorem forgetBeyondResult_tmp (s : State) : (forgetBeyondResult s).tmp = s.tmp := rfl
@[simp] theorem forgetBeyondResult_params (s : State) : (forgetBeyondResult s).params = s.params := rfl
@[simp] theorem forgetBeyondResult_host (s : State) : (forgetBeyondResult s).host = s.host := rfl
@[simp] theorem forgetBeyondResult_hostRead (s : State) : (forgetBeyondResult s).hostRead = s.hostRead := rfl
@[simp] theorem forgetBeyondResult_fresh (s : State) : (forgetBeyondResult s).fresh = s.fresh + 1 := rfl

/-! placeSample -/

@[simp] theorem placeSample_win (v : Byte) (s : State) : (placeSample v s).win = s.win := rfl
@[simp] theorem placeSample_nbits (v : Byte) (s : State) : (placeSample v s).nbits = s.nbits := rfl
@[simp] theorem placeSample_boff (v : Byte) (s : State) : (placeSample v s).boff = s.boff := rfl
@[simp] theorem placeSample_plen (v : Byte) (s : State) : (placeSample v s).plen = s.plen := rfl
@[simp] theorem placeSample_bitpos (v : Byte) (s : State) : (placeSample v s).bitpos = s.bitpos := rfl
@[simp] theorem placeSample_dstate (v : Byte) (s : State) : (placeSample v s).dstate = s.dstate := rfl
@[simp] theorem placeSample_skip (v : Byte) (s : State) : (placeSample v s).skip = s.skip := rfl
@[simp] theorem placeSample_strip (v : Byte) (s : State) : (placeSample v s).strip = s.strip := rfl
@[simp] theorem placeSample_runrem (v : Byte) (s : State) : (placeSample v s).runrem = s.runrem - 1 := rfl
@[simp] theorem placeSample_wcode (v : Byte) (s : State) : (placeSample v s).wcode = s.wcode := rfl
@[simp] theorem placeSample_w (v : Byte) (s : State) : (placeSample v s).w = s.w := rfl
@[simp] theorem placeSample_cnt (v : Byte) (s : State) : (placeSample v s).cnt = s.cnt + 1 := rfl
@[simp] theorem placeSample_alloc (v : Byte) (s : State) : (placeSample v s).alloc = claimed s.cnt.toNat s.alloc := rfl
@[simp] theorem placeSample_act (v : Byte) (s : State) : (placeSample v s).act = v := rfl
@[simp] theorem placeSample_a0 (v : Byte) (s : State) : (placeSample v s).a0 = s.a0 := rfl
@[simp] theorem placeSample_a1 (v : Byte) (s : State) : (placeSample v s).a1 = s.a1 := rfl
@[simp] theorem placeSample_a2 (v : Byte) (s : State) : (placeSample v s).a2 = s.a2 := rfl
@[simp] theorem placeSample_st (v : Byte) (s : State) : (placeSample v s).st = s.st := rfl
@[simp] theorem placeSample_done (v : Byte) (s : State) : (placeSample v s).done = s.done := rfl
@[simp] theorem placeSample_cmderr (v : Byte) (s : State) : (placeSample v s).cmderr = s.cmderr := rfl
@[simp] theorem placeSample_cause (v : Byte) (s : State) : (placeSample v s).cause = s.cause := rfl
@[simp] theorem placeSample_rv (v : Byte) (s : State) : (placeSample v s).rv = s.rv := rfl
@[simp] theorem placeSample_coded (v : Byte) (s : State) : (placeSample v s).coded = s.coded := rfl
@[simp] theorem placeSample_out (v : Byte) (s : State) : (placeSample v s).out = writeByte s.out s.cnt.toNat v := rfl
@[simp] theorem placeSample_tmp (v : Byte) (s : State) : (placeSample v s).tmp = s.tmp := rfl
@[simp] theorem placeSample_params (v : Byte) (s : State) : (placeSample v s).params = s.params := rfl
@[simp] theorem placeSample_host (v : Byte) (s : State) : (placeSample v s).host = s.host := rfl
@[simp] theorem placeSample_hostRead (v : Byte) (s : State) : (placeSample v s).hostRead = s.hostRead := rfl
@[simp] theorem placeSample_fresh (v : Byte) (s : State) : (placeSample v s).fresh = s.fresh := rfl

/-! takeFault -/

@[simp] theorem takeFault_win (c : Cause) (s : State) : (takeFault c s).win = (Config.afterFault s.fresh).win := rfl
@[simp] theorem takeFault_nbits (c : Cause) (s : State) : (takeFault c s).nbits = (Config.afterFault s.fresh).nbits := rfl
@[simp] theorem takeFault_boff (c : Cause) (s : State) : (takeFault c s).boff = (Config.afterFault s.fresh).boff := rfl
@[simp] theorem takeFault_plen (c : Cause) (s : State) : (takeFault c s).plen = (Config.afterFault s.fresh).plen := rfl
@[simp] theorem takeFault_bitpos (c : Cause) (s : State) : (takeFault c s).bitpos = (Config.afterFault s.fresh).bitpos := rfl
@[simp] theorem takeFault_dstate (c : Cause) (s : State) : (takeFault c s).dstate = s.dstate := rfl
@[simp] theorem takeFault_skip (c : Cause) (s : State) : (takeFault c s).skip = (Config.afterFault s.fresh).skip := rfl
@[simp] theorem takeFault_strip (c : Cause) (s : State) : (takeFault c s).strip = (Config.afterFault s.fresh).strip := rfl
@[simp] theorem takeFault_runrem (c : Cause) (s : State) : (takeFault c s).runrem = (Config.afterFault s.fresh).runrem := rfl
@[simp] theorem takeFault_wcode (c : Cause) (s : State) : (takeFault c s).wcode = (Config.afterFault s.fresh).wcode := rfl
@[simp] theorem takeFault_w (c : Cause) (s : State) : (takeFault c s).w = (Config.afterFault s.fresh).w := rfl
@[simp] theorem takeFault_cnt (c : Cause) (s : State) : (takeFault c s).cnt = 0 := rfl
@[simp] theorem takeFault_alloc (c : Cause) (s : State) : (takeFault c s).alloc = 0 := rfl
@[simp] theorem takeFault_act (c : Cause) (s : State) : (takeFault c s).act = (Config.afterFault s.fresh).act := rfl
@[simp] theorem takeFault_a0 (c : Cause) (s : State) : (takeFault c s).a0 = s.a0 := rfl
@[simp] theorem takeFault_a1 (c : Cause) (s : State) : (takeFault c s).a1 = s.a1 := rfl
@[simp] theorem takeFault_a2 (c : Cause) (s : State) : (takeFault c s).a2 = s.a2 := rfl
@[simp] theorem takeFault_st (c : Cause) (s : State) : (takeFault c s).st = .fault := rfl
@[simp] theorem takeFault_done (c : Cause) (s : State) : (takeFault c s).done = false := rfl
@[simp] theorem takeFault_cmderr (c : Cause) (s : State) : (takeFault c s).cmderr = s.cmderr := rfl
@[simp] theorem takeFault_cause (c : Cause) (s : State) : (takeFault c s).cause = c := rfl
@[simp] theorem takeFault_rv (c : Cause) (s : State) : (takeFault c s).rv = (Config.afterFault s.fresh).rv := rfl
@[simp] theorem takeFault_coded (c : Cause) (s : State) : (takeFault c s).coded = forgetFrom s.coded s.a0.toNat s.fresh := rfl
@[simp] theorem takeFault_out (c : Cause) (s : State) : (takeFault c s).out = Memory.unspecified s.fresh := rfl
@[simp] theorem takeFault_tmp (c : Cause) (s : State) : (takeFault c s).tmp = Memory.unspecified s.fresh := rfl
@[simp] theorem takeFault_params (c : Cause) (s : State) : (takeFault c s).params = s.params := rfl
@[simp] theorem takeFault_host (c : Cause) (s : State) : (takeFault c s).host = s.host := rfl
@[simp] theorem takeFault_hostRead (c : Cause) (s : State) : (takeFault c s).hostRead = s.hostRead := rfl
@[simp] theorem takeFault_fresh (c : Cause) (s : State) : (takeFault c s).fresh = s.fresh + 1 := rfl

/-! resetEvent -/

@[simp] theorem resetEvent_win (s : State) : (resetEvent s).win = State.reset.win := rfl
@[simp] theorem resetEvent_nbits (s : State) : (resetEvent s).nbits = State.reset.nbits := rfl
@[simp] theorem resetEvent_boff (s : State) : (resetEvent s).boff = State.reset.boff := rfl
@[simp] theorem resetEvent_plen (s : State) : (resetEvent s).plen = State.reset.plen := rfl
@[simp] theorem resetEvent_bitpos (s : State) : (resetEvent s).bitpos = State.reset.bitpos := rfl
@[simp] theorem resetEvent_dstate (s : State) : (resetEvent s).dstate = State.reset.dstate := rfl
@[simp] theorem resetEvent_skip (s : State) : (resetEvent s).skip = State.reset.skip := rfl
@[simp] theorem resetEvent_strip (s : State) : (resetEvent s).strip = State.reset.strip := rfl
@[simp] theorem resetEvent_runrem (s : State) : (resetEvent s).runrem = State.reset.runrem := rfl
@[simp] theorem resetEvent_wcode (s : State) : (resetEvent s).wcode = State.reset.wcode := rfl
@[simp] theorem resetEvent_w (s : State) : (resetEvent s).w = State.reset.w := rfl
@[simp] theorem resetEvent_cnt (s : State) : (resetEvent s).cnt = State.reset.cnt := rfl
@[simp] theorem resetEvent_alloc (s : State) : (resetEvent s).alloc = State.reset.alloc := rfl
@[simp] theorem resetEvent_act (s : State) : (resetEvent s).act = State.reset.act := rfl
@[simp] theorem resetEvent_a0 (s : State) : (resetEvent s).a0 = State.reset.a0 := rfl
@[simp] theorem resetEvent_a1 (s : State) : (resetEvent s).a1 = State.reset.a1 := rfl
@[simp] theorem resetEvent_a2 (s : State) : (resetEvent s).a2 = State.reset.a2 := rfl
@[simp] theorem resetEvent_st (s : State) : (resetEvent s).st = State.reset.st := rfl
@[simp] theorem resetEvent_done (s : State) : (resetEvent s).done = State.reset.done := rfl
@[simp] theorem resetEvent_cmderr (s : State) : (resetEvent s).cmderr = State.reset.cmderr := rfl
@[simp] theorem resetEvent_cause (s : State) : (resetEvent s).cause = State.reset.cause := rfl
@[simp] theorem resetEvent_rv (s : State) : (resetEvent s).rv = State.reset.rv := rfl
@[simp] theorem resetEvent_coded (s : State) : (resetEvent s).coded = Memory.unspecified s.fresh := rfl
@[simp] theorem resetEvent_out (s : State) : (resetEvent s).out = Memory.unspecified s.fresh := rfl
@[simp] theorem resetEvent_tmp (s : State) : (resetEvent s).tmp = Memory.unspecified s.fresh := rfl
@[simp] theorem resetEvent_params (s : State) : (resetEvent s).params = s.params := rfl
@[simp] theorem resetEvent_host (s : State) : (resetEvent s).host = s.host := rfl
@[simp] theorem resetEvent_hostRead (s : State) : (resetEvent s).hostRead = s.hostRead := rfl
@[simp] theorem resetEvent_fresh (s : State) : (resetEvent s).fresh = s.fresh + 1 := rfl

/-! advance and advanceField: only WIN, NBITS, BOFF and BITPOS change -/

@[simp] theorem advance_plen (n : Nat) (s : State) : (advance n s).plen = s.plen := by
  unfold advance readBits; split <;> rfl
@[simp] theorem advance_bitpos (n : Nat) (s : State) : (advance n s).bitpos = s.bitpos + n := by
  unfold advance readBits; split <;> rfl
@[simp] theorem advance_dstate (n : Nat) (s : State) : (advance n s).dstate = s.dstate := by
  unfold advance readBits; split <;> rfl
@[simp] theorem advance_skip (n : Nat) (s : State) : (advance n s).skip = s.skip := by
  unfold advance readBits; split <;> rfl
@[simp] theorem advance_strip (n : Nat) (s : State) : (advance n s).strip = s.strip := by
  unfold advance readBits; split <;> rfl
@[simp] theorem advance_runrem (n : Nat) (s : State) : (advance n s).runrem = s.runrem := by
  unfold advance readBits; split <;> rfl
@[simp] theorem advance_wcode (n : Nat) (s : State) : (advance n s).wcode = s.wcode := by
  unfold advance readBits; split <;> rfl
@[simp] theorem advance_w (n : Nat) (s : State) : (advance n s).w = s.w := by
  unfold advance readBits; split <;> rfl
@[simp] theorem advance_cnt (n : Nat) (s : State) : (advance n s).cnt = s.cnt := by
  unfold advance readBits; split <;> rfl
@[simp] theorem advance_alloc (n : Nat) (s : State) : (advance n s).alloc = s.alloc := by
  unfold advance readBits; split <;> rfl
@[simp] theorem advance_act (n : Nat) (s : State) : (advance n s).act = s.act := by
  unfold advance readBits; split <;> rfl
@[simp] theorem advance_a0 (n : Nat) (s : State) : (advance n s).a0 = s.a0 := by
  unfold advance readBits; split <;> rfl
@[simp] theorem advance_a1 (n : Nat) (s : State) : (advance n s).a1 = s.a1 := by
  unfold advance readBits; split <;> rfl
@[simp] theorem advance_a2 (n : Nat) (s : State) : (advance n s).a2 = s.a2 := by
  unfold advance readBits; split <;> rfl
@[simp] theorem advance_st (n : Nat) (s : State) : (advance n s).st = s.st := by
  unfold advance readBits; split <;> rfl
@[simp] theorem advance_done (n : Nat) (s : State) : (advance n s).done = s.done := by
  unfold advance readBits; split <;> rfl
@[simp] theorem advance_cmderr (n : Nat) (s : State) : (advance n s).cmderr = s.cmderr := by
  unfold advance readBits; split <;> rfl
@[simp] theorem advance_cause (n : Nat) (s : State) : (advance n s).cause = s.cause := by
  unfold advance readBits; split <;> rfl
@[simp] theorem advance_rv (n : Nat) (s : State) : (advance n s).rv = s.rv := by
  unfold advance readBits; split <;> rfl
@[simp] theorem advance_coded (n : Nat) (s : State) : (advance n s).coded = s.coded := by
  unfold advance readBits; split <;> rfl
@[simp] theorem advance_out (n : Nat) (s : State) : (advance n s).out = s.out := by
  unfold advance readBits; split <;> rfl
@[simp] theorem advance_tmp (n : Nat) (s : State) : (advance n s).tmp = s.tmp := by
  unfold advance readBits; split <;> rfl
@[simp] theorem advance_params (n : Nat) (s : State) : (advance n s).params = s.params := by
  unfold advance readBits; split <;> rfl
@[simp] theorem advance_host (n : Nat) (s : State) : (advance n s).host = s.host := by
  unfold advance readBits; split <;> rfl
@[simp] theorem advance_hostRead (n : Nat) (s : State) : (advance n s).hostRead = s.hostRead := by
  unfold advance readBits; split <;> rfl
@[simp] theorem advance_fresh (n : Nat) (s : State) : (advance n s).fresh = s.fresh := by
  unfold advance readBits; split <;> rfl

@[simp] theorem advanceField_plen (n : Nat) (s : State) : (advanceField n s).plen = s.plen := by
  unfold advanceField; split <;> simp [*]
@[simp] theorem advanceField_bitpos (n : Nat) (s : State) : (advanceField n s).bitpos = s.bitpos + n := by
  unfold advanceField; split <;> simp [*]
@[simp] theorem advanceField_dstate (n : Nat) (s : State) : (advanceField n s).dstate = s.dstate := by
  unfold advanceField; split <;> simp [*]
@[simp] theorem advanceField_skip (n : Nat) (s : State) : (advanceField n s).skip = s.skip := by
  unfold advanceField; split <;> simp [*]
@[simp] theorem advanceField_strip (n : Nat) (s : State) : (advanceField n s).strip = s.strip := by
  unfold advanceField; split <;> simp [*]
@[simp] theorem advanceField_runrem (n : Nat) (s : State) : (advanceField n s).runrem = s.runrem := by
  unfold advanceField; split <;> simp [*]
@[simp] theorem advanceField_wcode (n : Nat) (s : State) : (advanceField n s).wcode = s.wcode := by
  unfold advanceField; split <;> simp [*]
@[simp] theorem advanceField_w (n : Nat) (s : State) : (advanceField n s).w = s.w := by
  unfold advanceField; split <;> simp [*]
@[simp] theorem advanceField_cnt (n : Nat) (s : State) : (advanceField n s).cnt = s.cnt := by
  unfold advanceField; split <;> simp [*]
@[simp] theorem advanceField_alloc (n : Nat) (s : State) : (advanceField n s).alloc = s.alloc := by
  unfold advanceField; split <;> simp [*]
@[simp] theorem advanceField_act (n : Nat) (s : State) : (advanceField n s).act = s.act := by
  unfold advanceField; split <;> simp [*]
@[simp] theorem advanceField_a0 (n : Nat) (s : State) : (advanceField n s).a0 = s.a0 := by
  unfold advanceField; split <;> simp [*]
@[simp] theorem advanceField_a1 (n : Nat) (s : State) : (advanceField n s).a1 = s.a1 := by
  unfold advanceField; split <;> simp [*]
@[simp] theorem advanceField_a2 (n : Nat) (s : State) : (advanceField n s).a2 = s.a2 := by
  unfold advanceField; split <;> simp [*]
@[simp] theorem advanceField_st (n : Nat) (s : State) : (advanceField n s).st = s.st := by
  unfold advanceField; split <;> simp [*]
@[simp] theorem advanceField_done (n : Nat) (s : State) : (advanceField n s).done = s.done := by
  unfold advanceField; split <;> simp [*]
@[simp] theorem advanceField_cmderr (n : Nat) (s : State) : (advanceField n s).cmderr = s.cmderr := by
  unfold advanceField; split <;> simp [*]
@[simp] theorem advanceField_cause (n : Nat) (s : State) : (advanceField n s).cause = s.cause := by
  unfold advanceField; split <;> simp [*]
@[simp] theorem advanceField_rv (n : Nat) (s : State) : (advanceField n s).rv = s.rv := by
  unfold advanceField; split <;> simp [*]
@[simp] theorem advanceField_coded (n : Nat) (s : State) : (advanceField n s).coded = s.coded := by
  unfold advanceField; split <;> simp [*]
@[simp] theorem advanceField_out (n : Nat) (s : State) : (advanceField n s).out = s.out := by
  unfold advanceField; split <;> simp [*]
@[simp] theorem advanceField_tmp (n : Nat) (s : State) : (advanceField n s).tmp = s.tmp := by
  unfold advanceField; split <;> simp [*]
@[simp] theorem advanceField_params (n : Nat) (s : State) : (advanceField n s).params = s.params := by
  unfold advanceField; split <;> simp [*]
@[simp] theorem advanceField_host (n : Nat) (s : State) : (advanceField n s).host = s.host := by
  unfold advanceField; split <;> simp [*]
@[simp] theorem advanceField_hostRead (n : Nat) (s : State) : (advanceField n s).hostRead = s.hostRead := by
  unfold advanceField; split <;> simp [*]
@[simp] theorem advanceField_fresh (n : Nat) (s : State) : (advanceField n s).fresh = s.fresh := by
  unfold advanceField; split <;> simp [*]

/-! transformOut: only OUT changes -/

@[simp] theorem transformOut_win (r : Bool) (n l b : Nat) (s : State) : (transformOut r n l b s).win = s.win := by
  unfold transformOut; split <;> rfl
@[simp] theorem transformOut_nbits (r : Bool) (n l b : Nat) (s : State) : (transformOut r n l b s).nbits = s.nbits := by
  unfold transformOut; split <;> rfl
@[simp] theorem transformOut_boff (r : Bool) (n l b : Nat) (s : State) : (transformOut r n l b s).boff = s.boff := by
  unfold transformOut; split <;> rfl
@[simp] theorem transformOut_plen (r : Bool) (n l b : Nat) (s : State) : (transformOut r n l b s).plen = s.plen := by
  unfold transformOut; split <;> rfl
@[simp] theorem transformOut_bitpos (r : Bool) (n l b : Nat) (s : State) : (transformOut r n l b s).bitpos = s.bitpos := by
  unfold transformOut; split <;> rfl
@[simp] theorem transformOut_dstate (r : Bool) (n l b : Nat) (s : State) : (transformOut r n l b s).dstate = s.dstate := by
  unfold transformOut; split <;> rfl
@[simp] theorem transformOut_skip (r : Bool) (n l b : Nat) (s : State) : (transformOut r n l b s).skip = s.skip := by
  unfold transformOut; split <;> rfl
@[simp] theorem transformOut_strip (r : Bool) (n l b : Nat) (s : State) : (transformOut r n l b s).strip = s.strip := by
  unfold transformOut; split <;> rfl
@[simp] theorem transformOut_runrem (r : Bool) (n l b : Nat) (s : State) : (transformOut r n l b s).runrem = s.runrem := by
  unfold transformOut; split <;> rfl
@[simp] theorem transformOut_wcode (r : Bool) (n l b : Nat) (s : State) : (transformOut r n l b s).wcode = s.wcode := by
  unfold transformOut; split <;> rfl
@[simp] theorem transformOut_w (r : Bool) (n l b : Nat) (s : State) : (transformOut r n l b s).w = s.w := by
  unfold transformOut; split <;> rfl
@[simp] theorem transformOut_cnt (r : Bool) (n l b : Nat) (s : State) : (transformOut r n l b s).cnt = s.cnt := by
  unfold transformOut; split <;> rfl
@[simp] theorem transformOut_alloc (r : Bool) (n l b : Nat) (s : State) : (transformOut r n l b s).alloc = s.alloc := by
  unfold transformOut; split <;> rfl
@[simp] theorem transformOut_act (r : Bool) (n l b : Nat) (s : State) : (transformOut r n l b s).act = s.act := by
  unfold transformOut; split <;> rfl
@[simp] theorem transformOut_a0 (r : Bool) (n l b : Nat) (s : State) : (transformOut r n l b s).a0 = s.a0 := by
  unfold transformOut; split <;> rfl
@[simp] theorem transformOut_a1 (r : Bool) (n l b : Nat) (s : State) : (transformOut r n l b s).a1 = s.a1 := by
  unfold transformOut; split <;> rfl
@[simp] theorem transformOut_a2 (r : Bool) (n l b : Nat) (s : State) : (transformOut r n l b s).a2 = s.a2 := by
  unfold transformOut; split <;> rfl
@[simp] theorem transformOut_st (r : Bool) (n l b : Nat) (s : State) : (transformOut r n l b s).st = s.st := by
  unfold transformOut; split <;> rfl
@[simp] theorem transformOut_done (r : Bool) (n l b : Nat) (s : State) : (transformOut r n l b s).done = s.done := by
  unfold transformOut; split <;> rfl
@[simp] theorem transformOut_cmderr (r : Bool) (n l b : Nat) (s : State) : (transformOut r n l b s).cmderr = s.cmderr := by
  unfold transformOut; split <;> rfl
@[simp] theorem transformOut_cause (r : Bool) (n l b : Nat) (s : State) : (transformOut r n l b s).cause = s.cause := by
  unfold transformOut; split <;> rfl
@[simp] theorem transformOut_rv (r : Bool) (n l b : Nat) (s : State) : (transformOut r n l b s).rv = s.rv := by
  unfold transformOut; split <;> rfl
@[simp] theorem transformOut_coded (r : Bool) (n l b : Nat) (s : State) : (transformOut r n l b s).coded = s.coded := by
  unfold transformOut; split <;> rfl
@[simp] theorem transformOut_tmp (r : Bool) (n l b : Nat) (s : State) : (transformOut r n l b s).tmp = s.tmp := by
  unfold transformOut; split <;> rfl
@[simp] theorem transformOut_params (r : Bool) (n l b : Nat) (s : State) : (transformOut r n l b s).params = s.params := by
  unfold transformOut; split <;> rfl
@[simp] theorem transformOut_host (r : Bool) (n l b : Nat) (s : State) : (transformOut r n l b s).host = s.host := by
  unfold transformOut; split <;> rfl
@[simp] theorem transformOut_hostRead (r : Bool) (n l b : Nat) (s : State) : (transformOut r n l b s).hostRead = s.hostRead := by
  unfold transformOut; split <;> rfl
@[simp] theorem transformOut_fresh (r : Bool) (n l b : Nat) (s : State) : (transformOut r n l b s).fresh = s.fresh := by
  unfold transformOut; split <;> rfl

end Sys2Proof.Machine
end

