-- ==== Sys2Proof/Laws/Memory.lean ====
section
/-! SUPPORT. What the memory operations do: reading after a write, and that each keeps the canonical form and the capacity. -/

namespace Sys2Proof.Machine

open Sys2Proof.Safety

/-! One cell -/

theorem cellAt_putCell (l : List Host.Cell) (a x : Nat) (b : Byte) :
    cellAt (putCell l a b) x = if x = a then some b else cellAt l x := by
  induction l with
  | nil => simp [putCell, cellAt]
  | cons c rest ih =>
    obtain ⟨y, d⟩ := c
    simp only [putCell]
    split
    · simp [cellAt]
    · split
      · subst_vars; by_cases h : x = y <;> simp [cellAt, h]
      · by_cases h : x = y
        · subst h; simp [cellAt]; omega
        · simp [cellAt, h, ih]

theorem mem_putCell {l : List Host.Cell} {a : Nat} {b : Byte} {c : Host.Cell} (h : c ∈ putCell l a b) :
    c = (a, b) ∨ c ∈ l := by
  induction l with
  | nil => simpa [putCell] using h
  | cons d rest ih =>
    simp only [putCell] at h
    split at h
    · simpa using h
    · split at h
      · rcases List.mem_cons.1 h with h | h
        · exact .inl h
        · exact .inr (List.mem_cons_of_mem _ h)
      · rcases List.mem_cons.1 h with h | h
        · exact .inr (h ▸ List.mem_cons_self)
        · exact (ih h).imp id (List.mem_cons_of_mem _)

theorem risingCells_cons (c : Host.Cell) (l : List Host.Cell) :
    risingCells (c :: l) = true ↔ (∀ d ∈ l.head?, c.1 < d.1) ∧ risingCells l = true := by
  cases l <;> simp [risingCells]

theorem head_putCell {l : List Host.Cell} {a : Nat} {b : Byte} {c : Host.Cell} (h : c ∈ (putCell l a b).head?) :
    c.1 = a ∨ c ∈ l.head? := by
  cases l with
  | nil => simp [putCell] at h; simp [← h]
  | cons d rest =>
    simp only [putCell] at h
    split at h
    · simp at h; simp [← h]
    · split at h <;> simp at h <;> simp [← h]

theorem risingCells_putCell (l : List Host.Cell) (a : Nat) (b : Byte) (h : risingCells l = true) :
    risingCells (putCell l a b) = true := by
  induction l with
  | nil => rfl
  | cons c rest ih =>
    have ⟨hc, hr⟩ := (risingCells_cons c rest).1 h
    simp only [putCell]
    split
    · rw [risingCells_cons]; exact ⟨by simpa, h⟩
    · split
      · subst_vars; rw [risingCells_cons]; exact ⟨hc, hr⟩
      · rw [risingCells_cons]
        refine ⟨fun d hd => ?_, ih hr⟩
        rcases head_putCell hd with hd | hd
        · simp only [hd]; omega
        · exact hc d hd

/-! Every cell of a rising list lies above its head -/

theorem risingCells_lt {c : Host.Cell} {l : List Host.Cell} (h : risingCells (c :: l) = true) :
    risingCells l = true ∧ ∀ d ∈ l, c.1 < d.1 := by
  induction l generalizing c with
  | nil => simp [risingCells]
  | cons e rest ih =>
    have ⟨hc, hr⟩ := (risingCells_cons c _).1 h
    refine ⟨hr, fun d hd => ?_⟩
    have hce : c.1 < e.1 := hc e rfl
    rcases List.mem_cons.1 hd with rfl | hd
    · exact hce
    · exact hce.trans ((ih hr).2 d hd)

theorem risingCells_of_forall {c : Host.Cell} {l : List Host.Cell} (h : ∀ d ∈ l, c.1 < d.1)
    (hl : risingCells l = true) : risingCells (c :: l) = true :=
  (risingCells_cons c l).2 ⟨fun d hd => h d (List.mem_of_mem_head? hd), hl⟩

theorem risingCells_filter (p : Host.Cell → Bool) (l : List Host.Cell) (h : risingCells l = true) :
    risingCells (l.filter p) = true := by
  induction l with
  | nil => rfl
  | cons c rest ih =>
    have ⟨hr, hlt⟩ := risingCells_lt h
    rw [List.filter_cons]
    split
    · exact risingCells_of_forall (fun d hd => hlt d (List.mem_of_mem_filter hd)) (ih hr)
    · exact ih hr

/-! Marks -/

theorem fallingMarks_cons (c : Nat × Nat) (l : List (Nat × Nat)) :
    fallingMarks (c :: l) = true ↔ (∀ d ∈ l.head?, d.1 < c.1) ∧ fallingMarks l = true := by
  cases l <;> simp [fallingMarks]

theorem fallingMarks_lt {c : Nat × Nat} {l : List (Nat × Nat)} (h : fallingMarks (c :: l) = true) :
    fallingMarks l = true ∧ ∀ d ∈ l, d.1 < c.1 := by
  induction l generalizing c with
  | nil => simp [fallingMarks]
  | cons e rest ih =>
    have ⟨hc, hr⟩ := (fallingMarks_cons c _).1 h
    refine ⟨hr, fun d hd => ?_⟩
    have hce : e.1 < c.1 := hc e rfl
    rcases List.mem_cons.1 hd with rfl | hd
    · exact hce
    · exact ((ih hr).2 d hd).trans hce

theorem fallingMarks_of_forall {c : Nat × Nat} {l : List (Nat × Nat)} (h : ∀ d ∈ l, d.1 < c.1)
    (hl : fallingMarks l = true) : fallingMarks (c :: l) = true :=
  (fallingMarks_cons c l).2 ⟨fun d hd => h d (List.mem_of_mem_head? hd), hl⟩

theorem fallingMarks_filter (p : Nat × Nat → Bool) (l : List (Nat × Nat)) (h : fallingMarks l = true) :
    fallingMarks (l.filter p) = true := by
  induction l with
  | nil => rfl
  | cons c rest ih =>
    have ⟨hr, hlt⟩ := fallingMarks_lt h
    rw [List.filter_cons]
    split
    · exact fallingMarks_of_forall (fun d hd => hlt d (List.mem_of_mem_filter hd)) (ih hr)
    · exact ih hr

/-! The canonical form is kept -/

theorem memoryWf_unspecified (g : Nat) : memoryWf (Memory.unspecified g) = true := rfl

theorem memoryWf_writeByte (m : Memory) (a : Nat) (b : Byte) (h : memoryWf m = true) :
    memoryWf (writeByte m a b) = true := by
  simp only [memoryWf, Bool.and_eq_true, writeByte] at h ⊢
  exact ⟨risingCells_putCell _ _ _ h.1, h.2⟩

theorem memoryWf_writeBytes (m : Memory) (a : Nat) (bs : List Byte) (h : memoryWf m = true) :
    memoryWf (writeBytes m a bs) = true := by
  induction bs generalizing m a with
  | nil => exact h
  | cons b rest ih => exact ih _ _ (memoryWf_writeByte m a b h)

theorem memoryWf_forgetFrom (m : Memory) (a g : Nat) (h : memoryWf m = true) :
    memoryWf (forgetFrom m a g) = true := by
  simp only [memoryWf, Bool.and_eq_true, forgetFrom] at h ⊢
  exact ⟨risingCells_filter _ _ h.1,
    fallingMarks_of_forall (fun d hd => by simpa using (List.mem_filter.1 hd).2) (fallingMarks_filter _ _ h.2)⟩

/-! The capacity is kept -/

theorem cellsBelow_unspecified (cap g : Nat) : CellsBelow cap (Memory.unspecified g) := by
  intro c hc; cases hc

theorem cellsBelow_writeByte {cap : Nat} {m : Memory} {a : Nat} {b : Byte} (h : CellsBelow cap m) (ha : a < cap) :
    CellsBelow cap (writeByte m a b) := fun c hc => by
  rcases mem_putCell hc with rfl | hc
  · exact ha
  · exact h c hc

theorem cellsBelow_writeBytes {cap : Nat} {m : Memory} {a : Nat} {bs : List Byte} (h : CellsBelow cap m)
    (ha : bs ≠ [] → a + bs.length ≤ cap) : CellsBelow cap (writeBytes m a bs) := by
  induction bs generalizing m a with
  | nil => exact h
  | cons b rest ih =>
    have := ha (by simp)
    simp only [List.length_cons] at this
    exact ih (cellsBelow_writeByte h (by omega)) (fun _ => by omega)

theorem cellsBelow_forgetFrom {cap : Nat} {m : Memory} (a g : Nat) (h : CellsBelow cap m) :
    CellsBelow cap (forgetFrom m a g) := fun c hc => h c (List.mem_of_mem_filter hc)

/-! Reading -/

theorem marks_writeBytes (m : Memory) (a : Nat) (bs : List Byte) : (writeBytes m a bs).marks = m.marks := by
  induction bs generalizing m a with
  | nil => rfl
  | cons b rest ih => exact ih _ _

theorem cellAt_writeBytes (m : Memory) (a : Nat) (bs : List Byte) (x : Nat) :
    cellAt (writeBytes m a bs).cells x =
      if a ≤ x ∧ x < a + bs.length then some (bs.getD (x - a) 0) else cellAt m.cells x := by
  induction bs generalizing m a with
  | nil => simp only [writeBytes, List.length_nil]; rw [if_neg (by omega)]
  | cons b rest ih =>
    rw [writeBytes, ih]
    simp only [writeByte, cellAt_putCell, List.length_cons]
    by_cases hx : x = a
    · subst hx; rw [if_neg (by omega), if_pos rfl, if_pos (by omega)]; simp
    · by_cases h1 : a + 1 ≤ x ∧ x < a + 1 + rest.length
      · rw [if_pos h1, if_pos (by omega)]
        obtain ⟨k, rfl⟩ : ∃ k, x = a + 1 + k := ⟨x - (a + 1), by omega⟩
        have e1 : a + 1 + k - (a + 1) = k := by omega
        have e2 : a + 1 + k - a = k + 1 := by omega
        rw [e1, e2, List.getD_cons_succ]
      · rw [if_neg h1, if_neg hx, if_neg (by omega)]

/-- Reading after a list was written: the list inside its range, what was there elsewhere. -/
theorem readByte_writeBytes (sp : Space) (m : Memory) (a : Nat) (bs : List Byte) (x : Nat) :
    readByte sp (writeBytes m a bs) x =
      if a ≤ x ∧ x < a + bs.length then bs.getD (x - a) 0 else readByte sp m x := by
  unfold readByte
  rw [cellAt_writeBytes, marks_writeBytes]
  by_cases h : a ≤ x ∧ x < a + bs.length <;> simp [h]

theorem length_readBytes (sp : Space) (m : Memory) (a n : Nat) : (readBytes sp m a n).length = n := by
  induction n generalizing a with
  | zero => rfl
  | succ n ih => simp [readBytes, ih]

theorem getD_readBytes (sp : Space) (m : Memory) (a n k : Nat) (h : k < n) :
    (readBytes sp m a n).getD k 0 = readByte sp m (a + k) := by
  induction n generalizing a k with
  | zero => omega
  | succ n ih =>
    cases k with
    | zero => simp [readBytes]
    | succ k => rw [readBytes, List.getD_cons_succ, ih _ _ (by omega)]; congr 1; omega

/-- Reading back a list that was written. -/
theorem readBytes_writeBytes (sp : Space) (m : Memory) (a : Nat) (bs : List Byte) :
    readBytes sp (writeBytes m a bs) a bs.length = bs := by
  apply List.ext_getElem (length_readBytes ..)
  intro k h1 h2
  have e := getD_readBytes sp (writeBytes m a bs) a bs.length k h2
  rw [readByte_writeBytes, if_pos (by omega)] at e
  simpa [List.getD_eq_getElem?_getD, h1, h2] using e

theorem cellAt_filter (l : List Host.Cell) (p : Nat) (a : Nat) :
    cellAt (l.filter fun c => decide (c.1 < p)) a = if a < p then cellAt l a else none := by
  induction l with
  | nil => simp [cellAt]
  | cons c rest ih =>
    obtain ⟨y, d⟩ := c
    rw [List.filter_cons]
    by_cases hy : y < p
    · by_cases ha : a = y
      · subst ha; simp [hy, cellAt]
      · simp [hy, cellAt, ha, ih]
    · by_cases ha : a = y
      · subst ha; simp [hy, ih]
      · simp [hy, cellAt, ha, ih]

theorem occasionAt_filter (l : List (Nat × Nat)) (p a : Nat) (h : a < p) :
    occasionAt (l.filter fun c => decide (c.1 < p)) a = occasionAt l a := by
  induction l with
  | nil => rfl
  | cons c rest ih =>
    rw [List.filter_cons]
    split
    · simp [occasionAt, ih]
    · rename_i hc
      have : ¬ c.1 ≤ a := by simp at hc; omega
      simp [occasionAt, this, ih]

/-- Below the address from which a memory was forgotten every byte is as before. -/
theorem readByte_forgetFrom (sp : Space) (m : Memory) (p g a : Nat) (h : a < p) :
    readByte sp (forgetFrom m p g) a = readByte sp m a := by
  have h1 : ¬ p ≤ a := by omega
  simp [readByte, forgetFrom, cellAt_filter, occasionAt, occasionAt_filter, h, h1]

end Sys2Proof.Machine
end

