-- ==== Sys2Proof/Laws/PerInstr.lean ====
section
/-! SUPPORT. For each instruction: its encoding has at most 32 bits and no bit after its own (30_encoding.md R97, R100), so that in the stream the next field's bits can follow it with no gap (R90). -/

namespace Sys2Proof.Laws.EncodingFits

/-- The encoding of an instruction fits its own bits: the low 32 - bitLength bits of the word are zero. -/
def Statement (i : Instr) : Prop :=
  i.wf = true → i.bitLength ≤ 32 ∧ (encode i).toNat % 2 ^ (32 - i.bitLength) = 0

theorem hdr (k : BitVec 2) (v : BitVec 16) : Statement (.hdr k v) := by
  intro _
  simp only [Instr.bitLength, encode, BitVec.toNat_append, Nat.shiftLeft_eq, BitVec.toNat_ofNat, Nat.zero_mod, Nat.or_zero]
  omega

/-- What the eight RUN encodings share. -/
theorem encodeRun_fits (c : BitVec 3) (n : BitVec 7) : (encodeRun c n).toNat % 2 ^ 22 = 0 := by
  simp only [encodeRun, BitVec.toNat_append, Nat.shiftLeft_eq, BitVec.toNat_ofNat, Nat.zero_mod, Nat.or_zero]
  omega

theorem runC0 (n : BitVec 7) : Statement (.runC0 n) := fun _ => ⟨Nat.le_of_ble_eq_true rfl, encodeRun_fits 0 n⟩

theorem runC1 (n : BitVec 7) : Statement (.runC1 n) := fun _ => ⟨Nat.le_of_ble_eq_true rfl, encodeRun_fits 1 n⟩

theorem runC2 (n : BitVec 7) : Statement (.runC2 n) := fun _ => ⟨Nat.le_of_ble_eq_true rfl, encodeRun_fits 2 n⟩

theorem runC3 (n : BitVec 7) : Statement (.runC3 n) := fun _ => ⟨Nat.le_of_ble_eq_true rfl, encodeRun_fits 3 n⟩

theorem runC4 (n : BitVec 7) : Statement (.runC4 n) := fun _ => ⟨Nat.le_of_ble_eq_true rfl, encodeRun_fits 4 n⟩

theorem runC5 (n : BitVec 7) : Statement (.runC5 n) := fun _ => ⟨Nat.le_of_ble_eq_true rfl, encodeRun_fits 5 n⟩

theorem runC6 (n : BitVec 7) : Statement (.runC6 n) := fun _ => ⟨Nat.le_of_ble_eq_true rfl, encodeRun_fits 6 n⟩

theorem runC7 (n : BitVec 7) : Statement (.runC7 n) := fun _ => ⟨Nat.le_of_ble_eq_true rfl, encodeRun_fits 7 n⟩

theorem endRec : Statement .endRec := by unfold Statement; decide

theorem sample (w : BitVec 6) (f : Word) : Statement (.sample w f) := by
  intro h
  have hw : w.toNat ≤ 32 := by
    simp only [Instr.wf, residualOk, Bool.and_eq_true, decide_eq_true_eq] at h
    exact h.1
  refine ⟨hw, ?_⟩
  simp only [Instr.bitLength, encode, BitVec.toNat_shiftLeft, Nat.shiftLeft_eq]
  rw [Nat.mod_mod_of_dvd _ (Nat.pow_dvd_pow 2 (Nat.sub_le 32 w.toNat))]
  exact Nat.mul_mod_left _ _

theorem initbuffer : Statement .initbuffer := by unfold Statement; decide

theorem clearbits : Statement .clearbits := by unfold Statement; decide

theorem loadbits : Statement .loadbits := by unfold Statement; decide

theorem readbits (n : BitVec 6) : Statement (.readbits n) := fun _ => ⟨Nat.le_refl 32, Nat.mod_one _⟩

theorem decode : Statement .decode := by unfold Statement; decide

theorem xformF : Statement .xformF := by unfold Statement; decide

theorem xformR : Statement .xformR := by unfold Statement; decide

end Sys2Proof.Laws.EncodingFits
end

