-- ==== Sys2Proof/Laws/Reader.lean ====
section
/-! SUPPORT. What the Bit Reader's shared operations do: the arithmetic of shifts and masks, and the cases of a read. -/

namespace Sys2Proof.Machine

open Sys2Proof.Safety

theorem toNat_shl32 (x : Word) (k : Nat) : (shl32 x k).toNat = x.toNat * 2 ^ k % 2 ^ 32 := by
  simp [shl32, BitVec.toNat_shiftLeft, Nat.shiftLeft_eq]

theorem toNat_shr32 (x : Word) (k : Nat) : (shr32 x k).toNat = x.toNat / 2 ^ k := by
  simp [shr32, BitVec.toNat_ushiftRight, Nat.shiftRight_eq_div_pow]

theorem toNat_and_mask32 (x : Word) (k : Nat) : (x &&& mask32 k).toNat = x.toNat % 2 ^ k := by
  have e : (mask32 k).toNat = (2 ^ k - 1) % 2 ^ 32 := by simp [mask32]
  rw [BitVec.toNat_and, e]
  have hx := x.isLt
  by_cases hk : k ≤ 32
  · have h1 : 2 ^ k ≤ 2 ^ 32 := Nat.pow_le_pow_right (by omega) hk
    have h2 : 0 < 2 ^ k := Nat.pow_pos (by omega)
    rw [Nat.mod_eq_of_lt (by omega : 2 ^ k - 1 < 2 ^ 32), Nat.and_two_pow_sub_one_eq_mod]
  · obtain ⟨j, rfl⟩ : ∃ j, k = 32 + j := ⟨k - 32, by omega⟩
    have h2 : 0 < 2 ^ j := Nat.pow_pos (by omega)
    have e2 : (2 ^ (32 + j) - 1) % 2 ^ 32 = 2 ^ 32 - 1 := by
      rw [Nat.pow_add]
      obtain ⟨q, hq⟩ : ∃ q, 2 ^ j = q + 1 := ⟨2 ^ j - 1, by omega⟩
      rw [hq]
      have : 2 ^ 32 * (q + 1) - 1 = (2 ^ 32 - 1) + 2 ^ 32 * q := by omega
      rw [this, Nat.add_mul_mod_self_left]; rfl
    rw [e2, Nat.and_two_pow_sub_one_eq_mod, Nat.mod_eq_of_lt hx, Nat.mod_eq_of_lt]
    calc x.toNat < 2 ^ 32 * 1 := by simpa using hx
      _ ≤ 2 ^ 32 * 2 ^ j := Nat.mul_le_mul_left _ h2
      _ = 2 ^ (32 + j) := by rw [Nat.pow_add]

theorem toNat_be32 (b0 b1 b2 b3 : Byte) :
    (be32 b0 b1 b2 b3).toNat =
      b0.toNat * 2 ^ 24 + b1.toNat * 2 ^ 16 + b2.toNat * 2 ^ 8 + b3.toNat := by
  have h0 := b0.isLt
  have h1 := b1.isLt
  have h2 := b2.isLt
  have h3 := b3.isLt
  simp only [be32, BitVec.toNat_append, Nat.shiftLeft_eq]
  rw [← Nat.shiftLeft_eq, ← Nat.shiftLeft_eq, ← Nat.shiftLeft_eq,
    ← Nat.shiftLeft_add_eq_or_of_lt h1, ← Nat.shiftLeft_add_eq_or_of_lt h2,
    ← Nat.shiftLeft_add_eq_or_of_lt h3]
  simp only [Nat.shiftLeft_eq]
  omega

/-- The word a refill at BOFF delivers: that of the buffer, or zero at its end and beyond. -/
def refill (s : State) : Word := if s.boff.toNat < s.plen.toNat then refillWord s else 0

/-- BOFF after a refill. -/
def boffAfter (s : State) : Word := if s.boff.toNat < s.plen.toNat then s.boff + 4 else s.boff

/-- READBITS within the window. -/
theorem readBits_within {n : Nat} {s : State} (h : n < s.nbits.toNat) :
    readBits n s =
      (shr32 s.win (s.nbits.toNat - n),
        { s with
          win := s.win &&& mask32 (s.nbits.toNat - n), nbits := BitVec.ofNat 6 (s.nbits.toNat - n)
          bitpos := s.bitpos + n }) := by
  simp [readBits, h]

/-- READBITS with a refill. -/
theorem readBits_refill {n : Nat} {s : State} (h : s.nbits.toNat ≤ n) :
    readBits n s =
      (shl32 s.win (n - s.nbits.toNat) ||| shr32 (refill s) (s.nbits.toNat + 32 - n),
        { s with
          win := refill s &&& mask32 (s.nbits.toNat + 32 - n)
          nbits := BitVec.ofNat 6 (s.nbits.toNat + 32 - n)
          boff := boffAfter s, bitpos := s.bitpos + n }) := by
  have : ¬ n < s.nbits.toNat := by omega
  simp [readBits, this, refill, boffAfter]

/-- BOFF after a refill as a number: it stays inside the buffer. -/
theorem toNat_boffAfter {s : State} (h : ReaderInRange s) :
    (boffAfter s).toNat = if s.boff.toNat < s.plen.toNat then s.boff.toNat + 4 else s.boff.toNat := by
  obtain ⟨-, -, hb, hp, -, -⟩ := h
  have := s.plen.isLt
  unfold boffAfter
  split
  · rw [BitVec.toNat_add, show (4 : Word).toNat = 4 from rfl]; omega
  · rfl

/-- A read of 1 to 32 bits as numbers, register by register; the other registers and the memories are as before. -/
theorem readBits_parts {s : State} {n : Nat} (h1 : 1 ≤ n) (h32 : n ≤ 32) (hr : ReaderInRange s) :
    (readBits n s).1.toNat =
      (if n < s.nbits.toNat then s.win.toNat / 2 ^ (s.nbits.toNat - n)
       else s.win.toNat * 2 ^ (n - s.nbits.toNat) + (refill s).toNat / 2 ^ (s.nbits.toNat + 32 - n))
    ∧ (advance n s).nbits.toNat = (if n < s.nbits.toNat then s.nbits.toNat - n else s.nbits.toNat + 32 - n)
    ∧ (advance n s).win.toNat =
      (if n < s.nbits.toNat then s.win.toNat % 2 ^ (s.nbits.toNat - n)
       else (refill s).toNat % 2 ^ (s.nbits.toNat + 32 - n))
    ∧ (advance n s).boff = (if n < s.nbits.toNat then s.boff else boffAfter s)
    ∧ advance n s =
        { s with
          win := (advance n s).win, nbits := (advance n s).nbits
          boff := (advance n s).boff, bitpos := s.bitpos + n } := by
  obtain ⟨hn, hw, -, -, -, -⟩ := hr
  have small : ∀ k, k ≤ 32 → (BitVec.ofNat 6 k).toNat = k := by intro k hk; simp; omega
  by_cases h : n < s.nbits.toNat
  · simp only [advance, readBits_within h, if_pos h, toNat_shr32, toNat_and_mask32]
    exact ⟨trivial, small _ (by omega), trivial, trivial, trivial⟩
  · simp only [advance, readBits_refill (Nat.le_of_not_lt h), if_neg h, toNat_and_mask32]
    refine ⟨?_, small _ (by omega), trivial, trivial, trivial⟩
    have e1 : 2 ^ s.nbits.toNat * 2 ^ (n - s.nbits.toNat) = 2 ^ n := by rw [← Nat.pow_add]; congr 1; omega
    have e2 : (2 : Nat) ^ n ≤ 2 ^ 32 := Nat.pow_le_pow_right (by omega) h32
    have e3 : s.win.toNat * 2 ^ (n - s.nbits.toNat) < 2 ^ n := by
      rw [← e1]; exact Nat.mul_lt_mul_of_pos_right hw (Nat.pow_pos (by omega))
    rw [BitVec.toNat_or, toNat_shl32, toNat_shr32, Nat.mod_eq_of_lt (by omega), Nat.mul_comm,
      Nat.two_pow_add_eq_or_of_lt]
    rw [Nat.div_lt_iff_lt_mul (Nat.pow_pos (by omega)), ← Nat.pow_add,
      show n - s.nbits.toNat + (s.nbits.toNat + 32 - n) = 32 by omega]
    exact (refill s).isLt

/-- The bits in the window followed by those of the next word, as one number of NBITS + 32 bits. -/
def supply (s : State) : Nat := s.win.toNat * 2 ^ 32 + (refill s).toNat

/-- A read delivers the top n bits of the supply, whether or not it refills (R127). -/
theorem readBits_value {s : State} {n : Nat} (h1 : 1 ≤ n) (h32 : n ≤ 32) (hr : ReaderInRange s) :
    (readBits n s).1.toNat = supply s / 2 ^ (s.nbits.toNat + 32 - n) := by
  rw [(readBits_parts h1 h32 hr).1, supply]
  have hR := (refill s).isLt
  split
  · rw [show s.nbits.toNat + 32 - n = 32 + (s.nbits.toNat - n) by omega, Nat.pow_add, ← Nat.div_div_eq_div_mul,
      Nat.mul_comm, Nat.mul_add_div (by decide), Nat.div_eq_of_lt hR, Nat.add_zero]
  · have e : 2 ^ 32 = 2 ^ (s.nbits.toNat + 32 - n) * 2 ^ (n - s.nbits.toNat) := by
      rw [← Nat.pow_add]; congr 1; omega
    rw [e, Nat.mul_left_comm, Nat.mul_add_div (Nat.pow_pos (by omega))]

/-- The next read delivers the following m bits of the supply, as long as both fit one word. -/
theorem readBits_value_second {s : State} {n m : Nat} (h1 : 1 ≤ n) (hm : 1 ≤ m) (h32 : n + m ≤ 32)
    (hr : ReaderInRange s) (hr' : ReaderInRange (advance n s)) :
    (readBits m (advance n s)).1.toNat = supply s / 2 ^ (s.nbits.toNat + 32 - (n + m)) % 2 ^ m := by
  obtain ⟨-, hn, hw, hb, he⟩ := readBits_parts h1 (by omega) hr
  have hR := (refill s).isLt
  by_cases h : n < s.nbits.toNat
  · have hre : refill (advance n s) = refill s := by
      rw [if_pos h] at hb
      rw [he, hb]; rfl
    rw [readBits_value hm (by omega) hr', hn, if_pos h, supply, hw, if_pos h, hre, supply]
    obtain ⟨k, hk⟩ : ∃ k, s.nbits.toNat = n + k := ⟨s.nbits.toNat - n, by omega⟩
    have e1 : n + k - n = k := by omega
    have e2 : n + k + 32 - (n + m) = k + 32 - m := by omega
    rw [hk, e1, e2]
    have e3 : s.win.toNat * 2 ^ 32 + (refill s).toNat
        = s.win.toNat / 2 ^ k * 2 ^ m * 2 ^ (k + 32 - m) + (s.win.toNat % 2 ^ k * 2 ^ 32 + (refill s).toNat) := by
      have : 2 ^ m * 2 ^ (k + 32 - m) = 2 ^ k * 2 ^ 32 := by rw [← Nat.pow_add, ← Nat.pow_add]; congr 1; omega
      rw [Nat.mul_assoc, this, ← Nat.add_assoc, ← Nat.mul_assoc, ← Nat.add_mul, Nat.div_add_mod']
    rw [e3, Nat.add_comm (s.win.toNat / 2 ^ k * 2 ^ m * 2 ^ (k + 32 - m)),
      Nat.add_mul_div_right _ _ (Nat.two_pow_pos (k + 32 - m)), Nat.add_mul_mod_self_right]
    refine (Nat.mod_eq_of_lt ?_).symm
    rw [Nat.div_lt_iff_lt_mul (Nat.pow_pos (by omega)), ← Nat.pow_add, show m + (k + 32 - m) = k + 32 by omega]
    have : s.win.toNat % 2 ^ k < 2 ^ k := Nat.mod_lt _ (Nat.pow_pos (by omega))
    calc s.win.toNat % 2 ^ k * 2 ^ 32 + (refill s).toNat
        < (s.win.toNat % 2 ^ k + 1) * 2 ^ 32 := by omega
      _ ≤ 2 ^ k * 2 ^ 32 := Nat.mul_le_mul_right _ this
      _ = 2 ^ (k + 32) := by rw [Nat.pow_add]
  · obtain ⟨k, hk⟩ : ∃ k, n = s.nbits.toNat + k := ⟨n - s.nbits.toNat, by omega⟩
    have e1 : s.nbits.toNat + 32 - n = 32 - k := by omega
    have e2 : s.nbits.toNat + 32 - (n + m) = 32 - k - m := by omega
    rw [if_neg h, e1] at hn
    rw [if_neg h, e1] at hw
    have e3 : supply s % 2 ^ (32 - k) = (refill s).toNat % 2 ^ (32 - k) := by
      have : 2 ^ 32 = 2 ^ k * 2 ^ (32 - k) := by rw [← Nat.pow_add]; congr 1; omega
      rw [supply, this, ← Nat.mul_assoc, Nat.add_comm, Nat.add_mul_mod_self_right]
    have e4 : 2 ^ (32 - k) = 2 ^ (32 - k - m) * 2 ^ m := by rw [← Nat.pow_add]; congr 1; omega
    have hR' := (refill (advance n s)).isLt
    rw [readBits_value hm (by omega) hr', supply, hn, hw, e2, ← e3,
      show 32 - k + 32 - m = 32 + (32 - k - m) by omega, Nat.pow_add, ← Nat.div_div_eq_div_mul, Nat.mul_comm,
      Nat.mul_add_div (by decide), Nat.div_eq_of_lt hR', Nat.add_zero, e4, Nat.mod_mul_right_div_self]

/-- Where the reader's invariants hold no read leaves CODED (R79). -/
theorem refillOutside_of_inRange {s : State} (h : ReaderInRange s) (n : Nat) : refillOutside n s = false := by
  obtain ⟨-, -, hb, hp, hle, hcap⟩ := h
  simp only [refillOutside, Bool.and_eq_false_iff, decide_eq_false_iff_not]
  omega

theorem fieldOutside_of_inRange {s : State} (h : ReaderInRange s) (n : Nat) : fieldOutside n s = false := by
  simp [fieldOutside, refillOutside_of_inRange h]

end Sys2Proof.Machine
end

