-- ==== Sys2Proof/Laws/Step.lean ====
section
/-! SUPPORT. What each meaning and the step can do when they answer a next state, said once: proofs cite these and unfold nothing. -/

namespace Sys2Proof.Machine

open Sys2Proof.Safety

/-- A command runs in IDLE and does nothing in FAULT. -/
theorem submit_next {s t : State} {run : State → Host.Outcome State Fault Refusal} (h : submit s run = .next t) :
    (s.st = .idle ∧ run s = .next t) ∨ (s.st = .fault ∧ t = s) := by
  unfold submit at h
  split at h
  · exact .inl ⟨‹_›, h⟩
  · cases h; exact .inr ⟨‹_›, rfl⟩
  · cases h

theorem submit_idle {s : State} (run : State → Host.Outcome State Fault Refusal) (h : s.st = .idle) :
    submit s run = run s := by simp [submit, h]

theorem decoderAt_iff {d : DState} {s : State} : decoderAt d s = true ↔ s.st = .busy ∧ s.dstate = d := by
  simp [decoderAt]

theorem runHeadSelected_iff {s : State} :
    runHeadSelected s = true ↔ s.st = .busy ∧ s.dstate = .decodeRuns ∧ s.runrem = 0 := by
  simp [runHeadSelected, decoderAt, and_assoc]

theorem sampleSelected_iff {w : BitVec 6} {s : State} :
    sampleSelected w s = true ↔
      s.st = .busy ∧ s.dstate = .decodeRuns ∧ s.runrem ≠ 0 ∧ s.w = w ∧ w.toNat ≤ 32 := by
  simp [sampleSelected, decoderAt, and_assoc]

/-! The resource checks, in the spec's words -/

theorem chunkTooLarge_iff (p : Params) (n : Nat) : chunkTooLarge p n = true ↔ p.codedBytes < ceil4 n := by
  simp only [chunkTooLarge, Bool.and_eq_true, decide_eq_true_eq]; omega

theorem bufferOutside_iff (p : Params) (n lanes : Nat) : bufferOutside p n lanes = true ↔ 2 ≤ lanes ∧ p.outBytes < n := by
  simp only [bufferOutside, Bool.and_eq_true, decide_eq_true_eq]; omega

theorem tmpTooSmall_iff (p : Params) (n lanes window : Nat) :
    tmpTooSmall p n lanes window = true ↔ p.tmpBytes < tmpNeed n lanes window := by
  unfold tmpTooSmall
  rw [Bool.and_eq_true, decide_eq_true_eq, decide_eq_true_eq, and_iff_right_iff_imp]
  intro h
  by_contra h'
  rw [tmpNeed, if_pos (by omega)] at h
  omega

/-- The claim fails exactly where the byte OUT[i] at a multiple of 2^20 does not exist (R149). -/
theorem claimFails_iff (p : Params) (i : Nat) :
    claimFails p i = true ↔ i % Config.block = 0 ∧ p.outBytes < i + Config.block := by
  unfold claimFails
  rw [Bool.and_eq_true, Bool.and_eq_true, decide_eq_true_eq, decide_eq_true_eq, decide_eq_true_eq]
  unfold Params.outBytes Config.block
  omega

/-- Where neither stop applies the next sample's byte exists. -/
theorem lt_outBytes_of_claim {p : Params} {i : Nat} (hc : claimFails p i = false) (ho : sampleOutside p i = false) :
    i < p.outBytes := by
  rw [← Bool.not_eq_true, claimFails_iff] at hc
  simp only [← Bool.not_eq_true, sampleOutside, Bool.and_eq_true, decide_eq_true_eq] at ho
  unfold Params.outBytes Config.block at *
  omega

theorem claim_of_lt_outBytes {p : Params} {i : Nat} (h : i < p.outBytes) :
    claimFails p i = false ∧ sampleOutside p i = false := by
  constructor
  · rw [← Bool.not_eq_true, claimFails_iff]
    unfold Params.outBytes Config.block at *
    omega
  · simp only [← Bool.not_eq_true, sampleOutside, Bool.and_eq_true, decide_eq_true_eq]
    omega

theorem execHdr_next {k : BitVec 2} {v : BitVec 16} {s t : State} (h : execHdr k v s = .next t) :
    s.st = .busy ∧ s.dstate = .readHeader ∧ refillOutside 18 s = false
      ∧ t = { advance 16 (advance 2 s) with
                skip := skipOf k, strip := stripOf v
                cnt := 0, alloc := 0, act := 0, runrem := 0, dstate := .decodeRuns } := by
  unfold execHdr at h
  split at h
  · cases h
  · split at h
    · cases h
    · rename_i h1 h2
      have := decoderAt_iff.1 (by simpa using h1)
      cases h
      exact ⟨this.1, this.2, by simpa using h2, rfl⟩

theorem startRun_next {c : BitVec 3} {n : BitVec 7} {s t : State} (h : startRun c n s = .next t) :
    s.st = .busy ∧ s.dstate = .decodeRuns ∧ s.runrem = 0 ∧ n ≠ 0 ∧ refillOutside 10 s = false
      ∧ t = { advance 3 (advance 7 s) with
                wcode := c, w := BitVec.ofNat 6 (s.params.width c), runrem := n } := by
  unfold startRun at h
  split at h
  · cases h
  · split at h
    · cases h
    · rename_i h1 h2
      simp only [Bool.not_eq_false, Bool.and_eq_true, decide_eq_true_eq] at h1
      have := runHeadSelected_iff.1 h1.1
      cases h
      exact ⟨this.1, this.2.1, this.2.2, h1.2, by simpa using h2, rfl⟩

theorem execEndRec_next {s t : State} (h : execEndRec s = .next t) :
    s.st = .busy ∧ s.dstate = .decodeRuns ∧ s.runrem = 0 ∧ refillOutside 7 s = false
      ∧ t = { advance 7 s with alloc := s.cnt, dstate := .done } := by
  unfold execEndRec at h
  split at h
  · cases h
  · split at h
    · cases h
    · rename_i h1 h2
      have := runHeadSelected_iff.1 (by simpa using h1)
      cases h
      exact ⟨this.1, this.2.1, this.2.2, by simpa using h2, rfl⟩

theorem execSample_next {w : BitVec 6} {f : Word} {s t : State} (h : execSample w f s = .next t) :
    s.st = .busy ∧ s.dstate = .decodeRuns ∧ s.runrem ≠ 0 ∧ s.w = w ∧ w.toNat ≤ 32
      ∧ fieldOutside w.toNat s = false
      ∧ ((claimFails s.params s.cnt.toNat = true ∧ t = takeFault .resourceOut s)
        ∨ (claimFails s.params s.cnt.toNat = false ∧ sampleOutside s.params s.cnt.toNat = false
          ∧ t = placeSample (sampleValue w.toNat f.toNat s) (advanceField w.toNat s))) := by
  unfold execSample at h
  split at h
  · cases h
  · rename_i h1
    obtain ⟨ha, hb, hc, hd, he⟩ := sampleSelected_iff.1 (by simpa using h1)
    refine ⟨ha, hb, hc, hd, he, ?_⟩
    split at h
    · cases h
    · rename_i h2
      refine ⟨by simpa using h2, ?_⟩
      split at h
      · cases h; exact .inl ⟨‹_›, rfl⟩
      · rename_i h3
        split at h
        · cases h
        · rename_i h4
          cases h
          exact .inr ⟨by simpa using h3, by simpa using h4, rfl⟩

theorem execLoadbits_next {s t : State} (h : execLoadbits s = .next t) :
    (s.st = .fault ∧ t = s)
      ∨ (s.st = .idle ∧ readerClear s = false ∧ t = refuseCommand s)
      ∨ (s.st = .idle ∧ chunkTooLarge s.params s.a0.toNat = true ∧ t = takeFault .resourceCoded (accept s))
      ∨ (s.st = .idle ∧ readerClear s = true ∧ chunkTooLarge s.params s.a0.toNat = false
          ∧ t = complete (loadBits s.a0.toNat (accept s))) := by
  rcases submit_next h with ⟨hs, h⟩ | ⟨hs, rfl⟩
  · split at h
    · cases h; exact .inr (.inl ⟨hs, ‹_›, rfl⟩)
    · rename_i h1
      split at h
      · cases h; exact .inr (.inr (.inl ⟨hs, ‹_›, rfl⟩))
      · rename_i h2
        cases h; exact .inr (.inr (.inr ⟨hs, by simpa using h1, by simpa using h2, rfl⟩))
  · exact .inl ⟨hs, rfl⟩

theorem execReadbits_next {n : BitVec 6} {s t : State} (h : execReadbits n s = .next t) :
    (s.st = .fault ∧ t = s)
      ∨ (s.st = .idle ∧ readWidthOk n = false ∧ t = refuseCommand s)
      ∨ (s.st = .idle ∧ readWidthOk n = true ∧ refillOutside n.toNat s = false
          ∧ t = complete { advance n.toNat (accept s) with rv := (readBits n.toNat s).1 }) := by
  rcases submit_next h with ⟨hs, h⟩ | ⟨hs, rfl⟩
  · split at h
    · cases h; exact .inr (.inl ⟨hs, ‹_›, rfl⟩)
    · rename_i h1
      split at h
      · cases h
      · rename_i h2
        cases h; exact .inr (.inr ⟨hs, by simpa using h1, by simpa using h2, rfl⟩)
  · exact .inl ⟨hs, rfl⟩

theorem xformCommand_next {restore : Bool} {s t : State} (h : xformCommand restore s = .next t) :
    (s.st = .fault ∧ t = s)
      ∨ (s.st = .idle ∧ bufferOutside s.params s.a0.toNat s.a1.toNat = true ∧ t = refuseCommand s)
      ∨ (s.st = .idle ∧ tmpTooSmall s.params s.a0.toNat s.a1.toNat s.a2.toNat = true
          ∧ t = takeFault .resourceTmp (accept s))
      ∨ (s.st = .idle ∧ bufferOutside s.params s.a0.toNat s.a1.toNat = false
          ∧ tmpTooSmall s.params s.a0.toNat s.a1.toNat s.a2.toNat = false
          ∧ t = complete (forgetTmp (transformOut restore s.a0.toNat s.a1.toNat s.a2.toNat (accept s)))) := by
  rcases submit_next h with ⟨hs, h⟩ | ⟨hs, rfl⟩
  · split at h
    · cases h; exact .inr (.inl ⟨hs, ‹_›, rfl⟩)
    · rename_i h1
      split at h
      · cases h; exact .inr (.inr (.inl ⟨hs, ‹_›, rfl⟩))
      · rename_i h2
        cases h; exact .inr (.inr (.inr ⟨hs, by simpa using h1, by simpa using h2, rfl⟩))
  · exact .inl ⟨hs, rfl⟩

theorem execDecode_next {s t : State} (h : execDecode s = .next t) :
    (s.st = .fault ∧ t = s)
      ∨ (s.st = .idle ∧ chunkTooLarge s.params s.a0.toNat = true
          ∧ t = takeFault .resourceCoded (clearBits (initBuffer (accept s))))
      ∨ (s.st = .idle ∧ chunkTooLarge s.params s.a0.toNat = false
          ∧ t = { loadBits s.a0.toNat (clearBits (initBuffer (accept s))) with dstate := .readHeader }) := by
  rcases submit_next h with ⟨hs, h⟩ | ⟨hs, rfl⟩
  · split at h
    · cases h; exact .inr (.inl ⟨hs, ‹_›, rfl⟩)
    · rename_i h1
      cases h; exact .inr (.inr ⟨hs, by simpa using h1, rfl⟩)
  · exact .inl ⟨hs, rfl⟩

theorem closeDecode_next {s t : State} (h : closeDecode s = .next t) :
    bufferOutside s.params s.cnt.toNat s.skip.toNat = false
      ∧ ((tmpTooSmall s.params s.cnt.toNat s.skip.toNat s.a1.toNat = true ∧ t = takeFault .resourceTmp s)
        ∨ (tmpTooSmall s.params s.cnt.toNat s.skip.toNat s.a1.toNat = false
          ∧ t = complete (forgetBeyondResult
              (forgetTmp (transformOut true s.cnt.toNat s.skip.toNat s.a1.toNat s))))) := by
  unfold closeDecode at h
  split at h
  · cases h
  · rename_i h1
    refine ⟨by simpa using h1, ?_⟩
    split at h
    · cases h; exact .inl ⟨‹_›, rfl⟩
    · rename_i h2
      cases h; exact .inr ⟨by simpa using h2, rfl⟩

/-- What comes next while BUSY: a record selected by DSTATE and RUNREM, or the closing actions. -/
theorem busyTurn_run {s u : State} {i : Instr} (h : busyTurn s = .run i u) :
    u = s ∧ ∃ slot, decode slot (lookAhead s) = .ok i
      ∧ (s.dstate = .readHeader ∧ slot = .header
        ∨ s.dstate = .decodeRuns ∧ s.runrem = 0 ∧ slot = .runHead
        ∨ s.dstate = .decodeRuns ∧ s.runrem ≠ 0 ∧ slot = .residual s.w) := by
  have key : ∀ slot, fetchRecord slot s = .run i u → u = s ∧ decode slot (lookAhead s) = .ok i := by
    intro slot h
    unfold fetchRecord at h
    split at h
    · cases h; exact ⟨rfl, ‹_›⟩
    · cases h
  unfold busyTurn at h
  split at h
  · cases h
  · have := key _ h; exact ⟨this.1, _, this.2, .inl ⟨‹_›, rfl⟩⟩
  · by_cases hr : s.runrem = 0
    · rw [if_pos hr] at h
      have := key _ h; exact ⟨this.1, _, this.2, .inr (.inl ⟨‹_›, hr, rfl⟩)⟩
    · rw [if_neg hr] at h
      have := key _ h; exact ⟨this.1, _, this.2, .inr (.inr ⟨‹_›, hr, rfl⟩)⟩
  · cases h

theorem busyTurn_rest {s t : State} (h : busyTurn s = .rest (.next t)) :
    s.dstate = .done ∧ closeDecode s = .next t := by
  unfold busyTurn at h
  split at h
  · cases h
  · unfold fetchRecord at h; split at h <;> cases h
  · unfold fetchRecord at h; split at h <;> cases h
  · exact ⟨‹_›, by simpa using h⟩

/-- A next state of the host's turn that is no instruction: an idle step, a register write or read, a byte
written or read, a refused word, a word ignored in FAULT. -/
inductive HostResult (s : State) : State → Prop where
  | same : HostResult s s
  | reg (r : Nat) (v : Word) : HostResult s (writeRegister s r v)
  | read (v : Word) : HostResult s { s with hostRead := v }
  | byte (sp : HostSpace) (a : Word) (b : Byte) (hi : s.st ≠ .fault)
      (ha : a.toNat < s.params.capacity sp.space) : HostResult s (hostWriteByte s sp a.toNat b)
  | refuse (hi : s.st ≠ .fault) : HostResult s (refuseCommand s)

theorem commandWord_rest {v : Word} {s t : State} (h : commandWord v s = .rest (.next t)) : HostResult s t := by
  unfold commandWord at h
  split at h
  · cases h; exact .same
  · split at h
    · cases h
    · cases h; exact .refuse ‹_›

theorem commandWord_run {v : Word} {s u : State} {i : Instr} (h : commandWord v s = .run i u) :
    u = s ∧ s.st ≠ .fault ∧ decode .command v = .ok i := by
  unfold commandWord at h
  split at h
  · cases h
  · split at h
    · cases h; exact ⟨rfl, ‹_›, ‹_›⟩
    · cases h

theorem hostMove_rest {m : HostMove} {s t : State} (hm : m.isReset = false) (h : hostMove m s = .rest (.next t)) :
    HostResult s t := by
  cases m with
  | writeReg reg v =>
    simp only [hostMove] at h
    split at h
    · exact commandWord_rest h
    · cases h; exact .reg reg v
  | readReg reg => cases h; exact .read _
  | writeByte sp a b =>
    simp only [hostMove, depositByte, Fetched.rest.injEq] at h
    split at h
    · cases h
    · split at h
      · cases h
      · cases h; exact .byte sp a b ‹_› (by omega)
  | readByte sp a =>
    simp only [hostMove, collectByte, Fetched.rest.injEq] at h
    split at h
    · cases h
    · cases h; exact .read _
  | reset d => cases hm

theorem hostMove_run {m : HostMove} {s u : State} {i : Instr} (h : hostMove m s = .run i u) :
    u = s ∧ s.st ≠ .fault ∧ ∃ v, m = .writeReg 0 v ∧ decode .command v = .ok i := by
  cases m with
  | writeReg reg v =>
    simp only [hostMove] at h
    split at h
    · subst_vars; have := commandWord_run h; exact ⟨this.1, this.2.1, v, rfl, this.2.2⟩
    · cases h
  | readReg reg => cases h
  | writeByte sp a b => cases h
  | readByte sp a => cases h
  | reset d => cases h

/-- Everything a step can do, over the state u with the host's list as the step leaves it: a record of the
running decode, its closing actions, a command, or a move of the host. -/
theorem step_cases {s t : State} (h : step s = .next t) :
    ∃ hs : List HostMove,
      let u := { s with host := hs }
      (s.st = .busy ∧ ((∃ slot i, decode slot (lookAhead u) = .ok i ∧ exec i u = .next t
            ∧ (s.dstate = .readHeader ∧ slot = .header
              ∨ s.dstate = .decodeRuns ∧ s.runrem = 0 ∧ slot = .runHead
              ∨ s.dstate = .decodeRuns ∧ s.runrem ≠ 0 ∧ slot = .residual s.w))
          ∨ (s.dstate = .done ∧ closeDecode u = .next t)))
      ∨ (s.st = .idle ∧ ∃ v i, decode .command v = .ok i ∧ exec i u = .next t)
      ∨ (s.st ≠ .busy ∧ HostResult u t)
      ∨ (s.host = .reset 0 :: hs ∧ t = resetEvent u) := by
  have busy : ∀ u : State, u.st = .busy →
      (match busyTurn u with | .run i t => exec i t | .rest o => o) = .next t →
      ((∃ slot i, decode slot (lookAhead u) = .ok i ∧ exec i u = .next t
            ∧ (u.dstate = .readHeader ∧ slot = .header
              ∨ u.dstate = .decodeRuns ∧ u.runrem = 0 ∧ slot = .runHead
              ∨ u.dstate = .decodeRuns ∧ u.runrem ≠ 0 ∧ slot = .residual u.w))
          ∨ (u.dstate = .done ∧ closeDecode u = .next t)) := by
    intro u hu h
    split at h
    · rename_i i v hv
      obtain ⟨rfl, slot, hd, hsel⟩ := busyTurn_run hv
      exact .inl ⟨slot, i, hd, h, hsel⟩
    · rename_i o ho
      subst h
      exact .inr (busyTurn_rest ho)
  have turn : (∀ m ∈ s.host.head?, m.isReset = false) →
      step s = (match blockTurn s with | .run i t => exec i t | .rest o => o) → ∃ hs : List HostMove,
      let u := { s with host := hs }
      (s.st = .busy ∧ ((∃ slot i, decode slot (lookAhead u) = .ok i ∧ exec i u = .next t
            ∧ (s.dstate = .readHeader ∧ slot = .header
              ∨ s.dstate = .decodeRuns ∧ s.runrem = 0 ∧ slot = .runHead
              ∨ s.dstate = .decodeRuns ∧ s.runrem ≠ 0 ∧ slot = .residual s.w))
          ∨ (s.dstate = .done ∧ closeDecode u = .next t)))
      ∨ (s.st = .idle ∧ ∃ v i, decode .command v = .ok i ∧ exec i u = .next t)
      ∨ (s.st ≠ .busy ∧ HostResult u t)
      ∨ (s.host = .reset 0 :: hs ∧ t = resetEvent u) := by
    intro hm e
    rw [e] at h
    unfold blockTurn at h
    by_cases hb : s.st = .busy
    · rw [if_pos hb] at h
      exact ⟨s.host, .inl ⟨hb, busy s hb h⟩⟩
    · rw [if_neg hb] at h
      unfold hostTurn at h
      cases hh : s.host with
      | nil =>
        simp only [hh] at h
        cases h; exact ⟨s.host, .inr (.inr (.inl ⟨hb, .same⟩))⟩
      | cons m rest =>
        simp only [hh] at h
        refine ⟨rest, ?_⟩
        split at h
        · rename_i i v hv
          obtain ⟨rfl, hf, w, -, hd⟩ := hostMove_run hv
          have hi : s.st = .idle := by
            have hf : s.st ≠ .fault := hf
            revert hb hf; cases s.st <;> simp
          exact .inr (.inl ⟨hi, w, i, hd, h⟩)
        · rename_i o ho
          subst h
          exact .inr (.inr (.inl ⟨hb, hostMove_rest (hm m (by simp [hh])) ho⟩))
  have shape : s.host = [] ∨ ∃ m rest, s.host = m :: rest := by cases s.host <;> simp
  rcases shape with hh | ⟨m, rest, hh⟩
  · exact turn (by simp [hh]) (by simp only [step, fetch, hh] <;> rfl)
  · cases m with
    | reset d =>
      cases d with
      | zero =>
        simp only [step, fetch, hh] at h
        cases h
        exact ⟨rest, .inr (.inr (.inr ⟨hh, rfl⟩))⟩
      | succ d =>
        refine ⟨.reset d :: rest, ?_⟩
        simp only [step, fetch, hh, turnBeforeReset] at h
        by_cases hb : s.st = .busy
        · rw [if_pos hb] at h
          exact .inl ⟨hb, busy { s with host := .reset d :: rest } hb h⟩
        · rw [if_neg hb] at h
          cases h
          exact .inr (.inr (.inl ⟨hb, .same⟩))
    | writeReg r v => exact turn (by simp [hh, HostMove.isReset]) (by simp only [step, fetch, hh] <;> rfl)
    | readReg r => exact turn (by simp [hh, HostMove.isReset]) (by simp only [step, fetch, hh] <;> rfl)
    | writeByte sp a b => exact turn (by simp [hh, HostMove.isReset]) (by simp only [step, fetch, hh] <;> rfl)
    | readByte sp a => exact turn (by simp [hh, HostMove.isReset]) (by simp only [step, fetch, hh] <;> rfl)

/-- The instruction a step runs, over the state u with the host's list as the step leaves it: while BUSY the record
that DSTATE and RUNREM select, in IDLE the command the host has written. -/
theorem fetch_run {s u : State} {i : Instr} (h : fetch s = .run i u) :
    ∃ hs : List HostMove, u = { s with host := hs }
      ∧ ((s.st = .busy ∧ ∃ slot, decode slot (lookAhead u) = .ok i
            ∧ (s.dstate = .readHeader ∧ slot = .header
              ∨ s.dstate = .decodeRuns ∧ s.runrem = 0 ∧ slot = .runHead
              ∨ s.dstate = .decodeRuns ∧ s.runrem ≠ 0 ∧ slot = .residual s.w))
        ∨ (s.st = .idle ∧ ∃ v, decode .command v = .ok i)) := by
  have turn (h : blockTurn s = .run i u) : ∃ hs : List HostMove, u = { s with host := hs }
      ∧ ((s.st = .busy ∧ ∃ slot, decode slot (lookAhead u) = .ok i
            ∧ (s.dstate = .readHeader ∧ slot = .header
              ∨ s.dstate = .decodeRuns ∧ s.runrem = 0 ∧ slot = .runHead
              ∨ s.dstate = .decodeRuns ∧ s.runrem ≠ 0 ∧ slot = .residual s.w))
        ∨ (s.st = .idle ∧ ∃ v, decode .command v = .ok i)) := by
    unfold blockTurn at h
    split at h
    · obtain ⟨rfl, hsel⟩ := busyTurn_run h
      exact ⟨_, rfl, .inl ⟨‹_›, hsel⟩⟩
    · rename_i hb
      unfold hostTurn at h
      split at h
      · cases h
      · rename_i m rest hh
        obtain ⟨rfl, hf, v, -, hd⟩ := hostMove_run h
        have hf : s.st ≠ .fault := hf
        refine ⟨rest, rfl, .inr ⟨?_, v, hd⟩⟩
        revert hb hf; cases s.st <;> simp
  unfold fetch at h
  split at h
  · cases h
  · rename_i d rest hh
    unfold turnBeforeReset at h
    split at h
    · rename_i hb
      obtain ⟨rfl, hsel⟩ := busyTurn_run h
      exact ⟨_, rfl, .inl ⟨hb, hsel⟩⟩
    · cases h
  · exact turn h

/-- What a command word decodes to is a command (R101). -/
theorem slot_of_command {v : Word} {i : Instr} (h : decode .command v = .ok i) : i.slot = .command := by
  simp only [decode, decodeCommand, decodePlain, decodeReadbits, decodeXform] at h
  repeat' split at h
  all_goals cases h
  all_goals rfl

/-! The same over all instructions at once -/

/-- The next states of exec, whatever the instruction: an invariant is kept by every instruction if it is kept in
these sixteen cases. -/
inductive ExecResult (s : State) : State → Prop where
  | same (h : s.st = .fault) : ExecResult s s
  | refuse (h : s.st = .idle) : ExecResult s (refuseCommand s)
  | hdr (k : BitVec 2) (v : BitVec 16) (h : s.st = .busy) (hd : s.dstate = .readHeader)
      (hr : refillOutside 18 s = false) :
      ExecResult s
        { advance 16 (advance 2 s) with
          skip := skipOf k, strip := stripOf v
          cnt := 0, alloc := 0, act := 0, runrem := 0, dstate := .decodeRuns }
  | run (c : BitVec 3) (n : BitVec 7) (h : s.st = .busy) (hd : s.dstate = .decodeRuns) (h0 : s.runrem = 0)
      (hn : n ≠ 0) (hr : refillOutside 10 s = false) :
      ExecResult s
        { advance 3 (advance 7 s) with
          wcode := c, w := BitVec.ofNat 6 (s.params.width c), runrem := n }
  | endRec (h : s.st = .busy) (hd : s.dstate = .decodeRuns) (h0 : s.runrem = 0) (hr : refillOutside 7 s = false) :
      ExecResult s { advance 7 s with alloc := s.cnt, dstate := .done }
  | sample (v : Byte) (w : BitVec 6) (h : s.st = .busy) (hd : s.dstate = .decodeRuns) (h0 : s.runrem ≠ 0)
      (hw : s.w = w) (h32 : w.toNat ≤ 32) (hr : fieldOutside w.toNat s = false)
      (hc : claimFails s.params s.cnt.toNat = false) (ho : sampleOutside s.params s.cnt.toNat = false) :
      ExecResult s (placeSample v (advanceField w.toNat s))
  | sampleFault (h : s.st = .busy) (hd : s.dstate = .decodeRuns)
      (hc : claimFails s.params s.cnt.toNat = true) : ExecResult s (takeFault .resourceOut s)
  | initbuffer (h : s.st = .idle) : ExecResult s (complete (initBuffer (accept s)))
  | clearbits (h : s.st = .idle) : ExecResult s (complete (clearBits (accept s)))
  | loadbits (h : s.st = .idle) (hc : readerClear s = true) (hk : chunkTooLarge s.params s.a0.toNat = false) :
      ExecResult s (complete (loadBits s.a0.toNat (accept s)))
  | loadbitsFault (h : s.st = .idle) (hk : chunkTooLarge s.params s.a0.toNat = true) :
      ExecResult s (takeFault .resourceCoded (accept s))
  | readbits (n : BitVec 6) (h : s.st = .idle) (hn : readWidthOk n = true) (hr : refillOutside n.toNat s = false) :
      ExecResult s (complete { advance n.toNat (accept s) with rv := (readBits n.toNat s).1 })
  | decode (h : s.st = .idle) (hk : chunkTooLarge s.params s.a0.toNat = false) :
      ExecResult s { loadBits s.a0.toNat (clearBits (initBuffer (accept s))) with dstate := .readHeader }
  | decodeFault (h : s.st = .idle) (hk : chunkTooLarge s.params s.a0.toNat = true) :
      ExecResult s (takeFault .resourceCoded (clearBits (initBuffer (accept s))))
  | xform (restore : Bool) (h : s.st = .idle) (hb : bufferOutside s.params s.a0.toNat s.a1.toNat = false)
      (ht : tmpTooSmall s.params s.a0.toNat s.a1.toNat s.a2.toNat = false) :
      ExecResult s (complete (forgetTmp (transformOut restore s.a0.toNat s.a1.toNat s.a2.toNat (accept s))))
  | xformFault (h : s.st = .idle) (ht : tmpTooSmall s.params s.a0.toNat s.a1.toNat s.a2.toNat = true) :
      ExecResult s (takeFault .resourceTmp (accept s))

theorem exec_result {i : Instr} {s t : State} (h : exec i s = .next t) : ExecResult s t := by
  have run : ∀ {c n}, startRun c n s = .next t → ExecResult s t := by
    intro c n h
    obtain ⟨h1, h2, h3, h4, h5, rfl⟩ := startRun_next h
    exact .run c n h1 h2 h3 h4 h5
  have xform : ∀ {r}, xformCommand r s = .next t → ExecResult s t := by
    intro r h
    rcases xformCommand_next h with ⟨h1, rfl⟩ | ⟨h1, -, rfl⟩ | ⟨h1, h2, rfl⟩ | ⟨h1, h2, h3, rfl⟩
    · exact .same h1
    · exact .refuse h1
    · exact .xformFault h1 h2
    · exact .xform r h1 h2 h3
  cases i with
  | hdr k v => obtain ⟨h1, h2, h3, rfl⟩ := execHdr_next h; exact .hdr k v h1 h2 h3
  | runC0 n => exact run h
  | runC1 n => exact run h
  | runC2 n => exact run h
  | runC3 n => exact run h
  | runC4 n => exact run h
  | runC5 n => exact run h
  | runC6 n => exact run h
  | runC7 n => exact run h
  | endRec => obtain ⟨h1, h2, h3, h4, rfl⟩ := execEndRec_next h; exact .endRec h1 h2 h3 h4
  | sample w f =>
    obtain ⟨h1, h2, h3, h4, h5, h6, ⟨h7, rfl⟩ | ⟨h7, h8, rfl⟩⟩ := execSample_next h
    · exact .sampleFault h1 h2 h7
    · exact .sample _ w h1 h2 h3 h4 h5 h6 h7 h8
  | initbuffer =>
    rcases submit_next (show execInitbuffer s = .next t from h) with ⟨h1, h⟩ | ⟨h1, rfl⟩
    · cases h; exact .initbuffer h1
    · exact .same h1
  | clearbits =>
    rcases submit_next (show execClearbits s = .next t from h) with ⟨h1, h⟩ | ⟨h1, rfl⟩
    · cases h; exact .clearbits h1
    · exact .same h1
  | loadbits =>
    rcases execLoadbits_next h with ⟨h1, rfl⟩ | ⟨h1, -, rfl⟩ | ⟨h1, h2, rfl⟩ | ⟨h1, h2, h3, rfl⟩
    · exact .same h1
    · exact .refuse h1
    · exact .loadbitsFault h1 h2
    · exact .loadbits h1 h2 h3
  | readbits n =>
    rcases execReadbits_next h with ⟨h1, rfl⟩ | ⟨h1, -, rfl⟩ | ⟨h1, h2, h3, rfl⟩
    · exact .same h1
    · exact .refuse h1
    · exact .readbits n h1 h2 h3
  | decode =>
    rcases execDecode_next h with ⟨h1, rfl⟩ | ⟨h1, h2, rfl⟩ | ⟨h1, h2, rfl⟩
    · exact .same h1
    · exact .decodeFault h1 h2
    · exact .decode h1 h2
  | xformF => exact xform h
  | xformR => exact xform h

/-- The next states of the closing actions. -/
inductive CloseResult (s : State) : State → Prop where
  | fault (ht : tmpTooSmall s.params s.cnt.toNat s.skip.toNat s.a1.toNat = true) :
      CloseResult s (takeFault .resourceTmp s)
  | restored (hb : bufferOutside s.params s.cnt.toNat s.skip.toNat = false)
      (ht : tmpTooSmall s.params s.cnt.toNat s.skip.toNat s.a1.toNat = false) :
      CloseResult s
        (complete (forgetBeyondResult (forgetTmp (transformOut true s.cnt.toNat s.skip.toNat s.a1.toNat s))))

theorem closeDecode_result {s t : State} (h : closeDecode s = .next t) : CloseResult s t := by
  obtain ⟨h1, ⟨h2, rfl⟩ | ⟨h2, rfl⟩⟩ := closeDecode_next h
  · exact .fault h2
  · exact .restored h1 h2

/-- Everything a step can do, the record or command it runs left out. -/
theorem step_result {s t : State} (h : step s = .next t) :
    ∃ hs : List HostMove,
      let u := { s with host := hs }
      (s.st ≠ .fault ∧ ExecResult u t)
      ∨ (s.st = .busy ∧ s.dstate = .done ∧ CloseResult u t)
      ∨ (s.st ≠ .busy ∧ HostResult u t)
      ∨ (s.host = .reset 0 :: hs ∧ t = resetEvent u) := by
  obtain ⟨hs, h⟩ := step_cases h
  refine ⟨hs, ?_⟩
  rcases h with ⟨hb, ⟨_, i, _, h, _⟩ | ⟨hd, h⟩⟩ | ⟨hi, _, i, _, h⟩ | ⟨hi, h⟩ | h
  · exact .inl ⟨by rw [hb]; simp, exec_result h⟩
  · exact .inr (.inl ⟨hb, hd, closeDecode_result h⟩)
  · exact .inl ⟨by rw [hi]; simp, exec_result h⟩
  · exact .inr (.inr (.inl ⟨hi, h⟩))
  · exact .inr (.inr (.inr h))

/-! Which of these a step does -/

/-- While BUSY and with no reset on its way: the record or the closing actions. -/
theorem step_busy {s : State} (hb : s.st = .busy) (hn : noResetPending s) :
    step s = (match busyTurn s with | .run i t => exec i t | .rest o => o) := by
  have e : fetch s = busyTurn s := by
    unfold noResetPending at hn
    unfold fetch
    cases hh : s.host with
    | nil => simp [blockTurn, hb]
    | cons m rest =>
      have := hn m (by simp [hh])
      cases m <;> simp_all [HostMove.isReset, blockTurn]
  simp only [step, e] <;> rfl

/-- In IDLE or FAULT: the host's next move. -/
theorem step_move {s : State} {m : HostMove} {rest : List HostMove} (hb : s.st ≠ .busy) (hh : s.host = m :: rest)
    (hm : m.isReset = false) :
    step s = (match hostMove m { s with host := rest } with | .run i t => exec i t | .rest o => o) := by
  have e : fetch s = hostMove m { s with host := rest } := by
    unfold fetch
    cases m <;> simp_all [HostMove.isReset, blockTurn, hostTurn]
  simp only [step, e] <;> rfl

/-- The host's list is no part of what the reader looks at. -/
@[simp] theorem lookAhead_host (s : State) (hs : List HostMove) : lookAhead { s with host := hs } = lookAhead s := by
  simp only [lookAhead, readBits, refillWord, byteAt, memoryOf]
  split <;> rfl

end Sys2Proof.Machine
end

