-- ==== Sys2Proof/Laws/Stream.lean ====
section
/-! SUPPORT. Fields of the stream as numbers (40_bit_reader.md R125): their size, how they split and join, the zeros beyond the buffer, and the word a refill delivers. -/

namespace Sys2Proof.Safety

open Sys2Proof.Machine

theorem field_lt (m : Memory) (plen p n : Nat) : field m plen p n < 2 ^ n := by
  induction n with
  | zero => simp [field]
  | succ n ih =>
    have := Bool.toNat_lt (streamBit m plen (p + n))
    simp only [field, Nat.pow_succ]
    omega

/-- A field of a + b bits is its first a bits followed by the next b. -/
theorem field_add (m : Memory) (plen p a b : Nat) :
    field m plen p (a + b) = field m plen p a * 2 ^ b + field m plen (p + a) b := by
  induction b with
  | zero => simp [field]
  | succ b ih =>
    rw [← Nat.add_assoc, field, field, ih, Nat.pow_succ, Nat.add_assoc p a b]
    ring

theorem field_div (m : Memory) (plen p a b : Nat) : field m plen p (a + b) / 2 ^ b = field m plen p a := by
  rw [field_add, Nat.mul_comm, Nat.mul_add_div (Nat.pow_pos (by omega)),
    Nat.div_eq_of_lt (field_lt m plen (p + a) b), Nat.add_zero]

theorem field_mod (m : Memory) (plen p a b : Nat) :
    field m plen p (a + b) % 2 ^ b = field m plen (p + a) b := by
  rw [field_add, Nat.mul_comm, Nat.mul_add_mod, Nat.mod_eq_of_lt (field_lt m plen (p + a) b)]

theorem field_div_of_le (m : Memory) (plen p : Nat) {n b : Nat} (h : b ≤ n) :
    field m plen p n / 2 ^ b = field m plen p (n - b) := by
  obtain ⟨a, rfl⟩ : ∃ a, n = a + b := ⟨n - b, by omega⟩
  rw [field_div, Nat.add_sub_cancel]

theorem field_mod_of_le (m : Memory) (plen p : Nat) {n b : Nat} (h : b ≤ n) :
    field m plen p n % 2 ^ b = field m plen (p + (n - b)) b := by
  obtain ⟨a, rfl⟩ : ∃ a, n = a + b := ⟨n - b, by omega⟩
  rw [field_mod, Nat.add_sub_cancel]

theorem streamBit_beyond (m : Memory) {plen q : Nat} (h : 8 * plen ≤ q) : streamBit m plen q = false := by
  have : ¬ q < 8 * plen := by omega
  simp [streamBit, this]

/-- "beyond the padded end" every field is zero (R126). -/
theorem field_beyond (m : Memory) {plen p : Nat} (h : 8 * plen ≤ p) (n : Nat) : field m plen p n = 0 := by
  induction n with
  | zero => rfl
  | succ n ih => simp [field, ih, streamBit_beyond m (by omega : 8 * plen ≤ p + n)]

/-- The bits of a field, the first most significant. -/
theorem field_testBit (m : Memory) (plen p n k : Nat) (h : k < n) :
    (field m plen p n).testBit (n - 1 - k) = streamBit m plen (p + k) := by
  obtain ⟨d, rfl⟩ : ∃ d, n = k + 1 + d := ⟨n - (k + 1), by omega⟩
  have e : k + 1 + d - 1 - k = d := by omega
  rw [e, Nat.testBit_eq_decide_div_mod_eq, field_div, field]
  cases streamBit m plen (p + k) <;> simp

/-- Eight stream bits from a byte boundary on are the byte there. -/
theorem field_byte (m : Memory) {plen a : Nat} (h : a < plen) :
    field m plen (8 * a) 8 = (readByte .coded m a).toNat := by
  have bit : ∀ j, j < 8 → streamBit m plen (8 * a + j) = (readByte .coded m a).getLsbD (7 - j) := by
    intro j hj
    have h1 : 8 * a + j < 8 * plen := by omega
    have h2 : (8 * a + j) / 8 = a := by omega
    have h3 : (8 * a + j) % 8 = j := by omega
    simp [streamBit, h1, h2, h3]
  apply Nat.eq_of_testBit_eq
  intro k
  by_cases hk : k < 8
  · have := field_testBit m plen (8 * a) 8 (7 - k) (by omega)
    rw [show 8 - 1 - (7 - k) = k by omega, bit (7 - k) (by omega), show 7 - (7 - k) = k by omega] at this
    rw [this, BitVec.getLsbD]
  · rw [Nat.testBit_lt_two_pow, Nat.testBit_lt_two_pow]
    · exact Nat.lt_of_lt_of_le (readByte .coded m a).isLt (Nat.pow_le_pow_right (by omega) (by omega))
    · exact Nat.lt_of_lt_of_le (field_lt m plen (8 * a) 8) (Nat.pow_le_pow_right (by omega) (by omega))

/-- The big-endian word at an address is the 32 stream bits from there on (20_memory.md R65). -/
theorem field_word (m : Memory) {plen a : Nat} (h : a + 4 ≤ plen) :
    field m plen (8 * a) 32 =
      (be32 (readByte .coded m a) (readByte .coded m (a + 1)) (readByte .coded m (a + 2))
        (readByte .coded m (a + 3))).toNat := by
  rw [toNat_be32, show (32 : Nat) = 8 + 24 from rfl, field_add, show (24 : Nat) = 8 + 16 from rfl, field_add,
    show (16 : Nat) = 8 + 8 from rfl, field_add, show 8 * a + 8 = 8 * (a + 1) by omega,
    show 8 * (a + 1) + 8 = 8 * (a + 2) by omega, show 8 * (a + 2) + 8 = 8 * (a + 3) by omega,
    field_byte m (by omega : a < plen), field_byte m (by omega : a + 1 < plen),
    field_byte m (by omega : a + 2 < plen), field_byte m (by omega : a + 3 < plen)]
  omega

/-- Where the reader's invariants hold, the next word holds the 32 stream bits after those in the window. -/
theorem toNat_refill {s : State} (h : ReaderInRange s) (hz : ReaderInStep s) :
    (refill s).toNat = field s.coded s.plen.toNat (s.bitpos + s.nbits.toNat) 32 := by
  obtain ⟨-, -, hb, hp, hle, -⟩ := h
  obtain ⟨-, hz⟩ := hz
  unfold refill
  split
  · rename_i hlt
    have hz : s.bitpos + s.nbits.toNat = 8 * s.boff.toNat := by
      rcases hz with hz | ⟨hz, -⟩
      · exact hz
      · rw [hz] at hlt; omega
    rw [hz, field_word s.coded (by omega : s.boff.toNat + 4 ≤ s.plen.toNat)]
    rfl
  · have : 8 * s.plen.toNat ≤ s.bitpos + s.nbits.toNat := by
      rcases hz with hz | ⟨hz, hz'⟩
      · omega
      · rw [← hz]; exact hz'
    rw [field_beyond s.coded this]; rfl

end Sys2Proof.Safety
end

