-- ==== Sys2Proof/Laws/Transform.lean ====
section
/-! SUPPORT. What the Interleave Transform's functions do to lengths and lane starts, and what transformOut does to OUT (42_interleave_transform.md R172 to R177). -/

namespace Sys2Proof.Machine

open Sys2Proof.Safety

/-- S_(i+1) = S_i + L_i (R172). -/
theorem laneStart_succ (len lanes i : Nat) :
    laneStart len lanes (i + 1) = laneStart len lanes i + laneLength len lanes i := by
  unfold laneStart laneLength
  rw [Nat.add_mul]
  split <;> simp only [Nat.min_def] <;> split <;> split <;> omega

/-- The lanes end where the span ends. -/
theorem laneStart_lanes {len lanes : Nat} (h : 0 < lanes) : laneStart len lanes lanes = len := by
  have := Nat.mod_lt len h
  rw [laneStart, Nat.min_eq_right (by omega)]
  exact Nat.div_add_mod len lanes

theorem length_lanes (x : List Byte) (lanes k : Nat) :
    ((List.range k).flatMap fun i => laneBytes x lanes i).length = laneStart x.length lanes k := by
  induction k with
  | zero => simp [laneStart]
  | succ k ih =>
    rw [List.range_succ, List.flatMap_append, List.length_append, ih, laneStart_succ]
    simp [laneBytes]

theorem length_gather {lanes : Nat} (h : 0 < lanes) (x : List Byte) : (gather lanes x).length = x.length := by
  rw [gather, length_lanes]
  by_cases hl : lanes ≤ x.length
  · rw [Nat.min_eq_left hl, laneStart_lanes h]
  · rw [Nat.min_eq_right (by omega), laneStart, Nat.div_eq_of_lt (by omega), Nat.mod_eq_of_lt (by omega)]
    simp

theorem length_scatter (lanes : Nat) (x : List Byte) : (scatter lanes x).length = x.length := by simp [scatter]

theorem length_spanMap (restore : Bool) {lanes : Nat} (h : 0 < lanes) (x : List Byte) :
    (spanMap restore lanes x).length = x.length := by
  unfold spanMap
  split
  · exact length_scatter lanes x
  · exact length_gather h x

theorem length_windowMap (restore : Bool) {lanes : Nat} (h : 0 < lanes) (wb k : Nat) (x : List Byte) :
    (windowMap restore lanes wb k x).length = x.length := by
  induction k generalizing x with
  | zero => exact length_spanMap restore h x
  | succ k ih =>
    simp only [windowMap, List.length_append, length_spanMap restore h, ih, List.length_take, List.length_drop]
    omega

/-- The transform keeps the number of bytes. -/
theorem length_transformBytes (restore : Bool) (lanes window : Nat) (x : List Byte) :
    (transformBytes restore lanes window x).length = x.length := by
  unfold transformBytes
  split
  · rfl
  · rename_i h
    split
    · exact length_spanMap restore (by omega) x
    · exact length_windowMap restore (by omega) _ _ x

/-- OUT after a transform, byte by byte: the transformed bytes below n, what was there from n on. -/
theorem readByte_transformOut (restore : Bool) (n lanes window : Nat) (s : State) (a : Nat) :
    readByte .out (transformOut restore n lanes window s).out a =
      if a < n then (transformBytes restore lanes window (readBytes .out s.out 0 n)).getD a 0
      else readByte .out s.out a := by
  unfold transformOut
  split
  · rename_i h
    split
    · rw [transformBytes, if_pos h, getD_readBytes _ _ _ _ _ ‹_›, Nat.zero_add]
    · rfl
  · simp only
    rw [readByte_writeBytes, length_transformBytes, length_readBytes]
    simp

/-- OUT[0 .. n-1] after a transform is the transform of OUT[0 .. n-1] before it (R177). -/
theorem readBytes_transformOut (restore : Bool) (n lanes window : Nat) (s : State) :
    readBytes .out (transformOut restore n lanes window s).out 0 n =
      transformBytes restore lanes window (readBytes .out s.out 0 n) := by
  apply List.ext_getElem
  · rw [length_readBytes, length_transformBytes, length_readBytes]
  · intro i h1 h2
    have hi : i < n := by rw [length_readBytes] at h1; exact h1
    have e := getD_readBytes .out (transformOut restore n lanes window s).out 0 n i hi
    rw [Nat.zero_add, readByte_transformOut, if_pos hi] at e
    simpa [List.getD_eq_getElem?_getD, h1, h2] using e

/-- A transform of a buffer inside OUT keeps OUT's canonical form and capacity. -/
theorem memoryWf_transformOut (restore : Bool) (n lanes window : Nat) (s : State) (h : memoryWf s.out = true) :
    memoryWf (transformOut restore n lanes window s).out = true := by
  unfold transformOut
  split
  · exact h
  · exact memoryWf_writeBytes _ _ _ h

theorem cellsBelow_transformOut {cap : Nat} (restore : Bool) {n lanes : Nat} (window : Nat) (s : State)
    (h : CellsBelow cap s.out) (hn : lanes ≤ 1 ∨ n ≤ cap) :
    CellsBelow cap (transformOut restore n lanes window s).out := by
  unfold transformOut
  split
  · exact h
  · refine cellsBelow_writeBytes h fun _ => ?_
    rw [length_transformBytes, length_readBytes]
    omega

end Sys2Proof.Machine
end

