-- ==== Sys2Proof/Tests/Slice0.lean ====
section
/-! SUPPORT. Tests on fixed values, each expected result taken from the spec (95_test_vectors.md, or the rule named beside it), and for each obligation with hypotheses a state that meets them all. -/

namespace Sys2Proof.Tests

open Sys2Proof.Machine Sys2Proof.Safety

/-! Small states -/

/-- Widths 0, 2, 3, 4, 5, 6, 7, 8 for codes 0 to 7 (the table of the spec's vectors); 8 bytes of CODED, one block
of OUT, 4 bytes of TMP. -/
def small : Params :=
  { wtab := #v[0, 2, 3, 4, 5, 6, 7, 8], accum := false, codedWords := 2, outBlocks := 0, tmpCap := 4 }

/-- The same with 64 bytes of CODED and of TMP. -/
def roomy : Params := { small with codedWords := 16, tmpCap := 64 }

/-- A memory that lists the given bytes from address 0 on. -/
def holding (bytes : List Byte) : Memory :=
  { Memory.unspecified 0 with cells := bytes.zipIdx.map fun c => (c.2, c.1) }

/-- Straight after reset, with those parameters. -/
def idle (p : Params) : State := { State.reset with params := p }

/-- V1 after its first read: eight bytes loaded, one delivered. -/
def reading : State :=
  { idle small with
    coded := holding [0x12, 0x34, 0x56, 0x78, 0x9A, 0xBC, 0xDE, 0xF0]
    win := 0x00345678, nbits := 24, boff := 4, plen := 8, bitpos := 8 }

/-- P7 when its DECODE has been submitted: the header comes next. -/
def atHeader : State :=
  { idle small with
    coded := holding [0x00, 0x00, 0x43, 0x39, 0xAB, 0xCD, 0xE0, 0x00]
    plen := 8, a0 := 8, st := .busy, dstate := .readHeader }

/-- P7 after HDR: a run-length field comes next. -/
def atRunHead : State :=
  { atHeader with
    win := 0x339, nbits := 14, boff := 4, bitpos := 18, skip := 1, strip := 2, dstate := .decodeRuns }

/-- P7 after its run head: six samples of width 4 come. -/
def atSample : State :=
  { atRunHead with win := 9, nbits := 4, bitpos := 28, runrem := 6, wcode := 3, w := 4 }

/-- P7 after three samples, 1, 2, 3. -/
def atFourthSample : State :=
  { atSample with
    win := 0xCDE000, nbits := 24, boff := 8, bitpos := 40, runrem := 3
    cnt := 3, alloc := 0x100000, act := 3, out := holding [1, 2, 3] }

/-- P7 after its six samples: END comes. -/
def atEnd : State :=
  { atSample with
    win := 0, nbits := 12, boff := 8, bitpos := 52, runrem := 0
    cnt := 6, alloc := 0x100000, act := 8, out := holding [1, 2, 3, 5, 6, 8] }

/-- P13 when its END has been read: six samples in coded order, two lanes, and a window of 2. -/
def atClosing : State :=
  { atEnd with
    out := holding [1, 2, 3, 4, 5, 6], act := 6, alloc := 6, skip := 2, strip := 1, a1 := 2
    win := 0, nbits := 5, bitpos := 59, dstate := .done }

/-- P14 at the claim that fails: OUT is full. -/
def outFull : State :=
  { atSample with cnt := 0x100000, alloc := 0x100000, w := 0, wcode := 0 }

/-- V33 after its fault. -/
def faulted : State := { idle small with st := .fault, cause := .resourceCoded, a0 := 9 }

/-- XFORM's operands over an OUT that holds 0, 1, 2, ... -/
def lanesOf (p : Params) (n lanes window : Word) : State :=
  { idle p with out := holding [0, 1, 2, 3, 4, 5, 6, 7, 8, 9], a0 := n, a1 := lanes, a2 := window }

/-- The outcome is a next state and it has the property. -/
def nextWith (o : Host.Outcome State Fault Refusal) (good : State → Bool) : Bool :=
  match o with
  | .next t => good t
  | .fault _ => false
  | .refused _ => false

theorem exists_next {o : Host.Outcome State Fault Refusal} {good : State → Bool} (h : nextWith o good = true) :
    ∃ t, o = .next t ∧ good t = true := by
  cases o with
  | next t => exact ⟨t, rfl, h⟩
  | fault r => cases h
  | refused r => cases h

/-! Decoding: for each constructor a word written out from the encoding tables of 30_encoding.md -/

/-- R91: K = 01, S = 0000000000000001, then bits of the next field. -/
theorem test_decode_hdr :
    decode .header 0b01_0000000000000001_00001100110010#32 = .ok (.hdr 1 1) := by decide

/-- R92: N = 0000110, C = 0 to 7. -/
theorem test_decode_runC0 : decode .runHead 0b0000110_000_1111111111111111111111#32 = .ok (.runC0 6) := by decide
theorem test_decode_runC1 : decode .runHead 0b0000110_001_1111111111111111111111#32 = .ok (.runC1 6) := by decide
theorem test_decode_runC2 : decode .runHead 0b0000110_010_1111111111111111111111#32 = .ok (.runC2 6) := by decide
theorem test_decode_runC3 : decode .runHead 0b0000110_011_1111111111111111111111#32 = .ok (.runC3 6) := by decide
theorem test_decode_runC4 : decode .runHead 0b0000110_100_1111111111111111111111#32 = .ok (.runC4 6) := by decide
theorem test_decode_runC5 : decode .runHead 0b0000110_101_1111111111111111111111#32 = .ok (.runC5 6) := by decide
theorem test_decode_runC6 : decode .runHead 0b0000110_110_1111111111111111111111#32 = .ok (.runC6 6) := by decide
theorem test_decode_runC7 : decode .runHead 0b1111111_111_0000000000000000000000#32 = .ok (.runC7 127) := by decide

/-- R93: seven zero bits; the three bits after them are no code. -/
theorem test_decode_end : decode .runHead 0b0000000_111_0000000000000000000000#32 = .ok .endRec := by decide

/-- R94: W = 4, F = 1001; no bits at W = 0; the whole word at W = 32. -/
theorem test_decode_sample :
    decode (.residual 4) 0b1001_1010101111001101111000000000#32 = .ok (.sample 4 9)
      ∧ decode (.residual 0) 0xFFFFFFFF#32 = .ok (.sample 0 0)
      ∧ decode (.residual 32) 0x8000012C#32 = .ok (.sample 32 0x8000012C)
      ∧ decode (.residual 33) 0#32 = .error .residualWidth := by decide

/-- R101: OP in bits 31 to 28, zeros, IMM in bits 7 to 0. -/
theorem test_decode_initbuffer : decode .command 0b0001_00000000000000000000_00000000#32 = .ok .initbuffer := by decide
theorem test_decode_clearbits : decode .command 0b0010_00000000000000000000_00000000#32 = .ok .clearbits := by decide
theorem test_decode_loadbits : decode .command 0b0011_00000000000000000000_00000000#32 = .ok .loadbits := by decide
theorem test_decode_readbits : decode .command 0b0100_00000000000000000000_00100000#32 = .ok (.readbits 32) := by decide
theorem test_decode_decode : decode .command 0b0101_00000000000000000000_00000000#32 = .ok .decode := by decide
theorem test_decode_xformF : decode .command 0b0110_00000000000000000000_00000000#32 = .ok .xformF := by decide
theorem test_decode_xformR : decode .command 0b0110_00000000000000000000_00000001#32 = .ok .xformR := by decide

/-- V31: the refused command words. -/
theorem test_decode_reserved_commands :
    decode .command 0x00000000#32 = .error .reservedOp
      ∧ decode .command 0x70000000#32 = .error .reservedOp
      ∧ decode .command 0xF0000000#32 = .error .reservedOp
      ∧ decode .command 0x50000100#32 = .error .reservedBits
      ∧ decode .command 0x50000001#32 = .error .reservedImm
      ∧ decode .command 0x60000002#32 = .error .reservedImm
      ∧ decode .command 0x60000080#32 = .error .reservedImm := by
  refine ⟨?_, ?_, ?_, ?_, ?_, ?_, ?_⟩ <;> decide

/-- V10: the refused reader commands. -/
theorem test_decode_reserved_reads :
    decode .command 0x40000000#32 = .error .readWidth
      ∧ decode .command 0x40000021#32 = .error .readWidth
      ∧ decode .command 0x4000003F#32 = .error .readWidth
      ∧ decode .command 0x40000048#32 = .error .reservedImm
      ∧ decode .command 0x40000108#32 = .error .reservedBits
      ∧ decode .command 0x10000001#32 = .error .reservedImm
      ∧ decode .command 0x20000080#32 = .error .reservedImm
      ∧ decode .command 0x30000001#32 = .error .reservedImm := by
  refine ⟨?_, ?_, ?_, ?_, ?_, ?_, ?_, ?_⟩ <;> decide

/-- The table's numbering: the first byte of a record is its low byte; RUN c=3 of R106 is the bytes 0C C0. -/
theorem test_decodeTableWord :
    decodeTableWord 24 0x400040 = some (.hdr 1 1) ∧ decodeTableWord 16 0xC00C = some (.runC3 6)
      ∧ decodeTableWord 8 0 = some .endRec ∧ decodeTableWord 0 0 = some (.sample 0 0)
      ∧ decodeTableWord 32 0x60000001 = some .xformR := by decide

/-! WellFormed: an ill-formed term for each check -/

/-- R92: a run length is 1 to 127. -/
theorem test_wf_refuses_empty_runs :
    ∀ i ∈ [Instr.runC0 0, .runC1 0, .runC2 0, .runC3 0, .runC4 0, .runC5 0, .runC6 0, .runC7 0],
      i.wf = false := by decide

/-- R31 and R94: a width above 32; a field with more bits than its width. -/
theorem test_wf_refuses_bad_fields :
    (Instr.sample 33 0).wf = false ∧ (Instr.sample 4 16).wf = false ∧ (Instr.sample 0 1).wf = false
      ∧ (Instr.sample 4 15).wf = true ∧ (Instr.sample 32 0xFFFFFFFF).wf = true := by decide

/-- R102: READBITS widths 0 and 33. -/
theorem test_wf_refuses_bad_widths :
    (Instr.readbits 0).wf = false ∧ (Instr.readbits 33).wf = false ∧ (Instr.readbits 32).wf = true := by decide

/-! One step of each instruction -/

/-- P7's header: SKIP = 1, STRIP = 2, BITPOS = 18. -/
theorem test_hdr_step :
    nextWith (step atHeader) (fun t =>
      t.skip = 1 ∧ t.strip = 2 ∧ t.win = 0x339 ∧ t.nbits = 14 ∧ t.bitpos = 18 ∧ t.dstate = .decodeRuns) = true := by
  decide

/-- R141: S = 0xFFFF gives STRIP = 65536, K = 3 gives SKIP = 4. -/
theorem test_hdr_largest :
    nextWith (exec (.hdr 3 0xFFFF) atHeader) (fun t => t.skip = 4 ∧ t.strip = 65536) = true := by decide

/-- R143: `0000110 011` sets RUNREM = 6, WCODE = 3, W = 4. -/
theorem test_run_step :
    nextWith (step atRunHead) (fun t =>
      t.runrem = 6 ∧ t.wcode = 3 ∧ t.w = 4 ∧ t.win = 9 ∧ t.nbits = 4 ∧ t.bitpos = 28) = true := by decide

/-- Each code takes its own entry of WTAB (R143). -/
theorem test_run_widths :
    ∀ c ∈ [(Instr.runC0 1, 0#6), (.runC1 1, 2#6), (.runC2 1, 3#6), (.runC3 1, 4#6), (.runC4 1, 5#6),
        (.runC5 1, 6#6), (.runC6 1, 7#6), (.runC7 127, 8#6)],
      nextWith (exec c.1 atRunHead) (fun t => t.w = c.2) = true := by decide

/-- P7's END: BITPOS = 59, NBITS = 5, ALLOC = CNT, DSTATE = D_DONE (R144). -/
theorem test_end_step :
    nextWith (step atEnd) (fun t =>
      t.alloc = 6 ∧ t.cnt = 6 ∧ t.dstate = .done ∧ t.bitpos = 59 ∧ t.nbits = 5 ∧ t.win = 0) = true := by decide

/-- R145's example: pred = 1, r = 4, s = 5. -/
theorem test_sample_step :
    nextWith (step atFourthSample) (fun t =>
      byteAt t .out 3 = 5 ∧ t.act = 5 ∧ t.cnt = 4 ∧ t.runrem = 2 ∧ t.bitpos = 44 ∧ byteAt t .out 2 = 3) = true := by
  decide

/-- V13 with P_ACCUM = 1: 3 + 1 - 8 + 256 = 252; P14: a full OUT faults with STATUS = 0x222. -/
theorem test_sample_wraps_and_faults :
    nextWith (exec (.sample 4 0) { atFourthSample with params := { small with accum := true } })
        (fun t => t.act = 252) = true
      ∧ nextWith (exec (.sample 0 0) outFull) (fun t => statusWord t = 0x222 ∧ t.cnt = 0) = true := by decide

/-- V5. -/
theorem test_initbuffer :
    nextWith (exec .initbuffer reading) (fun t =>
      t.win = 0 ∧ t.nbits = 0 ∧ t.boff = 4 ∧ t.bitpos = 32 ∧ statusWord t = 4) = true := by decide

/-- V6. -/
theorem test_clearbits :
    nextWith (exec .clearbits reading) (fun t =>
      t.boff = 0 ∧ t.plen = 0 ∧ t.bitpos = 0 ∧ t.win = 0x00345678 ∧ t.nbits = 24) = true := by decide

/-- V4: n = 5 pads to 8 and zeroes bytes 5 to 7 only. -/
theorem test_loadbits_pads :
    nextWith (exec .loadbits { idle small with a0 := 5, coded := holding (List.replicate 8 0xFF) }) (fun t =>
      t.plen = 8 ∧ readBytes .coded t.coded 0 8 = [0xFF, 0xFF, 0xFF, 0xFF, 0xFF, 0, 0, 0]) = true := by decide

/-- V33: LOADBITS 9 and LOADBITS 4294967295 fault with STATUS = 0x012. -/
theorem test_loadbits_faults :
    nextWith (exec .loadbits { idle small with a0 := 9 }) (fun t => statusWord t = 0x12) = true
      ∧ nextWith (exec .loadbits { idle small with a0 := 0xFFFFFFFF }) (fun t => statusWord t = 0x12) = true := by
  decide

/-- V1, second and fourth read: within the window; with n = NBITS, where the refill comes at once. -/
theorem test_readbits :
    nextWith (exec (.readbits 8) reading) (fun t => t.rv = 0x34 ∧ t.win = 0x5678 ∧ t.nbits = 16) = true
      ∧ nextWith (exec (.readbits 8) { reading with win := 0x78, nbits := 8 })
          (fun t => t.rv = 0x78 ∧ t.win = 0x9ABCDEF0 ∧ t.nbits = 32 ∧ t.boff = 8) = true := by decide

/-- V2, fifth read: the 12 window bits, then zeros from beyond the buffer. -/
theorem test_readbits_beyond :
    nextWith (exec (.readbits 32) { reading with win := 0xF00, nbits := 12, boff := 8 })
      (fun t => t.rv = 0xF0000000 ∧ t.win = 0 ∧ t.nbits = 12 ∧ t.boff = 8) = true := by decide

/-- DECODE's submission leaves a clear reader at the header, ST = BUSY (R195). -/
theorem test_decode_starts :
    nextWith (exec .decode { reading with a0 := 8 }) (fun t =>
      t.win = 0 ∧ t.nbits = 0 ∧ t.boff = 0 ∧ t.plen = 8 ∧ t.bitpos = 0 ∧ statusWord t = 0x101) = true := by decide

/-- P13: the closing transform with window 2 gives 1, 3, 2, 4, 5, 6 and STATUS = 0x304; P12: STATUS = 0x012. -/
theorem test_decode_ends :
    nextWith (step atClosing) (fun t =>
        readBytes .out t.out 0 6 = [1, 3, 2, 4, 5, 6] ∧ statusWord t = 0x304 ∧ t.cnt = 6) = true
      ∧ nextWith (exec .decode { idle small with a0 := 9 }) (fun t => statusWord t = 0x12 ∧ t.cnt = 0) = true := by
  decide

/-- V21 and V22: XFORM.F 10, 3, 0 and XFORM.F 10, 3, 2. -/
theorem test_xformF :
    nextWith (exec .xformF (lanesOf roomy 10 3 0)) (fun t =>
        readBytes .out t.out 0 10 = [0, 3, 6, 9, 1, 4, 7, 2, 5, 8]) = true
      ∧ nextWith (exec .xformF (lanesOf roomy 10 3 2)) (fun t =>
        readBytes .out t.out 0 10 = [0, 3, 1, 4, 2, 5, 6, 9, 7, 8]) = true := by decide

/-- V27: refused, identity, and the fault of STATUS = 0x032. -/
theorem test_xformF_corners :
    nextWith (exec .xformF (lanesOf small 1048577 2 0)) (fun t => statusWord t = 8) = true
      ∧ nextWith (exec .xformF (lanesOf small 1048577 1 0)) (fun t => statusWord t = 4) = true
      ∧ nextWith (exec .xformF (lanesOf small 6 2 0)) (fun t => statusWord t = 0x32) = true := by decide

/-- V21 and V22: XFORM.R 10, 3, 0 and XFORM.R 10, 3, 2. -/
theorem test_xformR :
    nextWith (exec .xformR (lanesOf roomy 10 3 0)) (fun t =>
        readBytes .out t.out 0 10 = [0, 4, 7, 1, 5, 8, 2, 6, 9, 3]) = true
      ∧ nextWith (exec .xformR (lanesOf roomy 10 3 2)) (fun t =>
        readBytes .out t.out 0 10 = [0, 2, 4, 1, 3, 5, 6, 8, 9, 7]) = true := by decide

/-- V25: a window whose product with the lanes exceeds 32 bits. -/
theorem test_xform_exact_product :
    nextWith (exec .xformF (lanesOf roomy 10 4 0xFFFFFFFF)) (fun t =>
        readBytes .out t.out 0 10 = [0, 4, 8, 1, 5, 9, 2, 6, 3, 7]) = true := by decide

/-- V34: a command in FAULT changes nothing; A0 can be written; the reset event leaves STATUS = 0. -/
theorem test_fault_is_sticky :
    nextWith (step { faulted with host := [.writeReg 0 0x10000000] }) (fun t => statusWord t = 0x12) = true
      ∧ nextWith (step { faulted with host := [.writeReg 1 7] }) (fun t => t.a0 = 7 ∧ statusWord t = 0x12) = true
      ∧ nextWith (step { faulted with host := [.reset 0] }) (fun t => statusWord t = 0 ∧ t.a0 = 0) = true := by
  decide

/-! The hypotheses of the obligations, met: for each obligation that has hypotheses a state and operands that meet
all of them together, one for each clause where it has several. -/

theorem noResetPending_of_nil {s : State} (h : s.host = []) : noResetPending s := by
  intro m hm; rw [h] at hm; cases hm

theorem test_reader_atHeader : ReaderInRange atHeader ∧ ReaderInStep atHeader := by
  unfold ReaderInRange ReaderInStep; decide

theorem test_reader_atRunHead : ReaderInRange atRunHead ∧ ReaderInStep atRunHead := by
  unfold ReaderInRange ReaderInStep; decide

theorem test_reader_atSample : ReaderInRange atSample ∧ ReaderInStep atSample := by
  unfold ReaderInRange ReaderInStep; decide

theorem test_reader_atEnd : ReaderInRange atEnd ∧ ReaderInStep atEnd := by
  unfold ReaderInRange ReaderInStep; decide

/-- V1 in the middle of the buffer, and once it has been read to its end and beyond. -/
theorem test_reader_reading :
    ReaderInRange reading ∧ ReaderInStep reading
      ∧ ReaderInRange { reading with win := 0, nbits := 32, boff := 8, bitpos := 96 }
      ∧ ReaderInStep { reading with win := 0, nbits := 32, boff := 8, bitpos := 96 } := by
  unfold ReaderInRange ReaderInStep; decide

/-- The same buffer with 12 bits left, all of them in the window, 0xEF0. -/
def nearEnd : State := { reading with win := 0xEF0, nbits := 12, boff := 8, bitpos := 52 }

theorem test_reader_nearEnd : ReaderInRange nearEnd ∧ ReaderInStep nearEnd := by
  unfold ReaderInRange ReaderInStep; decide

/-- ResetEventWorksInEveryState: in a running DECODE and in FAULT. -/
theorem test_hyp_reset_event :
    ({ atSample with host := [.reset 0] } : State).host = .reset 0 :: []
      ∧ ({ faulted with host := [.reset 0] } : State).st = .fault := ⟨rfl, rfl⟩

/-- StepRunsTheSelectedRecord: each slot, without and with a reset on its way. -/
theorem test_hyp_selected_record :
    (atHeader.st = .busy ∧ atHeader.dstate = .readHeader ∧ decode .header (lookAhead atHeader) = .ok (.hdr 0 1))
      ∧ (atRunHead.st = .busy ∧ atRunHead.dstate = .decodeRuns ∧ atRunHead.runrem = 0
        ∧ decode .runHead (lookAhead atRunHead) = .ok (.runC3 6))
      ∧ (atSample.st = .busy ∧ atSample.dstate = .decodeRuns ∧ atSample.runrem ≠ 0
        ∧ decode (.residual atSample.w) (lookAhead atSample) = .ok (.sample 4 9))
      ∧ noResetPending atSample
      ∧ ({ atSample with host := [.reset 3] } : State).host = .reset (2 + 1) :: [] := by
  refine ⟨?_, ?_, ?_, noResetPending_of_nil rfl, rfl⟩ <;> decide

/-- StepRunsTheSubmittedCommand. -/
theorem test_hyp_submitted_command :
    (idle small).st = .idle ∧ ({ idle small with host := [.writeReg 0 0x40000020] } : State).host
        = .writeReg 0 0x40000020 :: []
      ∧ decode .command 0x40000020 = .ok (.readbits 32) := by decide

/-- DecodeOfEncodeIsTheInstruction: a record followed by the longest tail, and a command with none. -/
theorem test_hyp_decode_of_encode :
    ((Instr.runC7 127).wf = true ∧ (0x3FFFFF#32).toNat < 2 ^ (32 - (Instr.runC7 127).bitLength))
      ∧ ((Instr.sample 32 0xFFFFFFFF).wf = true ∧ (0#32).toNat < 2 ^ (32 - (Instr.sample 32 0xFFFFFFFF).bitLength))
      ∧ ((Instr.readbits 32).wf = true ∧ (0#32).toNat < 2 ^ (32 - (Instr.readbits 32).bitLength)) := by decide

/-- EncodeOfDecodeIsTheWord: a word that decodes in each kind of slot. -/
theorem test_hyp_encode_of_decode :
    decode .header 0xFFFFFFFF = .ok (.hdr 3 0xFFFF) ∧ decode .runHead 0xFFFFFFFF = .ok (.runC7 127)
      ∧ decode (.residual 4) 0xFFFFFFFF = .ok (.sample 4 15) ∧ decode .command 0x60000001 = .ok .xformR := by decide

/-- OnlyReservedCommandWordsAreIllegal: the widest field; a reserved word and one that is not. -/
theorem test_hyp_reserved_words :
    (32#6).toNat ≤ 32 ∧ reservedWord 0x40000021 ∧ ¬ reservedWord 0x40000020 := by
  unfold reservedWord; decide

/-- InitbufferEffect, ClearbitsEffect, InitbufferDropsThePrefetch, ReadbitsEffect: the widths at both ends of
their ranges. -/
theorem test_hyp_reader_commands :
    reading.st = .idle ∧ ReaderInRange reading ∧ 1 ≤ (1#6).toNat ∧ (32#6).toNat ≤ 32 ∧ (0#6).toNat = 0
      ∧ 33 ≤ (33#6).toNat ∧ 33 ≤ (63#6).toNat := by
  refine ⟨rfl, test_reader_reading.1, ?_⟩; decide

/-- LoadbitsEffect: a chunk that just fits, one that is a byte too long, an unclear reader. -/
theorem test_hyp_loadbits :
    (let s := { idle small with a0 := 8 };
      s.st = .idle ∧ (s.win = 0 ∧ s.nbits = 0 ∧ s.boff = 0) ∧ 4 * ((s.a0.toNat + 3) / 4) ≤ s.params.codedBytes)
      ∧ (let s := { idle small with a0 := 9 };
        s.st = .idle ∧ (s.win = 0 ∧ s.nbits = 0 ∧ s.boff = 0) ∧ s.params.codedBytes < 4 * ((s.a0.toNat + 3) / 4))
      ∧ reading.st = .idle ∧ ¬ (reading.win = 0 ∧ reading.nbits = 0 ∧ reading.boff = 0) := by decide

/-- ReadReturnsTheStreamBits, ReadKeepsTheReaderInvariants, ReadsBeyondTheBufferAreZero: widths 1 and 32; a read
wholly beyond the buffer; in nearEnd a read that reaches one bit beyond it, and one bit less, which does not. -/
theorem test_hyp_reads :
    (1 ≤ 1 ∧ 32 ≤ 32 ∧ ReaderInRange reading ∧ ReaderInStep reading)
      ∧ 8 * reading.plen.toNat
          ≤ ({ reading with win := 0, nbits := 32, boff := 8, bitpos := 96 } : State).bitpos + 0
      ∧ (ReaderInRange nearEnd ∧ ReaderInStep nearEnd)
      ∧ 8 * nearEnd.plen.toNat < nearEnd.bitpos + 13 ∧ ¬ 8 * nearEnd.plen.toNat < nearEnd.bitpos + 12 :=
  ⟨⟨by decide, by decide, test_reader_reading.1, test_reader_reading.2.1⟩, by decide, test_reader_nearEnd,
    by decide, by decide⟩

/-- ReadKeepsTheReaderInvariants and ReadFollowsTheWindow, branch by branch: within the window; a refill inside the
buffer, at n = NBITS at once; a refill at its end. -/
theorem test_hyp_read_branches :
    (23 < reading.nbits.toNat ∧ reading.nbits.toNat ≤ 24 ∧ reading.boff.toNat < reading.plen.toNat)
      ∧ nearEnd.nbits.toNat ≤ 12 ∧ ¬ nearEnd.boff.toNat < nearEnd.plen.toNat
      ∧ ReaderInRange reading ∧ ReaderInRange nearEnd :=
  ⟨by decide, by decide, by decide, test_reader_reading.1, test_reader_nearEnd.1⟩

/-- EightBitReadsYieldTheBytes: the seven bytes that follow the first. -/
theorem test_hyp_eight_bit_reads :
    ReaderInRange reading ∧ ReaderInStep reading ∧ reading.bitpos = 8 * 1 ∧ 1 + 7 ≤ reading.plen.toNat :=
  ⟨test_reader_reading.1, test_reader_reading.2.1, by decide, by decide⟩

/-- PreparationClearsTheReader: in mid-stream, with a chunk that just fits, in both orders. -/
theorem test_hyp_preparation :
    (let s := { reading with a0 := 8 }; s.st = .idle ∧ ceil4 s.a0.toNat ≤ s.params.codedBytes)
      ∧ (Instr.initbuffer, Instr.clearbits)
        ∈ [(Instr.initbuffer, Instr.clearbits), (Instr.clearbits, Instr.initbuffer)]
      ∧ (Instr.clearbits, Instr.initbuffer)
        ∈ [(Instr.initbuffer, Instr.clearbits), (Instr.clearbits, Instr.initbuffer)] := by decide

/-- HdrEffect, StepReadsTheHeader. -/
theorem test_hyp_header :
    atHeader.st = .busy ∧ atHeader.dstate = .readHeader ∧ ReaderInRange atHeader ∧ noResetPending atHeader :=
  ⟨rfl, rfl, test_reader_atHeader.1, noResetPending_of_nil rfl⟩

/-- RunEffect, EndEffect, StepReadsTheRunHead: a RUN comes in atRunHead and an END in atEnd; N at both ends. -/
theorem test_hyp_run_head :
    (atRunHead.st = .busy ∧ atRunHead.dstate = .decodeRuns ∧ atRunHead.runrem = 0 ∧ (readBits 7 atRunHead).1 ≠ 0)
      ∧ (atEnd.st = .busy ∧ atEnd.dstate = .decodeRuns ∧ atEnd.runrem = 0 ∧ (readBits 7 atEnd).1 = 0)
      ∧ ReaderInRange atRunHead ∧ ReaderInRange atEnd ∧ noResetPending atRunHead ∧ noResetPending atEnd
      ∧ 1#7 ≠ 0 ∧ 127#7 ≠ 0 :=
  ⟨by decide, by decide, test_reader_atRunHead.1, test_reader_atEnd.1, noResetPending_of_nil rfl,
    noResetPending_of_nil rfl, by decide, by decide⟩

/-- SampleEffect: room for the last byte of OUT; the claim that fails at its end. StepReadsTheResidualField. -/
theorem test_hyp_sample :
    (atFourthSample.st = .busy ∧ atFourthSample.dstate = .decodeRuns ∧ atFourthSample.runrem ≠ 0
        ∧ atFourthSample.w = 4 ∧ (4#6).toNat ≤ 32 ∧ atFourthSample.cmderr = false
        ∧ atFourthSample.cnt.toNat < atFourthSample.params.outBytes)
      ∧ ({ outFull with cnt := 0xFFFFF } : State).cnt.toNat < outFull.params.outBytes
      ∧ (outFull.st = .busy ∧ outFull.dstate = .decodeRuns ∧ outFull.runrem ≠ 0 ∧ outFull.w = 0
        ∧ outFull.cmderr = false ∧ outFull.cnt.toNat % 2 ^ 20 = 0
        ∧ outFull.params.outBytes < outFull.cnt.toNat + 2 ^ 20)
      ∧ ReaderInRange atFourthSample ∧ ReaderInRange outFull ∧ noResetPending atFourthSample := by
  refine ⟨by decide, by decide, by decide, ?_, ?_, noResetPending_of_nil rfl⟩ <;> (unfold ReaderInRange; decide)

/-- ZeroResidualsGiveZeroSamples, for both values of P_ACCUM. -/
theorem test_hyp_zero_residuals :
    ∀ accum ∈ [false, true],
      let s := { atSample with strip := 1, params := { small with accum := accum } }
      s.st = .busy ∧ s.dstate = .decodeRuns ∧ s.runrem ≠ 0 ∧ s.w = 4 ∧ 1 ≤ (4#6).toNat ∧ (4#6).toNat ≤ 32
        ∧ s.cnt.toNat < s.params.outBytes ∧ s.strip = 1 ∧ s.act = 0 ∧ ReaderInRange s := by
  unfold ReaderInRange; decide

/-- FetchedFieldsAreTheStreamBits: a header, an END, a RUN and a residual field. -/
theorem test_hyp_fetched_fields :
    (atHeader.st = .busy ∧ atHeader.dstate = .readHeader)
      ∧ (atEnd.dstate = .decodeRuns ∧ atEnd.runrem = 0
        ∧ field atEnd.coded atEnd.plen.toNat (atEnd.bitpos + 0) 7 = 0)
      ∧ (atRunHead.dstate = .decodeRuns ∧ atRunHead.runrem = 0
        ∧ field atRunHead.coded atRunHead.plen.toNat (atRunHead.bitpos + 0) 7 ≠ 0)
      ∧ (atSample.dstate = .decodeRuns ∧ atSample.runrem ≠ 0 ∧ atSample.w.toNat ≤ 32) := by decide

/-- RecordsRunOnlyWhereSelected: each record where another one is selected. -/
theorem test_hyp_out_of_place :
    ¬ (atSample.st = .busy ∧ atSample.dstate = .readHeader)
      ∧ ¬ (atSample.st = .busy ∧ atSample.dstate = .decodeRuns ∧ atSample.runrem = 0)
      ∧ ¬ (atSample.st = .busy ∧ atSample.dstate = .decodeRuns ∧ atSample.runrem ≠ 0 ∧ atSample.w = 5
        ∧ (5#6).toNat ≤ 32)
      ∧ ¬ (atRunHead.st = .busy ∧ atRunHead.dstate = .decodeRuns ∧ atRunHead.runrem ≠ 0) := by decide

/-- LaneGeometry, LanesAreGatheredAndScattered, TransformCornerCases: V20's span of 10 bytes in 3 lanes; a span
with empty lanes; a window as long as the buffer, as the whole windows' and the unbounded mode's clauses both allow. -/
theorem test_hyp_lanes :
    (2 ≤ 3 ∧ 0 < 3 ∧ 3 < laneLength 10 3 0 ∧ laneLength 3 4 3 = 0 ∧ 9 < 10)
      ∧ [laneStart 10 3 0, laneStart 10 3 1, laneStart 10 3 2] = [0, 4, 7]
      ∧ (1 ≤ 1 ∧ ([1, 2, 3] : List Byte).length ≤ 3 ∧ ([1, 2, 3, 4] : List Byte).length ≤ 2 * 2)
      ∧ (2 ≤ 2 ∧ 0 < 2 ∧ 2 * 2 ≤ ([1, 2, 3, 4] : List Byte).length) := by decide

/-- V22, XFORM.F 10, 3, 2: the one whole window of six bytes by itself, then the four that are left (R175). -/
theorem test_window_law :
    transformBytes false 3 0 [0, 1, 2, 3, 4, 5] = [0, 3, 1, 4, 2, 5]
      ∧ transformBytes false 3 2 [6, 7, 8, 9] = [6, 9, 7, 8] := by decide

/-- XformEffect: refused, faulted and completed, each at its bound. -/
theorem test_hyp_xform :
    ((Instr.xformF, false) ∈ [(Instr.xformF, false), (.xformR, true)]
        ∧ (Instr.xformR, true) ∈ [(Instr.xformF, false), (.xformR, true)])
      ∧ (lanesOf small 1048577 2 0).st = .idle
      ∧ (2 ≤ (2#32).toNat ∧ small.outBytes < (1048577#32).toNat)
      ∧ (¬ (2 ≤ (2#32).toNat ∧ small.outBytes < (5#32).toNat) ∧ small.tmpBytes < 5)
      ∧ (¬ (2 ≤ (2#32).toNat ∧ small.outBytes < (1048576#32).toNat) ∧ min 1048576 (2 * 2) ≤ small.tmpBytes)
      ∧ (1048576 ≤ 1048576 ∨ 2 ≤ 1) := by decide

/-- DecodeStarts: a chunk that just fits and one that is a byte too long. -/
theorem test_hyp_decode_starts :
    (let s := { idle small with a0 := 8 };
      s.st = .idle ∧ 4 * ((s.a0.toNat + 3) / 4) ≤ s.params.codedBytes)
      ∧ (let s := { idle small with a0 := 9 };
        s.st = .idle ∧ s.params.codedBytes < 4 * ((s.a0.toNat + 3) / 4)) := by decide

/-- ClosingRestoresTheOutput: with a window whose need is just met, and unbounded, where it is not. -/
theorem test_hyp_closing :
    (atClosing.st = .busy ∧ atClosing.dstate = .done ∧ atClosing.cmderr = false
        ∧ atClosing.cnt.toNat ≤ atClosing.params.outBytes)
      ∧ noResetPending atClosing
      ∧ min atClosing.cnt.toNat (atClosing.skip.toNat * atClosing.a1.toNat) ≤ atClosing.params.tmpBytes
      ∧ atClosing.params.tmpBytes < ({ atClosing with a1 := 0 } : State).cnt.toNat :=
  ⟨by decide, noResetPending_of_nil rfl, by decide, by decide⟩

/-! DecodeIsTheFunctionOfTheStream: a chunk that decodes, one whose transform lacks TMP, one whose samples
do not fit OUT -/

/-- P7 submitted: everything fits. P13 with an unbounded window: its six samples need 6 bytes of TMP. -/
def submittedP7 : State := { idle small with coded := atHeader.coded, a0 := 8, host := [.writeReg 0 0x50000000] }

def submittedP13 : State :=
  { idle { small with codedWords := 3 } with
    coded := holding [0x40, 0x00, 0x03, 0x78, 0x18, 0x28, 0x38, 0x48, 0x58, 0x60, 0x00]
    a0 := 11, host := [.writeReg 0 0x50000000] }

theorem test_hyp_decode_function_fits :
    submittedP7.st = .idle ∧ ceil4 submittedP7.a0.toNat ≤ submittedP7.params.codedBytes
      ∧ specSamples submittedP7.params (loadBits 8 submittedP7).coded 8 = [1, 2, 3, 5, 6, 8] := by decide

theorem test_hyp_decode_function_lacks_tmp :
    submittedP13.st = .idle ∧ ceil4 submittedP13.a0.toNat ≤ submittedP13.params.codedBytes
      ∧ specSamples submittedP13.params (loadBits 11 submittedP13).coded 12 = [1, 2, 3, 4, 5, 6]
      ∧ submittedP13.params.tmpBytes < tmpNeed 6 (specSkip (loadBits 11 submittedP13).coded 12) 0 := by decide

/-- A chunk of 10324 bytes FF: 8257 runs of 127 samples of width 0 (code 7 has it here), as in P14. -/
def ones (b n : Nat) : List Host.Cell := (List.range' b n).map fun a => (a, 0xFF)

def submittedOnes : State :=
  { idle { small with wtab := #v[0, 2, 3, 4, 5, 6, 7, 0], codedWords := 2581 } with
    coded := { cells := ones 0 10324, marks := [] }, a0 := 10324, host := [.writeReg 0 0x50000000] }

theorem cellAt_ones (b n a : Nat) (h1 : b ≤ a) (h2 : a < b + n) : cellAt (ones b n) a = some 0xFF := by
  induction n generalizing b with
  | zero => omega
  | succ n ih =>
    simp only [ones, List.range'_succ, List.map_cons, cellAt]
    split
    · rfl
    · exact ih (b + 1) (by omega) (by omega)

/-- Every field inside such a chunk is all ones. -/
theorem field_ones (m : Memory) (n p k : Nat) (hm : m.cells = ones 0 n) (h : p + k ≤ 8 * n) :
    field m n p k + 1 = 2 ^ k := by
  induction k with
  | zero => rfl
  | succ k ih =>
    have hq : (p + k) / 8 < n := by omega
    have hb : streamBit m n (p + k) = true := by
      have h1 : p + k < 8 * n := by omega
      have h2 : (p + k) % 8 < 8 := Nat.mod_lt _ (by decide)
      have h3 : ∀ j, j < 8 → (0xFF : Byte).getLsbD (7 - j) = true := by decide
      simp only [streamBit, readByte, hm, cellAt_ones 0 n ((p + k) / 8) (Nat.zero_le _) (by omega), h1, decide_true,
        Bool.true_and]
      exact h3 _ h2
    rw [field, hb, Nat.pow_succ, ← ih (by omega), Bool.toNat_true]
    omega

theorem length_specRun (params : Params) (m : Memory) (plen strip w n p : Nat) (out : List Byte) :
    (specRun params m plen strip w n p out).length = out.length + n := by
  induction n generalizing p out with
  | zero => rfl
  | succ n ih => simp only [specRun, ih, List.length_append, List.length_singleton]; omega

/-- Each ten bits of such a chunk are a run of 127 samples that reads no further bits. -/
theorem length_specRuns_ones (params : Params) (m : Memory) (n strip more j p : Nat) (out : List Byte)
    (hm : m.cells = ones 0 n) (hw : params.width 7 = 0) (hj : j ≤ more) (h : p + 10 * j ≤ 8 * n) :
    out.length + 127 * j ≤ (specRuns params m n strip more p out).length := by
  induction j generalizing more p out with
  | zero =>
    have mono : ∀ (more p : Nat) (out : List Byte), out.length ≤ (specRuns params m n strip more p out).length := by
      intro more
      induction more with
      | zero => intro p out; exact Nat.le_refl _
      | succ more ih =>
        intro p out
        simp only [specRuns]
        split
        · exact Nat.le_refl _
        · refine Nat.le_trans ?_ (ih _ _)
          rw [length_specRun]; omega
    simpa using mono more p out
  | succ j ih =>
    obtain ⟨more, rfl⟩ : ∃ k, more = k + 1 := ⟨more - 1, by omega⟩
    have e7 : field m n p 7 = 127 := by have := field_ones m n p 7 hm (by omega); omega
    have e3 : field m n (p + 7) 3 = 7 := by have := field_ones m n (p + 7) 3 hm (by omega); omega
    have e : specRuns params m n strip (more + 1) p out =
        specRuns params m n strip more (p + 10) (specRun params m n strip 0 127 (p + 10) out) := by
      simp only [specRuns, e7, e3]
      rw [show BitVec.ofNat 3 7 = 7 from rfl, hw]
      simp
    rw [e]
    refine Nat.le_trans ?_ (ih more (p + 10) _ (by omega) (by omega))
    rw [length_specRun]
    omega

theorem loadBits_coded_of_ceil4 (n : Nat) (s : State) (h : ceil4 n = n) : (loadBits n s).coded = s.coded := by
  simp [loadBits, h, writeBytes]

theorem test_hyp_decode_function_overflows :
    submittedOnes.st = .idle ∧ ceil4 submittedOnes.a0.toNat ≤ submittedOnes.params.codedBytes
      ∧ submittedOnes.params.outBytes
        < (specSamples submittedOnes.params (loadBits 10324 submittedOnes).coded 10324).length := by
  refine ⟨rfl, by decide, ?_⟩
  rw [loadBits_coded_of_ceil4 10324 submittedOnes (by decide)]
  have h := length_specRuns_ones submittedOnes.params submittedOnes.coded 10324
    (specStrip submittedOnes.coded 10324) (8 * 10324 / 10 + 2) 8257 18 [] rfl (by decide) (by decide) (by decide)
  exact Nat.lt_of_lt_of_le (by decide) h

/-! The whole invariant, in IDLE, at every place of a DECODE, and in FAULT -/

theorem test_invariant_idle : Invariant (idle small) :=
  ⟨by unfold StatusConsistent; decide, by unfold MemoriesCanonical CellsBelow; decide,
    fun _ => by unfold ReaderInRange HeaderInRange; decide, fun h => absurd h (by decide), fun _ => .inl rfl,
    fun h => absurd h.1 (by decide)⟩

theorem test_invariant_atHeader : Invariant atHeader :=
  ⟨by unfold StatusConsistent; decide, by unfold MemoriesCanonical CellsBelow; decide,
    fun _ => ⟨test_reader_atHeader.1, by unfold HeaderInRange; decide⟩,
    fun _ => ⟨test_reader_atHeader.2, by decide⟩, fun h => absurd h (by decide),
    fun h => absurd h.2 (by decide)⟩

theorem test_invariant_atRunHead : Invariant atRunHead :=
  ⟨by unfold StatusConsistent; decide, by unfold MemoriesCanonical CellsBelow; decide,
    fun _ => ⟨test_reader_atRunHead.1, by unfold HeaderInRange; decide⟩,
    fun _ => ⟨test_reader_atRunHead.2, by decide⟩, fun h => absurd h (by decide), fun _ => by decide⟩

theorem test_invariant_atFourthSample : Invariant atFourthSample :=
  ⟨by unfold StatusConsistent; decide, by unfold MemoriesCanonical CellsBelow; decide,
    fun _ => by unfold ReaderInRange HeaderInRange; decide,
    fun _ => by unfold ReaderInStep; decide, fun h => absurd h (by decide), fun _ => by decide⟩

theorem test_invariant_atClosing : Invariant atClosing :=
  ⟨by unfold StatusConsistent; decide, by unfold MemoriesCanonical CellsBelow; decide,
    fun _ => by unfold ReaderInRange HeaderInRange; decide,
    fun _ => by unfold ReaderInStep; decide, fun h => absurd h (by decide), fun _ => by decide⟩

theorem test_invariant_faulted : Invariant faulted :=
  ⟨by unfold StatusConsistent; decide, by unfold MemoriesCanonical CellsBelow; decide,
    fun h => absurd rfl h, fun h => absurd h (by decide), fun h => absurd h (by decide),
    fun h => absurd h.1 (by decide)⟩

/-- DecodeTerminates, StepKeepsTheInvariant and the statements about a part of it, ParametersNeverChange,
HostHasNoMoveWhileBusy, DecodingLeavesTheStreamAlone: a state that meets the invariant and takes a step. -/
theorem test_hyp_invariant_steps :
    (Invariant atHeader ∧ atHeader.st = .busy ∧ atHeader.dstate = .readHeader ∧ noResetPending atHeader)
      ∧ (Invariant atFourthSample ∧ noResetPending atFourthSample ∧ noResetDue atFourthSample
        ∧ ∃ t, step atFourthSample = .next t ∧ t.st ≠ .fault)
      ∧ (Invariant atClosing ∧ ∃ t, step atClosing = .next t ∧ t.st = .idle) := by
  refine ⟨⟨test_invariant_atHeader, rfl, rfl, noResetPending_of_nil rfl⟩,
    ⟨test_invariant_atFourthSample, noResetPending_of_nil rfl, by unfold noResetDue; decide, ?_⟩,
    test_invariant_atClosing, ?_⟩
  · obtain ⟨t, ht, h⟩ := exists_next (o := step atFourthSample) (good := fun t => t.st ≠ .fault) (by decide)
    exact ⟨t, ht, by simpa using h⟩
  · obtain ⟨t, ht, h⟩ := exists_next (o := step atClosing) (good := fun t => t.st = .idle) (by decide)
    exact ⟨t, ht, by simpa using h⟩

theorem test_invariant_submittedP7 : Invariant submittedP7 :=
  ⟨by unfold StatusConsistent; decide, by unfold MemoriesCanonical CellsBelow; decide,
    fun _ => by unfold ReaderInRange HeaderInRange; decide, fun h => absurd h (by decide), fun _ => .inl rfl,
    fun h => absurd h.1 (by decide)⟩

theorem test_invariant_atEnd : Invariant atEnd :=
  ⟨by unfold StatusConsistent; decide, by unfold MemoriesCanonical CellsBelow; decide,
    fun _ => ⟨test_reader_atEnd.1, by unfold HeaderInRange; decide⟩,
    fun _ => ⟨test_reader_atEnd.2, by decide⟩, fun h => absurd h (by decide), fun _ => by decide⟩

/-- DecoderStateTransitions: each of the three. -/
theorem test_hyp_transitions :
    (Invariant submittedP7 ∧ Invariant atHeader ∧ Invariant atEnd)
      ∧ (noResetDue submittedP7 ∧ noResetDue atHeader ∧ noResetDue atEnd)
      ∧ nextWith (step submittedP7) (fun t => t.dstate ≠ submittedP7.dstate) = true
      ∧ nextWith (step atHeader) (fun t => t.dstate ≠ atHeader.dstate) = true
      ∧ nextWith (step atEnd) (fun t => t.dstate ≠ atEnd.dstate) = true := by
  refine ⟨⟨test_invariant_submittedP7, test_invariant_atHeader, test_invariant_atEnd⟩, ?_⟩
  unfold noResetDue; decide

/-- EmptyChunkDecodesToNothing. -/
theorem test_hyp_empty_chunk :
    let s := { idle small with host := [.writeReg 0 0x50000000] }
    s.st = .idle ∧ s.cause = .none ∧ s.host = [.writeReg 0 0x50000000] ∧ s.a0 = 0 := by decide

/-- ReservedWordsChangeOnlyFlags. -/
theorem test_hyp_reserved :
    let s := { idle small with host := [.writeReg 0 0x70000000] }
    s.st = .idle ∧ s.host = .writeReg 0 0x70000000 :: [] ∧ reservedWord 0x70000000 := by
  unfold reservedWord; decide

/-- HostRegisterAccess: the last register and the first absent one, in IDLE and in FAULT. -/
theorem test_hyp_host_registers :
    (let s := { idle small with host := [.readReg 8] }; s.st ≠ .busy ∧ s.host = .readReg 8 :: [])
      ∧ (let s := { faulted with host := [.readReg 9] }; s.st ≠ .busy ∧ s.host = .readReg 9 :: [])
      ∧ (let s := { faulted with host := [.writeReg 3 7] }; s.st ≠ .busy ∧ s.host = .writeReg 3 7 :: [] ∧ 3 ≠ 0)
      ∧ (let s := { idle small with host := [.writeReg 9 7] };
        s.st ≠ .busy ∧ s.host = .writeReg 9 7 :: [] ∧ 9 ≠ 0) := by decide

/-- HostByteAccess: the last byte of CODED, the first that does not exist, a write in FAULT. -/
theorem test_hyp_host_bytes :
    (let s := { idle small with host := [.writeByte .coded 7 1] };
      (7#32).toNat < s.params.capacity HostSpace.coded.space ∧ s.st = .idle)
      ∧ (let s := { faulted with host := [.readByte .out 0xFFFFF] };
        (0xFFFFF#32).toNat < s.params.capacity HostSpace.out.space ∧ s.st ≠ .busy)
      ∧ (let s := { faulted with host := [.writeByte .coded 7 1] };
        (7#32).toNat < s.params.capacity HostSpace.coded.space ∧ s.st = .fault)
      ∧ (let s := { idle small with host := [.readByte .coded 8] };
        s.params.capacity HostSpace.coded.space ≤ (8#32).toNat ∧ s.st ≠ .busy) := by decide

/-- CommandsNeedAnIdleBlock, IdleWithoutAMoveKeepsAllState. -/
theorem test_hyp_command_slot :
    Instr.xformF.slot = .command ∧ atSample.st = .busy ∧ faulted.st = .fault ∧ faulted.host = []
      ∧ (idle small).st ≠ .busy ∧ (idle small).host = [] := by decide

/-- FaultIsSticky: with a command, with a write to A0 and with a reset on its way. -/
theorem test_hyp_sticky :
    (let s := { faulted with host := [.writeReg 0 0x50000000] };
      s.st = .fault ∧ noResetDue s ∧ nextWith (step s) (fun _ => true) = true)
      ∧ (let s := { faulted with host := [.writeReg 1 7] };
        s.st = .fault ∧ s.host = .writeReg 1 7 :: [] ∧ 1 ≠ 0)
      ∧ (let s := { faulted with host := [.reset 2] };
        s.st = .fault ∧ noResetDue s ∧ nextWith (step s) (fun _ => true) = true) := by
  unfold noResetDue; decide

/-- EqualCellListsAreEqualData: two writes in either order. -/
theorem test_hyp_equal_cell_lists :
    let c := putCell (putCell [] 5 1) 3 2
    let d := putCell (putCell [] 3 2) 5 1
    risingCells c = true ∧ risingCells d = true ∧ c = d := by decide

/-- NothingGetsStuck: the host's access is one the spec gives it. -/
theorem test_hyp_nothing_stuck :
    Invariant { idle small with host := [.writeByte .coded 7 1] }
      ∧ (idle small).st = .idle ∧ (7#32).toNat < (idle small).params.capacity HostSpace.coded.space :=
  ⟨⟨by unfold StatusConsistent; decide, by unfold MemoriesCanonical CellsBelow; decide,
    fun _ => by unfold ReaderInRange HeaderInRange; decide, fun h => absurd h (by decide), fun _ => .inl rfl,
    fun h => absurd h.1 (by decide)⟩, by decide, by decide⟩

end Sys2Proof.Tests
end

section
/-! PROOFS. What the host reads from and writes to the nine registers (10_state.md R36). -/

namespace Sys2Proof.Machine

/-- The host's list is no part of what a register read returns. -/
@[simp] theorem readRegister_host (s : State) (hs : List HostMove) (reg : Nat) :
    readRegister { s with host := hs } reg = readRegister s reg := by
  unfold readRegister
  split <;> rfl

/-- The register file as one table of values, the views of SKIP and STRIP zero-extended (R36, R41). -/
theorem readRegister_eq (s : State) (reg : Nat) :
    readRegister s reg =
      if reg = 1 then s.a0 else if reg = 2 then s.a1 else if reg = 3 then s.a2
      else if reg = 4 then statusWord s else if reg = 5 then s.rv else if reg = 6 then s.cnt
      else if reg = 7 then BitVec.ofNat 32 s.skip.toNat
      else if reg = 8 then BitVec.ofNat 32 s.strip.toNat else 0 := by
  unfold readRegister
  split
  case h_9 => simp_all -- an absent number, or CMD
  all_goals simp

/-- A register write as one update of A0 to A2: each takes the value under its own number only (R36). -/
theorem writeRegister_eq (s : State) (reg : Nat) (v : Word) :
    writeRegister s reg v =
      { s with
        a0 := if reg = 1 then v else s.a0
        a1 := if reg = 2 then v else s.a1
        a2 := if reg = 3 then v else s.a2 } := by
  unfold writeRegister
  split
  case h_4 => simp_all -- a read-only or absent number, or CMD
  all_goals rfl

/-- In IDLE or FAULT a register read only moves the register's value to the host. -/
theorem step_readReg {s : State} {reg : Nat} {rest : List HostMove} (hb : s.st ≠ .busy)
    (hh : s.host = .readReg reg :: rest) :
    step s = .next { s with host := rest, hostRead := readRegister s reg } := by
  simp [step_move hb hh rfl, hostMove]

/-- In IDLE or FAULT a write to a register other than CMD is that register's write and nothing else. -/
theorem step_writeReg {s : State} {reg : Nat} {v : Word} {rest : List HostMove} (hb : s.st ≠ .busy)
    (hh : s.host = .writeReg reg v :: rest) (hreg : reg ≠ 0) :
    step s = .next (writeRegister { s with host := rest } reg v) := by
  simp [step_move hb hh rfl, hostMove, hreg]

/-- Settles O43: the step is the host's register access, and each access is its table of R36. -/
theorem hostRegisterAccess : Obligations.HostRegisterAccess := by
  unfold Obligations.HostRegisterAccess
  intro s rest reg hb
  constructor
  · intro hh
    rw [step_readReg hb hh, readRegister_eq]
  · intro v hh hreg
    rw [step_writeReg hb hh hreg, writeRegister_eq]

end Sys2Proof.Machine
end

section
/-! PROOFS. A reserved command word in IDLE (30_encoding.md R102; 43_host_commands.md R192). -/

namespace Sys2Proof

open Sys2Proof.Safety

/-- A bit range of a word as a number. -/
theorem toNat_extractLsb'_eq_div_mod {w : Nat} (x : BitVec w) (start len : Nat) :
    (x.extractLsb' start len).toNat = x.toNat / 2 ^ start % 2 ^ len := by
  rw [BitVec.extractLsb'_toNat, Nat.shiftRight_eq_div_pow]

/-- A plain operation decodes only with the immediate 0. -/
theorem decodePlain_ok {imm : BitVec 8} {i j : Instr} (h : decodePlain imm i = .ok j) : imm.toNat = 0 := by
  unfold decodePlain at h
  split at h
  · simp [*]
  · cases h

/-- READBITS decodes only with IMM bits 7 to 6 zero and a width of 1 to 32. -/
theorem decodeReadbits_ok {imm : BitVec 8} {i : Instr} (h : decodeReadbits imm = .ok i) :
    1 ≤ imm.toNat ∧ imm.toNat ≤ 32 := by
  unfold decodeReadbits at h
  split at h
  · cases h
  · rename_i htop
    split at h
    · rename_i hwidth
      simp only [readWidthOk, Bool.and_eq_true, bne_iff_ne, decide_eq_true_eq] at hwidth
      obtain ⟨hpos, hle⟩ := hwidth
      have := toNat_extractLsb'_eq_div_mod imm 0 6
      have := toNat_extractLsb'_eq_div_mod imm 6 2
      bv_omega
    · cases h

/-- XFORM decodes only with the immediates 0 and 1. -/
theorem decodeXform_ok {imm : BitVec 8} {i : Instr} (h : decodeXform imm = .ok i) : imm.toNat ≤ 1 := by
  unfold decodeXform at h
  split at h
  · simp [*]
  · split at h
    · simp [*]
    · cases h

/-- A command word that decodes is not reserved (R102): its OP is 1 to 6, and IMM is one that OP defines. -/
theorem not_reservedWord_of_decode {v : Word} {i : Instr} (h : decode .command v = .ok i) : ¬ reservedWord v := by
  have hop := toNat_extractLsb'_eq_div_mod v 28 4
  have hmid := toNat_extractLsb'_eq_div_mod v 8 20
  have himm := toNat_extractLsb'_eq_div_mod v 0 8
  simp only [decode, decodeCommand] at h
  simp only [reservedWord]
  split at h
  · cases h
  split at h
  · have := decodePlain_ok h; bv_omega
  split at h
  · have := decodePlain_ok h; bv_omega
  split at h
  · have := decodePlain_ok h; bv_omega
  split at h
  · have := decodeReadbits_ok h; bv_omega
  split at h
  · have := decodePlain_ok h; bv_omega
  split at h
  · have := decodeXform_ok h; bv_omega
  · cases h

end Sys2Proof

namespace Sys2Proof.Machine

open Sys2Proof.Safety

/-- Outside FAULT a reserved word is refused, whatever the host's list (R192, R220). -/
theorem commandWord_reserved {v : Word} {s : State} (hs : s.st ≠ .fault) (hv : reservedWord v) :
    commandWord v s = .rest (.next (refuseCommand s)) := by
  unfold commandWord
  rw [if_neg hs]
  split
  · exact absurd hv (not_reservedWord_of_decode ‹_›)
  · rfl

/-- Settles O42: the host's move is the refusal of the word, whose whole effect is on the two flags. -/
theorem reservedWordsChangeOnlyFlags : Obligations.ReservedWordsChangeOnlyFlags := by
  unfold Obligations.ReservedWordsChangeOnlyFlags
  intro s v rest hs hh hv
  have hmove : hostMove (.writeReg 0 v) { s with host := rest } =
      .rest (.next (refuseCommand { s with host := rest })) :=
    commandWord_reserved (by simp [hs]) hv
  rw [step_move (by simp [hs]) hh rfl, hmove]
  rfl

end Sys2Proof.Machine
end

section
/-! PROOFS. The record a step fetches, as bits of the stream (30_encoding.md R91 to R96). -/

namespace Sys2Proof.Safety

open Sys2Proof.Machine

/-- The window and the word after it hold the next NBITS + 32 stream bits. -/
theorem supply_eq_field {s : State} (hr : ReaderInRange s) (hz : ReaderInStep s) :
    supply s = field s.coded s.plen.toNat s.bitpos (s.nbits.toNat + 32) := by
  rw [supply, field_add, toNat_refill hr hz, hz.1]

/-- The look-ahead word is the next 32 stream bits, the first at bit 31. -/
theorem toNat_lookAhead {s : State} (hr : ReaderInRange s) (hz : ReaderInStep s) :
    (lookAhead s).toNat = field s.coded s.plen.toNat s.bitpos 32 := by
  rw [lookAhead, readBits_value (by decide) (by decide) hr, supply_eq_field hr hz, Nat.add_sub_cancel,
    Nat.add_comm, field_div]

/-- The n stream bits from q on stand in a word of 32 stream bits above the k bits after them. -/
theorem extract_eq_field {word : Word} {m : Memory} {plen p : Nat} (hword : word.toNat = field m plen p 32)
    (q : Nat) {n k : Nat} (h : q + n + k = 32) :
    word.extractLsb' k n = BitVec.ofNat n (field m plen (p + q) n) := by
  apply BitVec.eq_of_toNat_eq
  rw [toNat_extractLsb'_eq_div_mod, hword, ← h, field_div, field_mod, BitVec.toNat_ofNat,
    Nat.mod_eq_of_lt (field_lt ..)]

/-- A header's operands in a word of 32 stream bits (R91). -/
theorem decodeHeader_eq_fields {word : Word} {m : Memory} {plen p : Nat} (hword : word.toNat = field m plen p 32) :
    decodeHeader word = .hdr (BitVec.ofNat 2 (field m plen p 2)) (BitVec.ofNat 16 (field m plen (p + 2) 16)) := by
  rw [decodeHeader, extract_eq_field hword 0 rfl, extract_eq_field hword 2 rfl, Nat.add_zero]

/-- A run head in a word of 32 stream bits: END for the length 0, RUN with the code after it otherwise (R92, R93). -/
theorem decodeRunHead_eq_fields {word : Word} {m : Memory} {plen p : Nat} (hword : word.toNat = field m plen p 32) :
    decodeRunHead word =
      if field m plen p 7 = 0 then .endRec
      else runOfCode (BitVec.ofNat 3 (field m plen (p + 7) 3)) (BitVec.ofNat 7 (field m plen p 7)) := by
  have hzero : BitVec.ofNat 7 (field m plen p 7) = 0 ↔ field m plen p 7 = 0 := by
    rw [BitVec.toNat_eq, BitVec.toNat_ofNat, Nat.mod_eq_of_lt (field_lt ..)]; rfl
  rw [decodeRunHead, extract_eq_field hword 0 rfl, extract_eq_field hword 7 rfl, Nat.add_zero]
  simp only [hzero]

/-- A residual field of w bits in a word of 32 stream bits (R94). -/
theorem decodeResidual_eq_field {word : Word} {m : Memory} {plen p : Nat} (hword : word.toNat = field m plen p 32)
    {w : BitVec 6} (hw : w.toNat ≤ 32) :
    decodeResidual w word = .ok (.sample w (BitVec.ofNat 32 (field m plen p w.toNat))) := by
  have hfield : word >>> (32 - w.toNat) = BitVec.ofNat 32 (field m plen p w.toNat) := by
    rw [← BitVec.toNat_inj, BitVec.toNat_ushiftRight, Nat.shiftRight_eq_div_pow, hword,
      field_div_of_le _ _ _ (Nat.sub_le ..), Nat.sub_sub_self hw, BitVec.toNat_ofNat, Nat.mod_eq_of_lt]
    exact (field_lt ..).trans_le (Nat.pow_le_pow_right (by decide) hw)
  rw [decodeResidual, if_pos hw, hfield]

end Sys2Proof.Safety

namespace Sys2Proof.Machine

open Sys2Proof.Safety

/-- While BUSY and with no reset on its way, a step fetches what DSTATE and RUNREM select. -/
theorem fetch_busy {s : State} (hb : s.st = .busy) (hn : noResetPending s) : fetch s = busyTurn s := by
  unfold fetch
  split
  case h_1 hh => simp [noResetPending, hh, HostMove.isReset] at hn
  case h_2 hh => simp [noResetPending, hh, HostMove.isReset] at hn
  case h_3 => rw [blockTurn, if_pos hb]

theorem busyTurn_readHeader {s : State} (hd : s.dstate = .readHeader) : busyTurn s = fetchRecord .header s := by
  simp [busyTurn, hd]

theorem busyTurn_runHead {s : State} (hd : s.dstate = .decodeRuns) (hrun : s.runrem = 0) :
    busyTurn s = fetchRecord .runHead s := by
  simp [busyTurn, hd, hrun]

theorem busyTurn_residual {s : State} (hd : s.dstate = .decodeRuns) (hrun : s.runrem ≠ 0) :
    busyTurn s = fetchRecord (.residual s.w) s := by
  simp only [busyTurn, hd, if_neg hrun]

/-- A record whose bits decode is fetched over the state as it stands: looking ahead changes nothing. -/
theorem fetchRecord_of_decode {slot : Slot} {s : State} {i : Instr} (h : decode slot (lookAhead s) = .ok i) :
    fetchRecord slot s = .run i s := by
  simp [fetchRecord, h]

/-- Settles O28: the look-ahead word is the 32 stream bits at BITPOS, and each record's operands are its fields. -/
theorem fetchedFieldsAreTheStreamBits : Obligations.FetchedFieldsAreTheStreamBits := by
  unfold Obligations.FetchedFieldsAreTheStreamBits
  intro s hb hr hz hn
  have hword := toNat_lookAhead hr hz
  rw [fetch_busy hb hn]
  refine ⟨fun hd => ?_, fun hd hrun hend => ?_, fun hd hrun hlen => ?_, fun hd hrun hw => ?_⟩
  · rw [busyTurn_readHeader hd]
    exact fetchRecord_of_decode (congrArg Except.ok (decodeHeader_eq_fields hword))
  · rw [busyTurn_runHead hd hrun]
    exact fetchRecord_of_decode (congrArg Except.ok ((decodeRunHead_eq_fields hword).trans (if_pos hend)))
  · rw [busyTurn_runHead hd hrun]
    exact fetchRecord_of_decode (congrArg Except.ok ((decodeRunHead_eq_fields hword).trans (if_neg hlen)))
  · rw [busyTurn_residual hd hrun]
    exact fetchRecord_of_decode (decodeResidual_eq_field hword hw)

end Sys2Proof.Machine
end

section
/-! PROOFS. INITBUFFER and CLEARBITS as commands (40_bit_reader.md R121, R122). -/

namespace Sys2Proof.Machine

/-- From IDLE, acceptance and completion together change nothing but the two flags (R190, R193). -/
theorem complete_accept_of_idle {s : State} (h : s.st = .idle) :
    complete (accept s) = { s with done := true, cmderr := false } := by
  simp [complete, accept, h]

theorem exec_initbuffer_of_idle {s : State} (h : s.st = .idle) :
    exec .initbuffer s = .next (complete (accept (initBuffer s))) :=
  submit_idle (fun t => .next (complete (initBuffer (accept t)))) h

theorem exec_clearbits_of_idle {s : State} (h : s.st = .idle) :
    exec .clearbits s = .next (complete (accept (clearBits s))) :=
  submit_idle (fun t => .next (complete (clearBits (accept t)))) h

/-- Settles O10: the command is initBuffer between acceptance and completion. -/
theorem initbufferEffect : Obligations.InitbufferEffect := by
  unfold Obligations.InitbufferEffect
  refine ⟨by decide, fun s hs => ?_⟩
  rw [exec_initbuffer_of_idle hs, complete_accept_of_idle (s := initBuffer s) hs]
  rfl

/-- Settles O11: the command is clearBits between acceptance and completion. -/
theorem clearbitsEffect : Obligations.ClearbitsEffect := by
  unfold Obligations.ClearbitsEffect
  refine ⟨by decide, fun s hs => ?_⟩
  rw [exec_clearbits_of_idle hs, complete_accept_of_idle (s := clearBits s) hs]
  rfl

end Sys2Proof.Machine
end

section
/-! PROOFS. The value of a read as bits of the stream, inside the buffer and beyond it (40_bit_reader.md R125, R126). -/

namespace Sys2Proof.Safety

open Sys2Proof.Machine

/-- A read delivers the field of n stream bits at BITPOS: the top n bits of the supply are its first n (R125). -/
theorem readBits_eq_field {s : State} {n : Nat} (h1 : 1 ≤ n) (h32 : n ≤ 32) (hr : ReaderInRange s)
    (hz : ReaderInStep s) : (readBits n s).1.toNat = field s.coded s.plen.toNat s.bitpos n := by
  rw [readBits_value h1 h32 hr, supply_eq_field hr hz, field_div_of_le _ _ _ (Nat.sub_le ..),
    Nat.sub_sub_self (by omega)]

/-- Bit k of a read, counted from the first, is stream bit BITPOS + k. -/
theorem readBits_bit {s : State} {n k : Nat} (hk : k < n) (h32 : n ≤ 32) (hr : ReaderInRange s)
    (hz : ReaderInStep s) :
    (readBits n s).1.getLsbD (n - 1 - k) = streamBit s.coded s.plen.toNat (s.bitpos + k) := by
  rw [BitVec.getLsbD, readBits_eq_field (by omega) h32 hr hz, field_testBit _ _ _ _ _ hk]

/-- A read that ends beyond the buffer finds BOFF at PLEN already: a word still to be fetched would hold 32 bits
after those in the window, more than the read takes. -/
theorem boff_not_lt_plen_of_read_beyond {s : State} {n : Nat} (h32 : n ≤ 32) (hr : ReaderInRange s)
    (hz : ReaderInStep s) (hn : 8 * s.plen.toNat < s.bitpos + n) : ¬ s.boff.toNat < s.plen.toNat := by
  obtain ⟨-, -, hb, hp, -, -⟩ := hr
  obtain ⟨-, hz | ⟨heq, -⟩⟩ := hz
  · omega
  · rw [heq]; exact Nat.lt_irrefl _

/-- With BOFF at PLEN a read makes no access to CODED: other contents there leave its value and the reader alone. -/
theorem readBits_withCoded {s : State} (h : ¬ s.boff.toNat < s.plen.toNat) (n : Nat) (m : Memory) :
    readBits n { s with coded := m } = ((readBits n s).1, { advance n s with coded := m }) := by
  by_cases hn : n < s.nbits.toNat
  · simp [advance, readBits_within, hn]
  · simp [advance, readBits_refill, not_lt.mp hn, refill, boffAfter, h]

/-- Settles O14: the window and the next word hold the stream bits from BITPOS on, and a read takes the first n. -/
theorem readReturnsTheStreamBits : Obligations.ReadReturnsTheStreamBits := by
  unfold Obligations.ReadReturnsTheStreamBits
  intro s n h1 h32 hr hz
  exact readBits_eq_field h1 h32 hr hz

/-- Settles O16: the value is made of stream bits, which are zero beyond the buffer, and no refill word is fetched. -/
theorem readsBeyondTheBufferAreZero : Obligations.ReadsBeyondTheBufferAreZero := by
  unfold Obligations.ReadsBeyondTheBufferAreZero
  intro s n h1 h32 hr hz
  refine ⟨fun k hk hbeyond => ?_, fun hbeyond => ?_, fun hbeyond m => ?_⟩
  · rw [readBits_bit hk h32 hr hz, streamBit_beyond _ hbeyond]
  · apply BitVec.eq_of_toNat_eq
    rw [readBits_eq_field h1 h32 hr hz, field_beyond _ hbeyond]
    rfl
  · exact readBits_withCoded (boff_not_lt_plen_of_read_beyond h32 hr hz hbeyond) n m

end Sys2Proof.Safety
end

section
/-! PROOFS. A read of 1 to 32 bits keeps the reader's invariants (10_state.md R45; 40_bit_reader.md R124). -/

namespace Sys2Proof.Safety

open Sys2Proof.Machine

/-- I1 to I3 of R45: a read leaves fewer than 33 bits, all inside the window, and BOFF at a word of the buffer. -/
theorem readerInRange_advance {s : State} {n : Nat} (h1 : 1 ≤ n) (h32 : n ≤ 32) (hr : ReaderInRange s) :
    ReaderInRange (advance n s) := by
  obtain ⟨-, hnbits, hwin, hboff, -⟩ := readBits_parts h1 h32 hr
  have hafter := toNat_boffAfter hr
  obtain ⟨hle, hlt, hb4, hp4, hbp, hcap⟩ := hr
  have hword : (advance n s).nbits.toNat ≤ 32 ∧ (advance n s).win.toNat < 2 ^ (advance n s).nbits.toNat := by
    rw [hwin, hnbits]
    split
    · exact ⟨by omega, Nat.mod_lt _ (Nat.two_pow_pos _)⟩
    · exact ⟨by omega, Nat.mod_lt _ (Nat.two_pow_pos _)⟩
  have hbuffer : (advance n s).boff.toNat % 4 = 0 ∧ (advance n s).boff.toNat ≤ s.plen.toNat := by
    rw [hboff]
    split
    · exact ⟨hb4, hbp⟩
    · rw [hafter]; split <;> omega
  exact ⟨hword.1, hword.2, hbuffer.1, by simpa using hp4, by simpa using hbuffer.2, by simpa using hcap⟩

/-- I4 and I5 of R45: within the window a read drops its first bits; with a refill the new window ends at the 32
bits after the old one. -/
theorem readerInStep_advance {s : State} {n : Nat} (h1 : 1 ≤ n) (h32 : n ≤ 32) (hr : ReaderInRange s)
    (hz : ReaderInStep s) : ReaderInStep (advance n s) := by
  obtain ⟨-, hnbits, hwin, hboff, -⟩ := readBits_parts h1 h32 hr
  have hrefill := toNat_refill hr hz
  have hafter := toNat_boffAfter hr
  obtain ⟨hle, -, -, -, hbp, -⟩ := hr
  obtain ⟨hw, hpos⟩ := hz
  unfold ReaderInStep
  rw [advance_coded, advance_plen, advance_bitpos]
  by_cases h : n < s.nbits.toNat
  · rw [if_pos h] at hnbits hwin hboff
    have hend : s.bitpos + n + (s.nbits.toNat - n) = s.bitpos + s.nbits.toNat := by omega
    rw [hwin, hnbits, hboff, hw, field_mod_of_le _ _ _ (Nat.sub_le ..), Nat.sub_sub_self h.le, hend]
    exact ⟨rfl, hpos⟩
  · rw [if_neg h] at hnbits hwin hboff
    refine ⟨?_, ?_⟩
    · rw [hwin, hnbits, hrefill, field_mod_of_le _ _ _ (by omega)]
      congr 1
      omega
    · rw [hnbits, hboff, BitVec.toNat_eq, hafter]
      rw [BitVec.toNat_eq] at hpos
      split <;> omega

end Sys2Proof.Safety
end

section
/-! PROOFS. The header and a run head as a step reads them (41_residual_decoder.md R141 to R144): the look-ahead
word holds the record's fields as the reads of those widths deliver them, also where CODED was rewritten since. -/

namespace Sys2Proof.Machine

open Sys2Proof.Safety

/-- A read delivers the top bits of the look-ahead word. -/
theorem readBits_eq_lookAhead {s : State} {n : Nat} (h1 : 1 ≤ n) (h32 : n ≤ 32) (hr : ReaderInRange s) :
    (readBits n s).1.toNat = (lookAhead s).toNat / 2 ^ (32 - n) := by
  rw [lookAhead, readBits_value h1 h32 hr, readBits_value (by decide) (by decide) hr, Nat.add_sub_cancel,
    Nat.div_div_eq_div_mul, ← Nat.pow_add]
  congr 2
  omega

/-- The next read delivers the bits of the look-ahead word after those. -/
theorem readBits_second_eq_lookAhead {s : State} {n m : Nat} (h1 : 1 ≤ n) (hm : 1 ≤ m) (h32 : n + m ≤ 32)
    (hr : ReaderInRange s) :
    (readBits m (advance n s)).1.toNat = (lookAhead s).toNat / 2 ^ (32 - (n + m)) % 2 ^ m := by
  rw [readBits_value_second h1 hm h32 hr (readerInRange_advance h1 (by omega) hr),
    lookAhead, readBits_value (by decide) (by decide) hr, Nat.add_sub_cancel,
    Nat.div_div_eq_div_mul, ← Nat.pow_add]
  congr 3
  omega

/-- With n bits first in the look-ahead word, its bits from k up are what a read of n delivers. -/
theorem extract_lookAhead_first {s : State} {n k : Nat} (h1 : 1 ≤ n) (h : n + k = 32) (hr : ReaderInRange s) :
    (lookAhead s).extractLsb' k n = (readBits n s).1.setWidth n := by
  apply BitVec.eq_of_toNat_eq
  rw [toNat_extractLsb'_eq_div_mod, BitVec.toNat_setWidth, readBits_eq_lookAhead h1 (by omega) hr]
  congr 3
  omega

/-- The m bits after them are what the next read delivers. -/
theorem extract_lookAhead_second {s : State} {n m k : Nat} (h1 : 1 ≤ n) (hm : 1 ≤ m) (h : n + m + k = 32)
    (hr : ReaderInRange s) :
    (lookAhead s).extractLsb' k m = (readBits m (advance n s)).1.setWidth m := by
  apply BitVec.eq_of_toNat_eq
  rw [toNat_extractLsb'_eq_div_mod, BitVec.toNat_setWidth, readBits_second_eq_lookAhead h1 hm (by omega) hr,
    Nat.mod_mod]
  congr 3
  omega

/-- A read of n bits delivers a number of n bits. -/
theorem readBits_lt {s : State} {n : Nat} (h1 : 1 ≤ n) (h32 : n ≤ 32) (hr : ReaderInRange s) :
    (readBits n s).1.toNat < 2 ^ n := by
  rw [readBits_eq_lookAhead h1 h32 hr, Nat.div_lt_iff_lt_mul (Nat.two_pow_pos _), ← Nat.pow_add,
    Nat.add_sub_cancel' h32]
  exact (lookAhead s).isLt

/-- While BUSY and with no reset on its way, a step is exec of the record whose bits come next. -/
theorem step_of_fetchRecord {s : State} {slot : Slot} {i : Instr} (hb : s.st = .busy) (hn : noResetPending s)
    (hslot : busyTurn s = fetchRecord slot s) (hd : decode slot (lookAhead s) = .ok i) : step s = exec i s := by
  simp only [step, fetch_busy hb hn, hslot, fetchRecord_of_decode hd]

theorem exec_hdr_of_selected {s : State} (k : BitVec 2) (v : BitVec 16) (hsel : decoderAt .readHeader s = true)
    (hr : ReaderInRange s) :
    exec (.hdr k v) s =
      .next
        { advance 16 (advance 2 s) with
          skip := skipOf k, strip := stripOf v, cnt := 0, alloc := 0, act := 0, runrem := 0, dstate := .decodeRuns } := by
  simp [exec, execHdr, hsel, refillOutside_of_inRange hr]

theorem exec_endRec_of_selected {s : State} (hsel : runHeadSelected s = true) (hr : ReaderInRange s) :
    exec .endRec s = .next { advance 7 s with alloc := s.cnt, dstate := .done } := by
  simp [exec, execEndRec, hsel, refillOutside_of_inRange hr]

/-- The eight RUN instructions are one: RUN.c starts a run of the code c. -/
theorem exec_runOfCode (c : BitVec 3) (n : BitVec 7) (s : State) : exec (runOfCode c n) s = startRun c n s := by
  have hc : c = 0 ∨ c = 1 ∨ c = 2 ∨ c = 3 ∨ c = 4 ∨ c = 5 ∨ c = 6 ∨ c = 7 := by decide +revert
  rcases hc with rfl | rfl | rfl | rfl | rfl | rfl | rfl | rfl <;> rfl

theorem startRun_of_selected {s : State} (c : BitVec 3) {n : BitVec 7} (hsel : runHeadSelected s = true)
    (hn : n ≠ 0) (hr : ReaderInRange s) :
    startRun c n s =
      .next { advance 3 (advance 7 s) with wcode := c, w := BitVec.ofNat 6 (s.params.width c), runrem := n } := by
  simpa [startRun, hsel, refillOutside_of_inRange hr] using hn

/-- K + 1 fits SKIP's three bits. -/
theorem toNat_skipOf (k : BitVec 2) : (skipOf k).toNat = k.toNat + 1 := by
  have := k.isLt
  rw [skipOf, BitVec.toNat_ofNat, Nat.mod_eq_of_lt (by omega)]

/-- S + 1 fits STRIP's seventeen bits. -/
theorem toNat_stripOf (v : BitVec 16) : (stripOf v).toNat = v.toNat + 1 := by
  have := v.isLt
  rw [stripOf, BitVec.toNat_ofNat, Nat.mod_eq_of_lt (by omega)]

/-- Settles O21: the look-ahead word's first 2 and next 16 bits are the two reads, and HDR adds 1 to each. -/
theorem stepReadsTheHeader : Obligations.StepReadsTheHeader := by
  unfold Obligations.StepReadsTheHeader
  intro s hb hd hr hn
  have hstep := step_of_fetchRecord hb hn (busyTurn_readHeader hd) rfl
  rw [decodeHeader, exec_hdr_of_selected _ _ (decoderAt_iff.mpr ⟨hb, hd⟩) hr] at hstep
  refine ⟨_, hstep, ?_, ?_, ?_, rfl⟩
  · show (skipOf _).toNat = _
    rw [toNat_skipOf, extract_lookAhead_first (by decide) rfl hr, BitVec.toNat_setWidth,
      Nat.mod_eq_of_lt (readBits_lt (by decide) (by decide) hr)]
  · show (stripOf _).toNat = _
    rw [toNat_stripOf, extract_lookAhead_second (n := 2) (by decide) (by decide) rfl hr, BitVec.toNat_setWidth,
      Nat.mod_eq_of_lt (readBits_lt (by decide) (by decide) (readerInRange_advance (by decide) (by decide) hr))]
  · simp

/-- Settles O24: the look-ahead word's first 7 bits are the read N, which alone chooses END or RUN, and the 3 after
them are the code. -/
theorem stepReadsTheRunHead : Obligations.StepReadsTheRunHead := by
  unfold Obligations.StepReadsTheRunHead
  intro s hb hd hrun hr hn
  dsimp only
  have hsel := runHeadSelected_iff.mpr ⟨hb, hd, hrun⟩
  have hlt : (readBits 7 s).1.toNat < 2 ^ 7 := readBits_lt (by decide) (by decide) hr
  have hzero : (readBits 7 s).1.setWidth 7 = 0 ↔ (readBits 7 s).1 = 0 := by
    rw [BitVec.toNat_eq, BitVec.toNat_eq, BitVec.toNat_setWidth, Nat.mod_eq_of_lt hlt]
    rfl
  have hstep := step_of_fetchRecord hb hn (busyTurn_runHead hd hrun) rfl
  rw [decodeRunHead, extract_lookAhead_first (by decide) rfl hr,
    extract_lookAhead_second (n := 7) (by decide) (by decide) rfl hr] at hstep
  simp only [hzero] at hstep
  refine ⟨fun hend => ?_, fun hlen => ⟨by omega, ?_⟩⟩
  · rw [hstep, if_pos hend, exec_endRec_of_selected hsel hr]
  · rw [hstep, if_neg hlen, exec_runOfCode, startRun_of_selected _ hsel (mt hzero.mp hlen) hr]
    rfl

end Sys2Proof.Machine
end

section
/-! PROOFS. Memory bytes after a write and over a range, and the state a fault leaves (20_memory.md R69; 60_exceptions.md
R214, R215). -/

namespace Sys2Proof.Machine

open Sys2Proof.Safety

/-- A write changes its own byte only (R69). -/
theorem readByte_writeByte (sp : Space) (m : Memory) (a x : Nat) (b : Byte) :
    readByte sp (writeByte m a b) x = if x = a then b else readByte sp m x := by
  simp only [readByte, writeByte, cellAt_putCell]
  by_cases h : x = a <;> simp [h]

/-- Memories that agree on a range read the same there. -/
theorem readBytes_congr {sp : Space} {m m' : Memory} {a n : Nat}
    (h : ∀ x, a ≤ x → x < a + n → readByte sp m x = readByte sp m' x) :
    readBytes sp m a n = readBytes sp m' a n := by
  induction n generalizing a with
  | zero => rfl
  | succ n ih =>
    rw [readBytes, readBytes, h a (Nat.le_refl a) (by omega), ih fun x h1 h2 => h x (by omega) (by omega)]

/-- The last byte of a range, taken off. -/
theorem readBytes_succ (sp : Space) (m : Memory) (a n : Nat) :
    readBytes sp m a (n + 1) = readBytes sp m a n ++ [readByte sp m (a + n)] := by
  induction n generalizing a with
  | zero => rfl
  | succ n ih =>
    rw [readBytes, ih, readBytes, List.cons_append, show a + 1 + n = a + (n + 1) by omega]

/-- Below the address from which a memory was forgotten a range reads as before. -/
theorem readBytes_forgetFrom (sp : Space) (m : Memory) (g n : Nat) :
    readBytes sp (forgetFrom m n g) 0 n = readBytes sp m 0 n :=
  readBytes_congr fun x _ h => readByte_forgetFrom sp m n g x (by omega)

/-- Entering a fault from a command that runs leaves the defined part of the faulted state. -/
theorem faultFrom_takeFault (c : Cause) {s : State} (h : s.cmderr = false) : FaultFrom c s (takeFault c s) := by
  refine ⟨rfl, rfl, rfl, h, rfl, rfl, rfl, rfl, rfl, rfl, fun a ha => ?_, rfl, rfl, rfl⟩
  exact readByte_forgetFrom .coded s.coded s.a0.toNat s.fresh a ha

end Sys2Proof.Machine
end

section
/-! PROOFS. SAMPLE (41_residual_decoder.md R145 to R149). -/

namespace Sys2Proof.Machine

open Sys2Proof.Safety

/-- With room in OUT the selected SAMPLE writes its value. -/
theorem exec_sample_of_room {s : State} {w : BitVec 6} (f : Word) (hsel : sampleSelected w s = true)
    (hr : ReaderInRange s) (hroom : s.cnt.toNat < s.params.outBytes) :
    exec (.sample w f) s = .next (placeSample (sampleValue w.toNat f.toNat s) (advanceField w.toNat s)) := by
  obtain ⟨hclaim, hinside⟩ := claim_of_lt_outBytes hroom
  simp [exec, execSample, hsel, fieldOutside_of_inRange hr, hclaim, hinside]

/-- Where the claim of the next block fails the selected SAMPLE faults. -/
theorem exec_sample_of_claimFails {s : State} {w : BitVec 6} (f : Word) (hsel : sampleSelected w s = true)
    (hr : ReaderInRange s) (hclaim : claimFails s.params s.cnt.toNat = true) :
    exec (.sample w f) s = .next (takeFault .resourceOut s) := by
  simp [exec, execSample, hsel, fieldOutside_of_inRange hr, hclaim]

/-- The fold is the floor modulo of the exact sum (R148). -/
theorem toNat_fold (x : Int) : ((fold x).toNat : Int) = x % 256 := by
  rw [fold, BitVec.toNat_ofInt]
  omega

/-- The prediction's guard, in the rule's words (R146). -/
theorem predictionOf_eq (s : State) :
    predictionOf s =
      if s.strip.toNat = 1 ∨ s.cnt.toNat ≤ s.strip.toNat then 0
      else difference (byteAt s .out (s.cnt.toNat - s.strip.toNat))
        (byteAt s .out (s.cnt.toNat - s.strip.toNat - 1)) := by
  simp only [predictionOf, noPrediction, Bool.or_eq_true, decide_eq_true_eq]

/-- Settles O25: the sample written is the fold of the exact sum; the fault is the failed claim of a block. -/
theorem sampleEffect : Obligations.SampleEffect := by
  unfold Obligations.SampleEffect
  intro s w f hb hd hrun hw h32 hr herr
  have hsel := sampleSelected_iff.mpr ⟨hb, hd, hrun, hw, h32⟩
  have hw0 : w.toNat = 0 ↔ w = 0 := by rw [BitVec.toNat_eq]; rfl
  refine ⟨fun hroom => ⟨_, sampleValue w.toNat f.toNat s, exec_sample_of_room f hsel hr hroom, ?_, fun a => ?_, ?_⟩,
    fun hblock hfull => ?_⟩
  · rw [sampleValue, toNat_fold, predictionOf_eq, residualOf]
    simp only [hw0]
    rfl
  · show readByte .out (writeByte (advanceField w.toNat s).out (advanceField w.toNat s).cnt.toNat _) a = _
    rw [readByte_writeByte, advanceField_out, advanceField_cnt]
    rfl
  · simp only [advanceField, hw0]
    split
    · rfl
    · simp [placeSample, claimed, Config.block]
  · exact ⟨_, exec_sample_of_claimFails f hsel hr ((claimFails_iff _ _).mpr ⟨hblock, hfull⟩),
      faultFrom_takeFault .resourceOut herr⟩

end Sys2Proof.Machine
end

section
/-! PROOFS. The closing actions of a DECODE (41_residual_decoder.md R150; 43_host_commands.md R195). -/

namespace Sys2Proof.Machine

open Sys2Proof.Safety

theorem step_closing {s : State} (hb : s.st = .busy) (hd : s.dstate = .done) (hn : noResetPending s) :
    step s = closeDecode s := by
  simp only [step, fetch_busy hb hn, busyTurn, hd]

/-- With its result inside OUT a decode closes by the restore transform, or faults for want of TMP. -/
theorem closeDecode_of_inside {s : State} (hin : s.cnt.toNat ≤ s.params.outBytes) :
    closeDecode s =
      if s.params.tmpBytes < tmpNeed s.cnt.toNat s.skip.toNat s.a1.toNat then .next (takeFault .resourceTmp s)
      else .next (complete (forgetBeyondResult
        (forgetTmp (transformOut true s.cnt.toNat s.skip.toNat s.a1.toNat s)))) := by
  have hbuffer : ¬ bufferOutside s.params s.cnt.toNat s.skip.toNat = true := by rw [bufferOutside_iff]; omega
  simp only [closeDecode, if_neg hbuffer, tmpTooSmall_iff]

/-- What closing makes unspecified in OUT begins after the result, which is the restored samples. -/
theorem readBytes_closed (s : State) (lanes window : Nat) :
    readBytes .out (forgetBeyondResult (forgetTmp (transformOut true s.cnt.toNat lanes window s))).out 0 s.cnt.toNat =
      transformBytes true lanes window (readBytes .out s.out 0 s.cnt.toNat) := by
  rw [forgetBeyondResult_out, forgetTmp_cnt, transformOut_cnt, readBytes_forgetFrom, forgetTmp_out,
    readBytes_transformOut]

/-- Settles O37: the step is closeDecode, whose two checks are the need for TMP and, here met, the room in OUT. -/
theorem closingRestoresTheOutput : Obligations.ClosingRestoresTheOutput := by
  unfold Obligations.ClosingRestoresTheOutput
  intro s hb hd hn herr hin
  dsimp only
  rw [step_closing hb hd hn, closeDecode_of_inside hin, ← tmpNeed]
  refine ⟨fun hfits => ⟨_, if_neg (Nat.not_lt.mpr hfits), ⟨rfl, rfl⟩, readBytes_closed s _ _, ?_⟩, fun hlacks => ?_⟩
  · simp only [transformOut]
    split <;> rfl
  · exact ⟨_, if_pos hlacks, faultFrom_takeFault .resourceTmp herr⟩

end Sys2Proof.Machine
end

section
/-! PROOFS. Which steps change DSTATE (41_residual_decoder.md R155). -/

namespace Sys2Proof.Machine

open Sys2Proof.Safety

/-- What a step does when it runs no instruction, over the state u with the host's list as the step leaves it: the
closing actions, a move of the host, or the reset event. -/
theorem fetch_rest {s t : State} (h : fetch s = .rest (.next t)) :
    ∃ hs : List HostMove,
      let u := { s with host := hs }
      (s.st = .busy ∧ CloseResult u t) ∨ (s.st ≠ .busy ∧ HostResult u t)
        ∨ (s.host = .reset 0 :: hs ∧ t = resetEvent u) := by
  unfold fetch at h
  split at h
  · cases h; exact ⟨_, .inr (.inr ⟨‹_›, rfl⟩)⟩
  · unfold turnBeforeReset at h
    split at h
    · exact ⟨_, .inl ⟨‹_›, closeDecode_result (busyTurn_rest h).2⟩⟩
    · cases h; exact ⟨_, .inr (.inl ⟨‹_›, .same⟩)⟩
  · rename_i hdue hway
    unfold blockTurn at h
    split at h
    · exact ⟨s.host, .inl ⟨‹_›, closeDecode_result (busyTurn_rest h).2⟩⟩
    · unfold hostTurn at h
      split at h
      · cases h; exact ⟨s.host, .inr (.inl ⟨‹_›, .same⟩)⟩
      · rename_i m rest hh
        have hm : m.isReset = false := by
          cases m with
          | reset d => cases d with
            | zero => exact absurd hh (hdue rest)
            | succ d => exact absurd hh (hway d rest)
          | _ => rfl
        exact ⟨rest, .inr (.inl ⟨‹_›, hostMove_rest hm h⟩)⟩

theorem hostResult_dstate {s t : State} (h : HostResult s t) : t.dstate = s.dstate := by
  cases h with
  | same => rfl
  | reg r v => rw [writeRegister_eq]
  | read v => rfl
  | byte sp a b hi ha => cases sp <;> rfl
  | refuse hi => rfl

theorem closeResult_dstate {s t : State} (h : CloseResult s t) : t.dstate = s.dstate := by
  cases h with
  | fault ht => rfl
  | restored hb ht => simp

/-- The three instructions that change DSTATE, each where it does (R155): DECODE, HDR and END. -/
def ChangesDState (i : Instr) (s t : State) : Prop :=
  (i = .decode ∧ s.st = .idle ∧ t.dstate = .readHeader)
    ∨ ((∃ k v, i = .hdr k v) ∧ s.st = .busy ∧ s.dstate = .readHeader ∧ t.dstate = .decodeRuns)
    ∨ (i = .endRec ∧ s.st = .busy ∧ s.dstate = .decodeRuns ∧ s.runrem = 0 ∧ t.dstate = .done)

/-- An instruction keeps DSTATE, or it is one of the three and a DECODE runs after it. -/
theorem exec_dstate {i : Instr} {s t : State} (h : exec i s = .next t) :
    t.dstate = s.dstate ∨ (t.st = .busy ∧ ChangesDState i s t) := by
  have run : ∀ {c n}, startRun c n s = .next t → t.dstate = s.dstate := by
    intro c n h
    obtain ⟨-, -, -, -, -, rfl⟩ := startRun_next h
    simp
  have xform : ∀ {r}, xformCommand r s = .next t → t.dstate = s.dstate := by
    intro r h
    rcases xformCommand_next h with ⟨-, rfl⟩ | ⟨-, -, rfl⟩ | ⟨-, -, rfl⟩ | ⟨-, -, -, rfl⟩ <;> simp
  have submitted : ∀ {f : State → State}, (∀ u, (f u).dstate = u.dstate) →
      submit s (fun u => .next (f u)) = .next t → t.dstate = s.dstate := by
    intro f hf h
    rcases submit_next h with ⟨-, h⟩ | ⟨-, rfl⟩
    · cases h; exact hf s
    · rfl
  cases i with
  | hdr k v =>
    obtain ⟨hb, hd, -, rfl⟩ := execHdr_next h
    exact .inr ⟨by simpa using hb, .inr (.inl ⟨⟨k, v, rfl⟩, hb, hd, rfl⟩)⟩
  | runC0 n => exact .inl (run h)
  | runC1 n => exact .inl (run h)
  | runC2 n => exact .inl (run h)
  | runC3 n => exact .inl (run h)
  | runC4 n => exact .inl (run h)
  | runC5 n => exact .inl (run h)
  | runC6 n => exact .inl (run h)
  | runC7 n => exact .inl (run h)
  | endRec =>
    obtain ⟨hb, hd, h0, -, rfl⟩ := execEndRec_next h
    exact .inr ⟨by simpa using hb, .inr (.inr ⟨rfl, hb, hd, h0, rfl⟩)⟩
  | sample w f =>
    obtain ⟨-, -, -, -, -, -, ⟨-, rfl⟩ | ⟨-, -, rfl⟩⟩ := execSample_next h <;> exact .inl (by simp)
  | initbuffer => exact .inl (submitted (f := fun u => complete (initBuffer (accept u))) (fun _ => rfl) h)
  | clearbits => exact .inl (submitted (f := fun u => complete (clearBits (accept u))) (fun _ => rfl) h)
  | loadbits =>
    rcases execLoadbits_next h with ⟨-, rfl⟩ | ⟨-, -, rfl⟩ | ⟨-, -, rfl⟩ | ⟨-, -, -, rfl⟩ <;> exact .inl rfl
  | readbits n =>
    rcases execReadbits_next h with ⟨-, rfl⟩ | ⟨-, -, rfl⟩ | ⟨-, -, -, rfl⟩ <;> exact .inl (by simp)
  | decode =>
    rcases execDecode_next h with ⟨-, rfl⟩ | ⟨-, -, rfl⟩ | ⟨hi, -, rfl⟩
    · exact .inl rfl
    · exact .inl rfl
    · exact .inr ⟨rfl, .inl ⟨rfl, hi, rfl⟩⟩
  | xformF => exact .inl (xform h)
  | xformR => exact .inl (xform h)

/-- Settles O50: a step that is no instruction keeps DSTATE, and of the instructions only three change it. -/
theorem decoderStateTransitions : Obligations.DecoderStateTransitions := by
  unfold Obligations.DecoderStateTransitions
  intro s t hinv hdue hstep hne
  obtain ⟨-, -, -, -, hbetween, -⟩ := hinv
  unfold step at hstep
  split at hstep
  case h_1 i u hfetch =>
    obtain ⟨hs, rfl, -⟩ := fetch_run hfetch
    rcases exec_dstate hstep with
      hkeep | ⟨hbusy, ⟨rfl, hi, ht⟩ | ⟨⟨k, v, rfl⟩, hb, hd, ht⟩ | ⟨rfl, hb, hd, h0, ht⟩⟩
    · exact absurd hkeep hne
    · exact ⟨hbusy, .inl ⟨hi, ⟨_, hfetch⟩, hbetween hi, ht⟩⟩
    · exact ⟨hbusy, .inr (.inl ⟨hb, ⟨k, v, _, hfetch⟩, hd, ht⟩)⟩
    · exact ⟨hbusy, .inr (.inr ⟨hb, ⟨_, hfetch⟩, hd, h0, ht⟩)⟩
  case h_2 o hfetch =>
    subst hstep
    obtain ⟨hs, ⟨-, hclose⟩ | ⟨-, hmove⟩ | ⟨hreset, -⟩⟩ := fetch_rest hfetch
    · exact absurd (closeResult_dstate hclose) hne
    · exact absurd (hostResult_dstate hmove) hne
    · exact absurd (by rw [hreset]; rfl) hdue

end Sys2Proof.Machine
end

section
/-! PROOFS. DECODE as a function of the stream (41_residual_decoder.md R156): a running decode that has
written the samples before a position goes on as the function does from there. -/

namespace Sys2Proof.Safety

open Sys2Proof.Machine

/-! Runs of the machine -/

/-- A number of steps leads from one state to the other. -/
def Reaches : State → State → Prop := Relation.ReflTransGen fun s t => step s = .next t

theorem exists_run_of_reaches {s t : State} (h : Reaches s t) : ∃ k, Host.Core.run core k s = .next t := by
  induction h using Relation.ReflTransGen.head_induction_on with
  | refl => exact ⟨0, rfl⟩
  | head hstep _ ih =>
    obtain ⟨k, hk⟩ := ih
    exact ⟨k + 1, by simpa only [Host.Core.run, show core.step _ = _ from hstep] using hk⟩

/-! The function keeps the samples it has -/

theorem isPrefix_specRun (params : Params) (m : Memory) (plen strip w n p : Nat) (out : List Byte) :
    out <+: specRun params m plen strip w n p out := by
  induction n generalizing p out with
  | zero => exact ⟨[], List.append_nil out⟩
  | succ n ih => exact List.IsPrefix.trans ⟨_, rfl⟩ (ih _ _)

theorem isPrefix_specRuns (params : Params) (m : Memory) (plen strip more p : Nat) (out : List Byte) :
    out <+: specRuns params m plen strip more p out := by
  induction more generalizing p out with
  | zero => exact ⟨[], List.append_nil out⟩
  | succ more ih =>
    rw [specRuns]
    split
    · exact ⟨[], List.append_nil out⟩
    · exact (isPrefix_specRun ..).trans (ih _ _)

/-- The function at an END: nothing more is read. -/
theorem specRuns_of_end {params : Params} {m : Memory} {plen p : Nat} (strip more : Nat) (out : List Byte)
    (h : field m plen p 7 = 0) : specRuns params m plen strip more p out = out := by
  cases more with
  | zero => rfl
  | succ more => rw [specRuns]; exact if_pos h

/-! What a state of a running decode has to do with the submitted state s -/

/-- The DECODE submitted in s runs, with no host move pending. -/
structure Running (s u : State) : Prop where
  busy : u.st = .busy
  host : u.host = []
  cmderr : u.cmderr = false
  params : u.params = s.params
  window : u.a1 = s.a1

/-- Its reader stands at stream bit p of the padded chunk. -/
structure Reading (s : State) (m : Memory) (plen p : Nat) (u : State) : Prop extends Running s u where
  coded : u.coded = m
  padded : u.plen.toNat = plen
  bitpos : u.bitpos = p
  inRange : ReaderInRange u
  inStep : ReaderInStep u

/-- The header is read and the samples written so far are out. -/
structure Produced (s : State) (m : Memory) (plen : Nat) (out : List Byte) (u : State) : Prop where
  skip : u.skip.toNat = specSkip m plen
  strip : u.strip.toNat = specStrip m plen
  cnt : u.cnt.toNat = out.length
  fits : out.length ≤ s.params.outBytes
  bytes : readBytes .out u.out 0 out.length = out

/-- Between two micro-operations in D_DECODERUNS: at stream bit p with the samples out. -/
structure Producing (s : State) (m : Memory) (plen p : Nat) (out : List Byte) (u : State) : Prop
    extends Reading s m plen p u, Produced s m plen out u where
  dstate : u.dstate = .decodeRuns
  act : u.act = out.getLastD 0

/-- The statement's three outcomes of a decode whose samples are these. -/
def Ends (s : State) (m : Memory) (plen : Nat) (samples : List Byte) (t : State) : Prop :=
  (samples.length ≤ s.params.outBytes → tmpNeed samples.length (specSkip m plen) s.a1.toNat ≤ s.params.tmpBytes →
      successful t ∧ t.cmderr = false ∧ t.dstate = .done
        ∧ t.cnt.toNat = samples.length ∧ t.alloc = t.cnt ∧ t.runrem = 0
        ∧ t.skip.toNat = specSkip m plen ∧ t.strip.toNat = specStrip m plen
        ∧ readBytes .out t.out 0 samples.length = transformBytes true (specSkip m plen) s.a1.toNat samples)
    ∧ (s.params.outBytes < samples.length → t.st = .fault ∧ t.cause = .resourceOut ∧ t.cnt = 0)
    ∧ (samples.length ≤ s.params.outBytes → s.params.tmpBytes < tmpNeed samples.length (specSkip m plen) s.a1.toNat →
        t.st = .fault ∧ t.cause = .resourceTmp ∧ t.cnt = 0)

section
variable {s u : State} {m : Memory} {plen p : Nat} {out : List Byte}

theorem Running.noReset (h : Running s u) : noResetPending u := by
  simp [noResetPending, h.host]

/-- A read moves the reader on and leaves the rest of a running decode alone. -/
theorem Reading.advance (h : Reading s m plen p u) {n : Nat} (h1 : 1 ≤ n) (h32 : n ≤ 32) :
    Reading s m plen (p + n) (advance n u) where
  busy := by simp [h.busy]
  host := by simp [h.host]
  cmderr := by simp [h.cmderr]
  params := by simp [h.params]
  window := by simp [h.window]
  coded := by simp [h.coded]
  padded := by simp [h.padded]
  bitpos := by simp [h.bitpos]
  inRange := readerInRange_advance h1 h32 h.inRange
  inStep := readerInStep_advance h1 h32 h.inRange h.inStep

theorem Reading.advanceField (h : Reading s m plen p u) {n : Nat} (h32 : n ≤ 32) :
    Reading s m plen (p + n) (advanceField n u) := by
  unfold Machine.advanceField
  split
  · subst n; exact h
  · exact h.advance (by omega) h32

/-- A read delivers the field at the reader's place. -/
theorem Reading.readBits_eq (h : Reading s m plen p u) {n : Nat} (h1 : 1 ≤ n) (h32 : n ≤ 32) :
    (readBits n u).1.toNat = field m plen p n := by
  rw [readBits_eq_field h1 h32 h.inRange h.inStep, h.coded, h.padded, h.bitpos]

/-! The micro-operations, one by one -/

/-- The header's step: from the start of the stream to the first run head, with no samples yet. -/
theorem exists_step_header (h : Reading s m plen 0 u) (hd : u.dstate = .readHeader) :
    ∃ v, step u = .next v ∧ Producing s m plen 18 [] v ∧ v.runrem = 0 := by
  obtain ⟨v, hstep, hskip, hstrip, -, hv⟩ := stepReadsTheHeader u h.busy hd h.inRange h.noReset
  have h2 := h.advance (n := 2) (by decide) (by decide)
  have h18 := h2.advance (n := 16) (by decide) (by decide)
  rw [h.readBits_eq (by decide) (by decide)] at hskip
  rw [h2.readBits_eq (by decide) (by decide)] at hstrip
  refine ⟨v, hstep, ?_, by rw [hv]⟩
  rw [hv]
  exact { h18 with
    skip := hskip, strip := hstrip, cnt := rfl, fits := Nat.zero_le _, bytes := rfl, dstate := rfl, act := rfl }

/-- The END record's step: to D_DONE with the same samples. -/
theorem exists_step_end (h : Producing s m plen p out u) (hrun : u.runrem = 0) (hN : field m plen p 7 = 0) :
    ∃ v, step u = .next v ∧ Running s v ∧ Produced s m plen out v
      ∧ v.dstate = .done ∧ v.alloc = v.cnt ∧ v.runrem = 0 := by
  have hend := (stepReadsTheRunHead u h.busy h.dstate hrun h.inRange h.noReset).1
  have h7 := h.toReading.advance (n := 7) (by decide) (by decide)
  have hzero : (readBits 7 u).1 = 0 := by
    apply BitVec.eq_of_toNat_eq
    rw [h.readBits_eq (by decide) (by decide), hN]
    rfl
  refine ⟨_, hend hzero, { h7.toRunning with }, ?_, rfl, by simp, by simpa using hrun⟩
  exact {
    skip := by simpa using h.skip
    strip := by simpa using h.strip
    cnt := by simpa using h.cnt
    fits := h.fits
    bytes := by simpa using h.bytes }

/-- A RUN record's step: N samples of the code's width come next. -/
theorem exists_step_run (h : Producing s m plen p out u) (hrun : u.runrem = 0) (hN : field m plen p 7 ≠ 0) :
    ∃ v, step u = .next v ∧ Producing s m plen (p + 10) out v
      ∧ v.runrem.toNat = field m plen p 7
      ∧ v.w.toNat = s.params.width (BitVec.ofNat 3 (field m plen (p + 7) 3)) := by
  have hnext := (stepReadsTheRunHead u h.busy h.dstate hrun h.inRange h.noReset).2
  have h7 := h.toReading.advance (n := 7) (by decide) (by decide)
  have h10 := h7.advance (n := 3) (by decide) (by decide)
  have hn := h.readBits_eq (n := 7) (by decide) (by decide)
  have hc := h7.readBits_eq (n := 3) (by decide) (by decide)
  have hne : (readBits 7 u).1 ≠ 0 := fun h0 => hN (by rw [← hn, h0]; rfl)
  have hcode : (readBits 3 (advance 7 u)).1.setWidth 3 = BitVec.ofNat 3 (field m plen (p + 7) 3) := by
    rw [← hc]
    apply BitVec.eq_of_toNat_eq
    simp
  refine ⟨_, (hnext hne).2, ?_, ?_, ?_⟩
  · exact { h10 with
      skip := by simpa using h.skip
      strip := by simpa using h.strip
      cnt := by simpa using h.cnt
      fits := h.fits
      bytes := by simpa using h.bytes
      dstate := by simpa using h.dstate
      act := by simpa using h.act }
  · show ((readBits 7 u).1.setWidth 7).toNat = _
    rw [BitVec.toNat_setWidth, hn, Nat.mod_eq_of_lt (field_lt ..)]
  · show (BitVec.ofNat 6 (u.params.width _)).toNat = _
    rw [hcode, h.params, BitVec.toNat_ofNat, Nat.mod_eq_of_lt]
    exact (Fin.isLt _).trans (by decide)

/-- With its samples out, a state's byte of OUT below CNT is that sample. -/
theorem Produced.byteAt_out (h : Produced s m plen out u) {i : Nat} (hi : i < out.length) :
    byteAt u .out i = out.getD i 0 := by
  conv_rhs => rw [← h.bytes, getD_readBytes _ _ _ _ _ hi, Nat.zero_add]
  rfl

/-- The next sample of the machine is the function's. -/
theorem sampleValue_eq_specSample (h : Producing s m plen p out u) (w f : Nat) :
    sampleValue w f u = specSample s.params (specStrip m plen) w f out := by
  have hpos : 1 ≤ specStrip m plen := Nat.le_add_left ..
  have hpred : predictionOf u =
      if specStrip m plen = 1 ∨ out.length ≤ specStrip m plen then 0
      else difference (out.getD (out.length - specStrip m plen) 0) (out.getD (out.length - specStrip m plen - 1) 0) := by
    rw [predictionOf_eq, h.strip, h.cnt]
    split
    · rfl
    · rw [h.byteAt_out (by omega), h.byteAt_out (by omega)]
  apply BitVec.eq_of_toNat_eq
  have hfold := toNat_fold (sampleBase u.params.accum u.act + predictionOf u + residualOf w f)
  rw [hpred, h.params, h.act] at hfold
  rw [sampleValue, hpred, h.params, h.act, specSample, BitVec.toNat_ofNat]
  simp only [sampleBase, residualOf, difference] at hfold ⊢
  omega

/-- While a run lasts a step is SAMPLE on the field at the reader's place (R147). -/
theorem step_sample (h : Producing s m plen p out u) (hrun : u.runrem ≠ 0) (hw : u.w.toNat ≤ 32) :
    step u = exec (.sample u.w (BitVec.ofNat 32 (field m plen p u.w.toNat))) u := by
  have hfetch := (fetchedFieldsAreTheStreamBits u h.busy h.inRange h.inStep h.noReset).2.2.2 h.dstate hrun hw
  dsimp only at hfetch
  rw [Nat.add_zero, h.coded, h.padded, h.bitpos] at hfetch
  simp only [step, hfetch]

/-- With room in OUT a SAMPLE's step produces the function's next sample. -/
theorem exists_step_sample (h : Producing s m plen p out u) (hrun : u.runrem ≠ 0) (hw : u.w.toNat ≤ 32)
    (hroom : out.length < s.params.outBytes) :
    ∃ v, step u = .next v
      ∧ Producing s m plen (p + u.w.toNat)
          (out ++ [specSample s.params (specStrip m plen) u.w.toNat (field m plen p u.w.toNat) out]) v
      ∧ v.runrem = u.runrem - 1 ∧ v.w = u.w := by
  have hsel := sampleSelected_iff.mpr ⟨h.busy, h.dstate, hrun, rfl, hw⟩
  have hf : (BitVec.ofNat 32 (field m plen p u.w.toNat)).toNat = field m plen p u.w.toNat := by
    rw [BitVec.toNat_ofNat, Nat.mod_eq_of_lt]
    exact (field_lt ..).trans_le (Nat.pow_le_pow_right (by decide) hw)
  have hexec := exec_sample_of_room (BitVec.ofNat 32 (field m plen p u.w.toNat)) hsel h.inRange
    (by rw [h.cnt, h.params]; exact hroom)
  rw [hf, sampleValue_eq_specSample h] at hexec
  refine ⟨_, (step_sample h hrun hw).trans hexec, ?_, by simp, by simp⟩
  have hread := h.toReading.advanceField hw
  have hcnt : (u.cnt + 1).toNat = out.length + 1 := by
    have hcap : s.params.outBytes < 2 ^ 32 := by
      have := s.params.outBlocks.isLt
      unfold Params.outBytes
      omega
    rw [BitVec.toNat_add, h.cnt, show (1 : Word).toNat = 1 from rfl, Nat.mod_eq_of_lt (by omega)]
  exact { hread with
    skip := by simpa using h.skip
    strip := by simpa using h.strip
    cnt := by simpa using hcnt
    fits := by simpa using hroom
    bytes := by
      rw [placeSample_out, advanceField_out, advanceField_cnt, h.cnt, List.length_append, List.length_singleton,
        readBytes_succ, Nat.zero_add, readByte_writeByte, if_pos rfl]
      congr 1
      refine (readBytes_congr fun x _ hx => ?_).trans h.bytes
      rw [readByte_writeByte, if_neg (by omega)]
    dstate := by simpa using h.dstate
    act := by simp }

/-- With OUT full a SAMPLE's step is the fault E_RESOURCE_OUT: OUT's capacity is a whole number of blocks. -/
theorem step_sample_full (h : Producing s m plen p out u) (hrun : u.runrem ≠ 0) (hw : u.w.toNat ≤ 32)
    (hfull : out.length = s.params.outBytes) : step u = .next (takeFault .resourceOut u) := by
  have hsel := sampleSelected_iff.mpr ⟨h.busy, h.dstate, hrun, rfl, hw⟩
  rw [step_sample h hrun hw]
  refine exec_sample_of_claimFails _ hsel h.inRange ((claimFails_iff _ _).mpr ?_)
  rw [h.cnt, h.params, hfull]
  unfold Params.outBytes Config.block
  omega

/-! The runs, and the end -/

/-- A decode that faults for want of OUT ends as the statement says when the function has more samples than fit. -/
theorem ends_of_outFault {samples : List Byte} (hmore : s.params.outBytes < samples.length) :
    Ends s m plen samples (takeFault .resourceOut u) :=
  ⟨fun hfits => absurd hmore (Nat.not_lt.mpr hfits), fun _ => ⟨rfl, rfl, rfl⟩,
    fun hfits => absurd hmore (Nat.not_lt.mpr hfits)⟩

/-- The samples of one run: all of them, or the fault at the first that does not fit. -/
theorem reaches_run {w : Nat} (n : Nat) (h : Producing s m plen p out u) (hrun : u.runrem.toNat = n)
    (hw : u.w.toNat = w) (h32 : w ≤ 32) :
    (∃ v, Reaches u v ∧ v.runrem = 0
        ∧ Producing s m plen (p + n * w) (specRun s.params m plen (specStrip m plen) w n p out) v)
      ∨ (s.params.outBytes < (specRun s.params m plen (specStrip m plen) w n p out).length
        ∧ ∃ v, Reaches u (takeFault .resourceOut v)) := by
  subst hw
  induction n generalizing p out u with
  | zero => exact .inl ⟨u, .refl, BitVec.eq_of_toNat_eq hrun, by simpa [specRun] using h⟩
  | succ n ih =>
    have hne : u.runrem ≠ 0 := fun h0 => by rw [h0] at hrun; cases hrun
    rcases Nat.lt_or_eq_of_le h.fits with hroom | hfull
    · obtain ⟨v, hstep, hv, hrem, hwv⟩ := exists_step_sample h hne h32 hroom
      have hrem' : v.runrem.toNat = n := by
        rw [hrem]
        bv_omega
      rw [← hwv] at hv h32 ⊢
      rcases ih hv hrem' h32 with ⟨t, hreach, ht0, ht⟩ | ⟨hmore, t, hreach⟩
      · refine .inl ⟨t, .head hstep hreach, ht0, ?_⟩
        rw [specRun, Nat.succ_mul, Nat.add_comm (n * _), ← Nat.add_assoc]
        exact ht
      · exact .inr ⟨hmore, t, .head hstep hreach⟩
    · refine .inr ⟨?_, u, .single (step_sample_full h hne h32 hfull)⟩
      have := (isPrefix_specRun s.params m plen (specStrip m plen) u.w.toNat n (p + u.w.toNat)
        (out ++ [specSample s.params (specStrip m plen) u.w.toNat (field m plen p u.w.toNat) out])).length_le
      rw [specRun]
      simp only [List.length_append, List.length_singleton] at this
      omega

/-- The closing actions end a decode with exactly the samples it has written. -/
theorem exists_step_closing (hrunning : Running s u) (h : Produced s m plen out u) (hd : u.dstate = .done)
    (halloc : u.alloc = u.cnt) (hrun : u.runrem = 0) : ∃ t, step u = .next t ∧ Ends s m plen out t := by
  have hclose := closingRestoresTheOutput u hrunning.busy hd hrunning.noReset hrunning.cmderr
    (by rw [h.cnt, hrunning.params]; exact h.fits)
  dsimp only at hclose
  rw [h.cnt, h.skip, hrunning.params, hrunning.window, h.bytes, ← tmpNeed] at hclose
  obtain ⟨hrestored, hlacks⟩ := hclose
  by_cases hneed : tmpNeed out.length (specSkip m plen) s.a1.toNat ≤ s.params.tmpBytes
  · obtain ⟨t, hstep, hsucc, hbytes, ht⟩ := hrestored hneed
    refine ⟨t, hstep, fun _ _ => ⟨hsucc, ?_⟩, fun hmore => absurd h.fits (Nat.not_le.mpr hmore),
      fun _ hmore => absurd hneed (Nat.not_le.mpr hmore)⟩
    rw [ht]
    exact ⟨hrunning.cmderr, hd, h.cnt, halloc, hrun, h.skip, h.strip, hbytes⟩
  · obtain ⟨t, hstep, hst, hcause, -, -, hcnt, -⟩ := hlacks (Nat.not_le.mp hneed)
    exact ⟨t, hstep, fun _ hfits => absurd hfits hneed, fun hmore => absurd h.fits (Nat.not_le.mpr hmore),
      fun _ _ => ⟨hst, hcause, hcnt⟩⟩

/-- From a run head that is an END a decode ends with the samples it has. -/
theorem reaches_end_of_end (h : Producing s m plen p out u) (hrun : u.runrem = 0) (hN : field m plen p 7 = 0) :
    ∃ t, Reaches u t ∧ Ends s m plen out t := by
  obtain ⟨v, hstep, hrunning, hv, hd, halloc, hrem⟩ := exists_step_end h hrun hN
  obtain ⟨t, hclose, ht⟩ := exists_step_closing hrunning hv hd halloc hrem
  exact ⟨t, .head hstep (.single hclose), ht⟩

/-- From any run head a decode ends with the samples of the function. The bound on the runs looked at is enough
where the stream ends within it: each RUN has at least ten bits, and beyond the stream every length is 0. -/
theorem reaches_end (more : Nat) (h : Producing s m plen p out u) (hrun : u.runrem = 0)
    (hbound : 8 * plen ≤ p + 10 * more) :
    ∃ t, Reaches u t ∧ Ends s m plen (specRuns s.params m plen (specStrip m plen) more p out) t := by
  induction more generalizing p out u with
  | zero => exact reaches_end_of_end h hrun (field_beyond m hbound 7)
  | succ more ih =>
    by_cases hN : field m plen p 7 = 0
    · rw [specRuns_of_end _ _ _ hN]
      exact reaches_end_of_end h hrun hN
    · obtain ⟨v, hstep, hv, hrem, hw⟩ := exists_step_run h hrun hN
      rw [specRuns, if_neg hN]
      rcases reaches_run _ hv hrem hw (Fin.is_le _) with ⟨x, hsamples, hx0, hx⟩ | ⟨hmore, x, hfault⟩
      · obtain ⟨t, hreach, ht⟩ := ih hx hx0 (by omega)
        exact ⟨t, .head hstep (hsamples.trans hreach), ht⟩
      · exact ⟨_, .head hstep hfault, ends_of_outFault (hmore.trans_le (isPrefix_specRuns ..).length_le)⟩

/-- A command word the host writes in IDLE is run, the move taken off its list. -/
theorem step_of_command {v : Word} {rest : List HostMove} {i : Instr} (hi : s.st = .idle)
    (hh : s.host = .writeReg 0 v :: rest) (hd : decode .command v = .ok i) : step s = exec i { s with host := rest } := by
  rw [step_move (by simp [hi]) hh rfl]
  simp [hostMove, commandWord, hi, hd]

theorem exec_decode_of_fits (hi : s.st = .idle) (hfits : ceil4 s.a0.toNat ≤ s.params.codedBytes) :
    exec .decode s =
      .next { loadBits s.a0.toNat (clearBits (initBuffer (accept s))) with dstate := .readHeader } := by
  have hchunk : ¬ chunkTooLarge s.params s.a0.toNat = true := by
    rw [chunkTooLarge_iff]
    omega
  simp [exec, execDecode, submit_idle _ hi, hchunk]

/-- The submission's step: the reader at the start of the padded chunk, before the header. -/
theorem exists_step_submission (hi : s.st = .idle) (hh : s.host = [.writeReg 0 0x50000000])
    (hfits : ceil4 s.a0.toNat ≤ s.params.codedBytes) :
    ∃ v, step s = .next v ∧ v.dstate = .readHeader
      ∧ Reading s (loadBits s.a0.toNat s).coded (ceil4 s.a0.toNat) 0 v := by
  have hstep := (step_of_command (i := .decode) hi hh (by decide)).trans
    (exec_decode_of_fits (s := { s with host := [] }) hi hfits)
  have hcap : s.params.codedBytes < 2 ^ 32 := by
    have := s.params.codedWords.isLt
    unfold Params.codedBytes
    omega
  have hplen : (BitVec.ofNat 32 (ceil4 s.a0.toNat)).toNat = ceil4 s.a0.toNat := by
    rw [BitVec.toNat_ofNat, Nat.mod_eq_of_lt (by omega)]
  have hwords : ceil4 s.a0.toNat % 4 = 0 := Nat.mul_mod_right 4 _
  refine ⟨_, hstep, rfl, ?_⟩
  exact {
    busy := rfl, host := rfl, cmderr := rfl, params := rfl, window := rfl
    coded := rfl, padded := hplen, bitpos := rfl
    inRange := ⟨Nat.zero_le _, Nat.one_pos, rfl, hplen.symm ▸ hwords, Nat.zero_le _, hplen.symm ▸ hfits⟩
    inStep := ⟨rfl, .inl rfl⟩ }

end

/-- Settles O38: the submission's step, the header's, and then the runs as the function has them, looked at in
specSamples' own number, which the stream's length bounds. -/
theorem decodeIsTheFunctionOfTheStream : Obligations.DecodeIsTheFunctionOfTheStream := by
  unfold Obligations.DecodeIsTheFunctionOfTheStream
  intro s hi hh hfits m plen samples skip
  obtain ⟨u, hsubmit, hd, hu⟩ := exists_step_submission hi hh hfits
  obtain ⟨v, hheader, hv, hv0⟩ := exists_step_header hu hd
  obtain ⟨t, hreach, ht⟩ := reaches_end (8 * plen / 10 + 2) hv hv0 (by omega)
  obtain ⟨k, hk⟩ := exists_run_of_reaches (.head hsubmit (.head hheader hreach))
  exact ⟨k, t, hk, ht⟩

end Sys2Proof.Safety
end

section
/-! PROOFS. The places of a span's bytes in the strided and in the gathered layout (42_interleave_transform.md R172,
R173). -/

namespace Sys2Proof.Machine

theorem monotone_laneStart (len lanes : Nat) : Monotone (laneStart len lanes) :=
  monotone_nat_of_le_succ fun i => by
    rw [laneStart_succ]
    exact Nat.le_add_right _ _

/-- Lane i holds exactly the positions i, i + s, i + 2s, ... below the length (R172). -/
theorem lt_laneLength_iff {len lanes i m : Nat} (hi : i < lanes) :
    m < laneLength len lanes i ↔ i + m * lanes < len := by
  have hlen := Nat.mod_add_div' len lanes
  have hrest := Nat.mod_lt len (Nat.zero_lt_of_lt hi)
  unfold laneLength
  rcases Nat.lt_trichotomy m (len / lanes) with hm | rfl | hm
  · have hrow : (m + 1) * lanes ≤ len / lanes * lanes := Nat.mul_le_mul_right lanes hm
    rw [Nat.succ_mul] at hrow
    split <;> omega
  · split <;> omega
  · have hrow : (len / lanes + 1) * lanes ≤ m * lanes := Nat.mul_le_mul_right lanes hm
    rw [Nat.succ_mul] at hrow
    split <;> omega

theorem laneStart_add_lt {len lanes i m : Nat} (hi : i < lanes) (hm : m < laneLength len lanes i) :
    laneStart len lanes i + m < len := by
  have hend : laneStart len lanes (i + 1) ≤ laneStart len lanes lanes := monotone_laneStart len lanes hi
  rw [laneStart_succ, laneStart_lanes (Nat.zero_lt_of_lt hi)] at hend
  omega

theorem gatheredPlace_add_mul (len m : Nat) {lanes i : Nat} (hi : i < lanes) :
    gatheredPlace len lanes (i + m * lanes) = laneStart len lanes i + m := by
  rw [gatheredPlace, Nat.add_mul_mod_self_right, Nat.mod_eq_of_lt hi,
    Nat.add_mul_div_right i m (Nat.zero_lt_of_lt hi), Nat.div_eq_of_lt hi, Nat.zero_add]

/-- Position j belongs to lane j mod s, which is long enough to hold it as its byte j div s. -/
theorem div_lt_laneLength_mod {len lanes j : Nat} (h : 0 < lanes) (hj : j < len) :
    j / lanes < laneLength len lanes (j % lanes) := by
  rw [lt_laneLength_iff (Nat.mod_lt j h), Nat.mod_add_div']
  exact hj

theorem gatheredPlace_lt {len lanes j : Nat} (h : 0 < lanes) (hj : j < len) : gatheredPlace len lanes j < len :=
  laneStart_add_lt (Nat.mod_lt j h) (div_lt_laneLength_mod h hj)

/-- A place before the start of lane k lies in a lane before k. -/
theorem exists_lane_of_lt_laneStart {len lanes k p : Nat} (hp : p < laneStart len lanes k) :
    ∃ i m, i < k ∧ m < laneLength len lanes i ∧ laneStart len lanes i + m = p := by
  induction k with
  | zero => simp [laneStart] at hp
  | succ k ih =>
    by_cases hk : p < laneStart len lanes k
    · obtain ⟨i, m, hi, hm, rfl⟩ := ih hk
      exact ⟨i, m, by omega, hm, rfl⟩
    · rw [laneStart_succ] at hp
      exact ⟨k, p - laneStart len lanes k, by omega, by omega, by omega⟩

/-- Every place of the gathered layout is the place of some position: the pairing of R173 is onto. -/
theorem exists_gatheredPlace_eq {len lanes p : Nat} (h : 0 < lanes) (hp : p < len) :
    ∃ j, j < len ∧ gatheredPlace len lanes j = p := by
  have hlanes : p < laneStart len lanes lanes := by rwa [laneStart_lanes h]
  obtain ⟨i, m, hi, hm, rfl⟩ := exists_lane_of_lt_laneStart hlanes
  exact ⟨i + m * lanes, (lt_laneLength_iff hi).mp hm, gatheredPlace_add_mul len m hi⟩

end Sys2Proof.Machine
end

section
/-! PROOFS. fwd_s and rst_s byte by byte, and that each undoes the other (42_interleave_transform.md R173). -/

namespace Sys2Proof.Machine

theorem getElem?_laneBytes {x : List Byte} {lanes i m : Nat} (hi : i < lanes) (hm : m < laneLength x.length lanes i) :
    (laneBytes x lanes i)[m]? = x[i + m * lanes]? := by
  have hin := (lt_laneLength_iff hi).mp hm
  simp [laneBytes, hm, hin]

/-- The first k lanes written out one after the other hold lane i from S_i on. -/
theorem getElem?_lanes {x : List Byte} {lanes k i m : Nat} (hk : i < k) (hi : i < lanes)
    (hm : m < laneLength x.length lanes i) :
    ((List.range k).flatMap fun i => laneBytes x lanes i)[laneStart x.length lanes i + m]? = x[i + m * lanes]? := by
  induction k with
  | zero => omega
  | succ k ih =>
    rw [List.range_succ, List.flatMap_append, List.flatMap_singleton]
    rcases Nat.lt_succ_iff_lt_or_eq.mp hk with hlt | rfl
    · have hbefore : laneStart x.length lanes (i + 1) ≤ laneStart x.length lanes k :=
        monotone_laneStart x.length lanes hlt
      rw [laneStart_succ] at hbefore
      rw [List.getElem?_append_left (by rw [length_lanes]; omega), ih hlt]
    · rw [List.getElem?_append_right (by rw [length_lanes]; omega), length_lanes, Nat.add_sub_cancel_left,
        getElem?_laneBytes hi hm]

theorem getElem?_gather {x : List Byte} {lanes i m : Nat} (hi : i < lanes) (hm : m < laneLength x.length lanes i) :
    (gather lanes x)[laneStart x.length lanes i + m]? = x[i + m * lanes]? := by
  have hin := (lt_laneLength_iff hi).mp hm
  exact getElem?_lanes (Nat.lt_min.mpr ⟨hi, by omega⟩) hi hm

/-- fwd_s moves the byte at j to its gathered place. -/
theorem getElem?_gather_gatheredPlace {x : List Byte} {lanes j : Nat} (h : 0 < lanes) (hj : j < x.length) :
    (gather lanes x)[gatheredPlace x.length lanes j]? = x[j]? := by
  rw [gatheredPlace, getElem?_gather (Nat.mod_lt j h) (div_lt_laneLength_mod h hj), Nat.mod_add_div']

/-- rst_s takes the byte for position j from its gathered place. -/
theorem getElem?_scatter {y : List Byte} {lanes j : Nat} (h : 0 < lanes) (hj : j < y.length) :
    (scatter lanes y)[j]? = y[gatheredPlace y.length lanes j]? := by
  simp [scatter, hj, gatheredPlace_lt h hj]

theorem scatter_gather {lanes : Nat} (h : 0 < lanes) (x : List Byte) : scatter lanes (gather lanes x) = x := by
  have hlen := length_gather h x
  refine List.ext_getElem? fun j => ?_
  by_cases hj : j < x.length
  · rw [getElem?_scatter h (by rw [hlen]; exact hj), hlen, getElem?_gather_gatheredPlace h hj]
  · rw [List.getElem?_eq_none (by rw [length_scatter, hlen]; omega), List.getElem?_eq_none (by omega)]

/-- Every place is the gathered place of some position, where both permutations agree by their own law. -/
theorem gather_scatter {lanes : Nat} (h : 0 < lanes) (y : List Byte) : gather lanes (scatter lanes y) = y := by
  have hlen := length_scatter lanes y
  refine List.ext_getElem? fun p => ?_
  by_cases hp : p < y.length
  · obtain ⟨j, hj, rfl⟩ := exists_gatheredPlace_eq h hp
    calc (gather lanes (scatter lanes y))[gatheredPlace y.length lanes j]?
        = (gather lanes (scatter lanes y))[gatheredPlace (scatter lanes y).length lanes j]? := by rw [hlen]
      _ = (scatter lanes y)[j]? := getElem?_gather_gatheredPlace h (by rw [hlen]; exact hj)
      _ = y[gatheredPlace y.length lanes j]? := getElem?_scatter h hj
  · rw [List.getElem?_eq_none (by rw [length_gather h, hlen]; omega), List.getElem?_eq_none (by omega)]

/-- Settles O31: both permutations follow the pairing of position i + m * s with place S_i + m, which is onto. -/
theorem lanesAreGatheredAndScattered : Obligations.LanesAreGatheredAndScattered := by
  unfold Obligations.LanesAreGatheredAndScattered
  intro lanes x h2
  have h : 0 < lanes := by omega
  refine ⟨length_gather h x, length_scatter lanes x, fun i m hi hm => ?_,
    fun j hj => getElem?_gather_gatheredPlace h hj, scatter_gather h x, gather_scatter h x⟩
  have hin := (lt_laneLength_iff hi).mp hm
  refine ⟨laneStart_add_lt hi hm, hin, getElem?_gather hi hm, ?_⟩
  rw [getElem?_scatter h hin, gatheredPlace_add_mul _ _ hi]

end Sys2Proof.Machine
end

section
/-! PROOFS. The transform in one direction and then in the other (42_interleave_transform.md R179). -/

namespace Sys2Proof.Machine

theorem spanMap_not_spanMap (restore : Bool) {lanes : Nat} (h : 0 < lanes) (x : List Byte) :
    spanMap (!restore) lanes (spanMap restore lanes x) = x := by
  cases restore with
  | false => exact scatter_gather h x
  | true => exact gather_scatter h x

/-- Both directions cut at the same places, since a span keeps its length; so each window is undone by itself. -/
theorem windowMap_not_windowMap (restore : Bool) {lanes wb k : Nat} (h : 0 < lanes) {x : List Byte}
    (hk : k * wb ≤ x.length) : windowMap (!restore) lanes wb k (windowMap restore lanes wb k x) = x := by
  induction k generalizing x with
  | zero => exact spanMap_not_spanMap restore h x
  | succ k ih =>
    rw [Nat.succ_mul] at hk
    have hwindow : (spanMap restore lanes (x.take wb)).length = wb := by
      rw [length_spanMap restore h, List.length_take]
      omega
    have hrest : k * wb ≤ (x.drop wb).length := by
      rw [List.length_drop]
      omega
    simp only [windowMap]
    rw [List.take_left' hwindow, List.drop_left' hwindow, spanMap_not_spanMap restore h, ih hrest,
      List.take_append_drop]

theorem transformBytes_not_transformBytes (restore : Bool) (lanes window : Nat) (x : List Byte) :
    transformBytes (!restore) lanes window (transformBytes restore lanes window x) = x := by
  rw [transformBytes.eq_def (!restore), length_transformBytes, transformBytes]
  split
  · rfl
  · rename_i hlanes
    have h : 0 < lanes := by omega
    split
    · exact spanMap_not_spanMap restore h x
    · exact windowMap_not_windowMap restore h (Nat.div_mul_le_self x.length _)

/-- Settles O32: the spans of both directions are the same, and in each the two permutations undo each other. -/
theorem transformRoundTrip : Obligations.TransformRoundTrip := by
  unfold Obligations.TransformRoundTrip
  intro lanes window x restore
  exact ⟨transformBytes_not_transformBytes restore lanes window x, if_pos (Nat.le_refl 1)⟩

end Sys2Proof.Machine
end

section
/-! PROOFS. The two XFORM commands (42_interleave_transform.md R171, R176). -/

namespace Sys2Proof.Machine

open Sys2Proof.Safety

/-- In IDLE the two checks in their order, then the transform and completion. -/
theorem xformCommand_of_idle (restore : Bool) {s : State} (h : s.st = .idle) :
    xformCommand restore s =
      if 2 ≤ s.a1.toNat ∧ s.params.outBytes < s.a0.toNat then .next (refuseCommand s)
      else if s.params.tmpBytes < tmpNeed s.a0.toNat s.a1.toNat s.a2.toNat then
        .next (takeFault .resourceTmp (accept s))
      else .next (complete (forgetTmp (transformOut restore s.a0.toNat s.a1.toNat s.a2.toNat (accept s)))) := by
  simp only [xformCommand, submit_idle _ h, bufferOutside_iff, tmpTooSmall_iff]

theorem exec_xform {i : Instr} {restore : Bool} (h : (i, restore) ∈ [(Instr.xformF, false), (.xformR, true)])
    (s : State) : exec i s = xformCommand restore s := by
  simp only [List.mem_cons, Prod.mk.injEq, List.not_mem_nil, or_false] at h
  rcases h with ⟨rfl, rfl⟩ | ⟨rfl, rfl⟩ <;> rfl

/-- A transform touches no byte from n on, and none at all with at most one lane (R174, R178 (a)). -/
theorem readByte_transformOut_frame (restore : Bool) {n lanes a : Nat} (window : Nat) (s : State)
    (h : n ≤ a ∨ lanes ≤ 1) :
    readByte .out (transformOut restore n lanes window s).out a = readByte .out s.out a := by
  rcases h with ha | hlanes
  · rw [readByte_transformOut, if_neg (by omega)]
  · rw [transformOut, if_pos hlanes]

/-- From IDLE a completed transform changes OUT, TMP and the two flags only. -/
theorem complete_transformOut_of_idle (restore : Bool) (n lanes window : Nat) {s : State} (h : s.st = .idle) :
    let t := complete (forgetTmp (transformOut restore n lanes window (accept s)))
    t = { s with out := t.out, tmp := t.tmp, fresh := t.fresh, done := true, cmderr := false } := by
  simp only [transformOut, accept]
  split <;> simp [complete, forgetTmp, h]

/-- Settles O35: the command's three branches, by the two checks. -/
theorem xformEffect : Obligations.XformEffect := by
  unfold Obligations.XformEffect
  refine ⟨⟨by decide, by decide⟩, fun s i restore hi hs => ?_⟩
  dsimp only
  rw [exec_xform hi, xformCommand_of_idle restore hs, ← tmpNeed]
  refine ⟨fun hout => if_pos hout, fun hin hlacks => ?_, fun hin hfits => ?_⟩
  · exact ⟨_, by rw [if_neg hin, if_pos hlacks], faultFrom_takeFault .resourceTmp (s := accept s) rfl⟩
  · rw [if_neg hin, if_neg (Nat.not_lt.mpr hfits)]
    exact ⟨_, rfl, readBytes_transformOut restore _ _ _ (accept s),
      fun a ha => readByte_transformOut_frame restore _ (accept s) ha, complete_transformOut_of_idle restore _ _ _ hs⟩

end Sys2Proof.Machine
end

section
/-! PROOFS. The host's turn without a move, and the faulted state (60_exceptions.md R216, R217, R227). -/

namespace Sys2Proof.Machine

open Sys2Proof.Safety

/-- In IDLE or FAULT with nothing in the host's list a step changes nothing. -/
theorem step_of_no_move {s : State} (hb : s.st ≠ .busy) (hh : s.host = []) : step s = .next s := by
  simp [step, fetch, blockTurn, hostTurn, hb, hh]

/-- In IDLE or FAULT a reset on its way only comes one step nearer. -/
theorem step_of_reset_on_its_way {s : State} {d : Nat} {rest : List HostMove} (hb : s.st ≠ .busy)
    (hh : s.host = .reset (d + 1) :: rest) : step s = .next { s with host := .reset d :: rest } := by
  simp [step, fetch, turnBeforeReset, hb, hh]

/-- In FAULT a word written to CMD, legal or not, is only taken off the host's list. -/
theorem step_command_of_fault {s : State} {v : Word} {rest : List HostMove} (hf : s.st = .fault)
    (hh : s.host = .writeReg 0 v :: rest) : step s = .next { s with host := rest } := by
  simp [step_move (by simp [hf]) hh rfl, hostMove, commandWord, hf]

/-- Any register write in FAULT, the ignored one to CMD among them. -/
theorem step_writeReg_of_fault {s : State} {reg : Nat} {v : Word} {rest : List HostMove} (hf : s.st = .fault)
    (hh : s.host = .writeReg reg v :: rest) : step s = .next (writeRegister { s with host := rest } reg v) := by
  by_cases hreg : reg = 0
  · subst hreg
    exact step_command_of_fault hf hh
  · exact step_writeReg (by simp [hf]) hh hreg

/-- A byte read has no effect but on what the host has read (R64). -/
theorem collectByte_next {sp : HostSpace} {a : Word} {s t : State} (h : collectByte sp a s = .next t) :
    ∃ v, t = { s with hostRead := v } := by
  unfold collectByte at h
  split at h
  · cases h
  · cases h; exact ⟨_, rfl⟩

/-- In FAULT no byte write answers a next state (R64; log entry 15). -/
theorem depositByte_of_fault {sp : HostSpace} {a : Word} {b : Byte} {s t : State} (hf : s.st = .fault) :
    depositByte sp a b s ≠ .next t := by
  unfold depositByte
  rw [if_pos hf]
  split <;> simp

/-- Everything a step can do in FAULT but the reset event: a register write, or nothing except to the host's own side. -/
theorem step_fault_cases {s t : State} (hf : s.st = .fault) (hn : noResetDue s) (h : step s = .next t) :
    (∃ hs v, t = { s with host := hs, hostRead := v })
      ∨ ∃ reg v rest, s.host = .writeReg reg v :: rest ∧ t = writeRegister { s with host := rest } reg v := by
  have hb : s.st ≠ .busy := by simp [hf]
  cases hh : s.host with
  | nil =>
    cases (step_of_no_move hb hh).symm.trans h
    exact .inl ⟨s.host, s.hostRead, rfl⟩
  | cons m rest =>
    cases m with
    | writeReg reg v =>
      cases (step_writeReg_of_fault hf hh).symm.trans h
      exact .inr ⟨reg, v, rest, rfl, rfl⟩
    | readReg reg =>
      cases (step_readReg hb hh).symm.trans h
      exact .inl ⟨rest, _, rfl⟩
    | writeByte sp a b =>
      rw [step_move hb hh rfl] at h
      exact absurd h (depositByte_of_fault hf)
    | readByte sp a =>
      rw [step_move hb hh rfl] at h
      obtain ⟨v, rfl⟩ := collectByte_next h
      exact .inl ⟨rest, v, rfl⟩
    | reset d =>
      cases d with
      | zero => exact absurd (by simp [hh]) hn
      | succ d =>
        cases (step_of_reset_on_its_way hb hh).symm.trans h
        exact .inl ⟨.reset d :: rest, s.hostRead, rfl⟩

/-- Settles O47: an empty list leaves the host's turn nothing to do. -/
theorem idleWithoutAMoveKeepsAllState : Obligations.IdleWithoutAMoveKeepsAllState := by
  unfold Obligations.IdleWithoutAMoveKeepsAllState
  intro s hb hh
  exact step_of_no_move hb hh

/-- Settles O48: in FAULT only a register write reaches beyond the host's own side, and it reaches A0 to A2. -/
theorem faultIsSticky : Obligations.FaultIsSticky := by
  unfold Obligations.FaultIsSticky
  intro s hf
  refine ⟨fun t hn h => ?_, fun v rest hh => step_command_of_fault hf hh, fun reg v rest hh _ => ?_⟩
  · rcases step_fault_cases hf hn h with ⟨hs, v, rfl⟩ | ⟨reg, v, rest, hh, rfl⟩
    · exact ⟨rfl, fun _ => ⟨rfl, rfl, rfl⟩⟩
    · rw [writeRegister_eq]
      exact ⟨rfl, fun hno => absurd (by rw [hh]; rfl) (hno reg v)⟩
  · rw [step_writeReg_of_fault hf hh, writeRegister_eq]

end Sys2Proof.Machine
end

section
/-! PROOFS. The parameters over a step (70_reset_and_hazards.md R241). -/

namespace Sys2Proof.Machine

open Sys2Proof.Safety

theorem execResult_params {s t : State} (h : ExecResult s t) : t.params = s.params := by
  cases h with
  | hdr | run | endRec | sample | readbits => simp -- these move the reader
  | xform => simp
  | same | refuse | initbuffer | clearbits | loadbits | decode => rfl
  | sampleFault | loadbitsFault | decodeFault | xformFault => rfl

theorem closeResult_params {s t : State} (h : CloseResult s t) : t.params = s.params := by
  cases h with
  | fault => rfl
  | restored => simp

theorem hostResult_params {s t : State} (h : HostResult s t) : t.params = s.params := by
  cases h with
  | same | read | refuse => rfl
  | reg r v => rw [writeRegister_eq]
  | byte sp => cases sp <;> rfl

/-- Settles O49: an instruction, the closing actions, a move of the host and the reset event each keep the
parameters, and a step is one of these. -/
theorem parametersNeverChange : Obligations.ParametersNeverChange := by
  unfold Obligations.ParametersNeverChange
  intro s t h
  obtain ⟨hs, ⟨-, hexec⟩ | ⟨-, -, hclose⟩ | ⟨-, hhost⟩ | ⟨-, rfl⟩⟩ := step_result h
  · rw [execResult_params hexec]
  · rw [closeResult_params hclose]
  · rw [hostResult_params hhost]
  · rw [resetEvent_params]

end Sys2Proof.Machine
end

section
/-! PROOFS. The encoder and the decoder undo each other, and which words have no instruction (30_encoding.md R91 to
R102). -/

namespace Sys2Proof

open Sys2Proof.Safety

/-! Bit ranges -/

/-- Two ranges put together, as a number. -/
theorem toNat_append_eq_add {m n : Nat} (x : BitVec m) (y : BitVec n) :
    (x ++ y).toNat = x.toNat * 2 ^ n + y.toNat := by
  rw [BitVec.toNat_append, ← Nat.shiftLeft_add_eq_or_of_lt y.isLt, Nat.shiftLeft_eq]

/-- Of three ranges put together, the first. -/
theorem extractLsb'_append_first {a b c : Nat} (x : BitVec a) (y : BitVec b) (z : BitVec c) :
    (x ++ y ++ z).extractLsb' (b + c) a = x := by
  rw [BitVec.extractLsb'_append_eq_of_le (Nat.le_add_left c b), Nat.add_sub_cancel, BitVec.extractLsb'_append_eq_left]

/-- Of three ranges put together, the second. -/
theorem extractLsb'_append_second {a b c : Nat} (x : BitVec a) (y : BitVec b) (z : BitVec c) :
    (x ++ y ++ z).extractLsb' c b = y := by
  rw [BitVec.extractLsb'_append_eq_of_le (Nat.le_refl c), Nat.sub_self, BitVec.extractLsb'_append_eq_right]

/-- Bits below a range do not reach it. -/
theorem extractLsb'_or_tail {e tail : Word} {k start : Nat} (len : Nat) (ht : tail.toNat < 2 ^ k) (hk : k ≤ start) :
    (e ||| tail).extractLsb' start len = e.extractLsb' start len := by
  have hzero : tail.extractLsb' start len = 0 := by
    apply BitVec.eq_of_toNat_eq
    rw [toNat_extractLsb'_eq_div_mod, Nat.div_eq_of_lt (ht.trans_le (Nat.pow_le_pow_right (by decide) hk))]
    rfl
  rw [BitVec.extractLsb'_or, hzero]
  exact BitVec.or_zero

/-! The encoder, then the decoder -/

theorem decodeHeader_encode (k : BitVec 2) (v : BitVec 16) {tail : Word} (ht : tail.toNat < 2 ^ 14) :
    decodeHeader (encode (.hdr k v) ||| tail) = .hdr k v := by
  have hk : (encode (.hdr k v)).extractLsb' 30 2 = k := extractLsb'_append_first k v 0#14
  have hv : (encode (.hdr k v)).extractLsb' 14 16 = v := extractLsb'_append_second k v 0#14
  rw [decodeHeader, extractLsb'_or_tail 2 ht (by decide), extractLsb'_or_tail 16 ht (by decide), hk, hv]

/-- A run length that is not 0 begins a RUN with the code after it. -/
theorem decodeRunHead_encodeRun (c : BitVec 3) {n : BitVec 7} (hn : runLengthOk n = true) {tail : Word}
    (ht : tail.toNat < 2 ^ 22) : decodeRunHead (encodeRun c n ||| tail) = runOfCode c n := by
  have hlen : (encodeRun c n).extractLsb' 25 7 = n := extractLsb'_append_first n c 0#22
  have hcode : (encodeRun c n).extractLsb' 22 3 = c := extractLsb'_append_second n c 0#22
  have hne : n ≠ 0 := by simpa [runLengthOk] using hn
  rw [decodeRunHead, extractLsb'_or_tail 7 ht (by decide), extractLsb'_or_tail 3 ht (by decide), hlen, hcode,
    if_neg hne]

theorem decodeRunHead_encode_end {tail : Word} (ht : tail.toNat < 2 ^ 25) :
    decodeRunHead (encode .endRec ||| tail) = .endRec := by
  rw [decodeRunHead, extractLsb'_or_tail 7 ht (by decide)]
  rfl

theorem decodeResidual_encode {w : BitVec 6} {f tail : Word} (hw : w.toNat ≤ 32) (hf : f.toNat < 2 ^ w.toNat)
    (ht : tail.toNat < 2 ^ (32 - w.toNat)) :
    decodeResidual w (encode (.sample w f) ||| tail) = .ok (.sample w f) := by
  have hshift : f.toNat * 2 ^ (32 - w.toNat) < 2 ^ 32 := by
    calc f.toNat * 2 ^ (32 - w.toNat) < 2 ^ w.toNat * 2 ^ (32 - w.toNat) :=
          Nat.mul_lt_mul_of_pos_right hf (Nat.two_pow_pos _)
      _ = 2 ^ 32 := by rw [← Nat.pow_add, Nat.add_sub_cancel' hw]
  have hfield : (encode (.sample w f) ||| tail) >>> (32 - w.toNat) = f := by
    rw [← BitVec.toNat_inj, BitVec.toNat_ushiftRight, BitVec.toNat_or, encode, BitVec.toNat_shiftLeft,
      Nat.shiftLeft_eq, Nat.mod_eq_of_lt hshift, Nat.mul_comm, ← Nat.two_pow_add_eq_or_of_lt ht,
      Nat.shiftRight_eq_div_pow, Nat.mul_add_div (Nat.two_pow_pos _), Nat.div_eq_of_lt ht, Nat.add_zero]
  rw [decodeResidual, if_pos hw, hfield]

theorem decodeCommand_encode_readbits {n : BitVec 6} (hn : readWidthOk n = true) :
    decodeCommand (encode (.readbits n)) = .ok (.readbits n) := by
  decide +revert

/-- Settles O7: no decoder looks at bits below the record's own, and above them each finds the operands. -/
theorem decodeOfEncodeIsTheInstruction : Obligations.DecodeOfEncodeIsTheInstruction := by
  unfold Obligations.DecodeOfEncodeIsTheInstruction
  intro i tail hwf ht
  have command (hlen : i.bitLength = 32) : encode i ||| tail = encode i := by
    rw [hlen] at ht
    rw [show tail = 0#32 from BitVec.eq_of_toNat_eq (Nat.lt_one_iff.mp ht), BitVec.or_zero]
  cases i with
  | hdr k v => exact congrArg Except.ok (decodeHeader_encode k v ht)
  | runC0 n => exact congrArg Except.ok (decodeRunHead_encodeRun 0 hwf ht)
  | runC1 n => exact congrArg Except.ok (decodeRunHead_encodeRun 1 hwf ht)
  | runC2 n => exact congrArg Except.ok (decodeRunHead_encodeRun 2 hwf ht)
  | runC3 n => exact congrArg Except.ok (decodeRunHead_encodeRun 3 hwf ht)
  | runC4 n => exact congrArg Except.ok (decodeRunHead_encodeRun 4 hwf ht)
  | runC5 n => exact congrArg Except.ok (decodeRunHead_encodeRun 5 hwf ht)
  | runC6 n => exact congrArg Except.ok (decodeRunHead_encodeRun 6 hwf ht)
  | runC7 n => exact congrArg Except.ok (decodeRunHead_encodeRun 7 hwf ht)
  | endRec => exact congrArg Except.ok (decodeRunHead_encode_end ht)
  | sample w f =>
    simp only [Instr.wf, residualOk, Bool.and_eq_true, decide_eq_true_eq] at hwf
    exact decodeResidual_encode hwf.1 hwf.2 ht
  | readbits n =>
    rw [command rfl]
    exact decodeCommand_encode_readbits hwf
  | initbuffer | clearbits | loadbits | decode | xformF | xformR => rw [command rfl]; rfl

/-! The decoder, then the encoder -/

/-- Everything that is the same for the eight RUN instructions. -/
theorem runOfCode_facts (c : BitVec 3) (n : BitVec 7) :
    (runOfCode c n).wf = runLengthOk n ∧ (runOfCode c n).slot = .runHead ∧ (runOfCode c n).bitLength = 10
      ∧ encode (runOfCode c n) = encodeRun c n := by
  have hc : c = 0 ∨ c = 1 ∨ c = 2 ∨ c = 3 ∨ c = 4 ∨ c = 5 ∨ c = 6 ∨ c = 7 := by decide +revert
  rcases hc with rfl | rfl | rfl | rfl | rfl | rfl | rfl | rfl <;> exact ⟨rfl, rfl, rfl, rfl⟩

theorem encode_decodeHeader (v : Word) : (encode (decodeHeader v)).toNat / 2 ^ 14 = v.toNat / 2 ^ 14 := by
  rw [decodeHeader, encode, toNat_append_eq_add, toNat_append_eq_add, toNat_extractLsb'_eq_div_mod,
    toNat_extractLsb'_eq_div_mod, BitVec.toNat_ofNat]
  omega

theorem encodeRun_extract (v : Word) :
    (encodeRun (v.extractLsb' 22 3) (v.extractLsb' 25 7)).toNat / 2 ^ 22 = v.toNat / 2 ^ 22 := by
  rw [encodeRun, toNat_append_eq_add, toNat_append_eq_add, toNat_extractLsb'_eq_div_mod,
    toNat_extractLsb'_eq_div_mod, BitVec.toNat_ofNat]
  omega

/-- What a run head decodes to is well-formed and has the word's leading bits. -/
theorem decodeRunHead_spec (v : Word) :
    let i := decodeRunHead v
    i.wf = true ∧ i.slot = .runHead ∧ (encode i).toNat / 2 ^ (32 - i.bitLength) = v.toNat / 2 ^ (32 - i.bitLength) := by
  dsimp only
  by_cases hzero : v.extractLsb' 25 7 = 0
  · have hbits := congrArg BitVec.toNat hzero
    rw [toNat_extractLsb'_eq_div_mod] at hbits
    rw [decodeRunHead, if_pos hzero]
    refine ⟨rfl, rfl, ?_⟩
    show (0 : Nat) / 2 ^ 25 = v.toNat / 2 ^ 25
    change v.toNat / 2 ^ 25 % 2 ^ 7 = 0 at hbits
    omega
  · obtain ⟨hwf, hslot, hlen, henc⟩ := runOfCode_facts (v.extractLsb' 22 3) (v.extractLsb' 25 7)
    rw [decodeRunHead, if_neg hzero, hwf, hslot, hlen, henc]
    exact ⟨by simpa [runLengthOk] using hzero, rfl, encodeRun_extract v⟩

/-- A field of at most 32 bits cut from the top of a word fits its width and encodes to those bits. -/
theorem decodeResidual_spec {w : BitVec 6} {v : Word} {i : Instr} (h : decodeResidual w v = .ok i) :
    i.wf = true ∧ i.slot = .residual w
      ∧ (encode i).toNat / 2 ^ (32 - i.bitLength) = v.toNat / 2 ^ (32 - i.bitLength) := by
  unfold decodeResidual at h
  split at h
  · rename_i hw
    cases h
    have hsplit : 2 ^ w.toNat * 2 ^ (32 - w.toNat) = 2 ^ 32 := by rw [← Nat.pow_add, Nat.add_sub_cancel' hw]
    have hfit : v.toNat / 2 ^ (32 - w.toNat) < 2 ^ w.toNat := by
      rw [Nat.div_lt_iff_lt_mul (Nat.two_pow_pos _), hsplit]
      exact v.isLt
    refine ⟨?_, rfl, ?_⟩
    · simp only [Instr.wf, residualOk, Bool.and_eq_true, decide_eq_true_eq, BitVec.toNat_ushiftRight,
        Nat.shiftRight_eq_div_pow]
      exact ⟨hw, hfit⟩
    · rw [encode, Instr.bitLength, BitVec.toNat_shiftLeft, BitVec.toNat_ushiftRight, Nat.shiftRight_eq_div_pow,
        Nat.shiftLeft_eq, Nat.mod_eq_of_lt, Nat.mul_div_cancel _ (Nat.two_pow_pos _)]
      rw [← hsplit]
      exact Nat.mul_lt_mul_of_pos_right hfit (Nat.two_pow_pos _)
  · cases h

theorem decodePlain_eq {imm : BitVec 8} {i j : Instr} (h : decodePlain imm i = .ok j) : j = i := by
  unfold decodePlain at h
  split at h
  · cases h; rfl
  · cases h

/-- READBITS takes its width from the low six bits of IMM, the only ones set. -/
theorem decodeReadbits_eq {imm : BitVec 8} {i : Instr} (h : decodeReadbits imm = .ok i) :
    ∃ n : BitVec 6, i = .readbits n ∧ readWidthOk n = true ∧ n.toNat = imm.toNat := by
  have hle := decodeReadbits_ok h
  unfold decodeReadbits at h
  split at h
  · cases h
  · split at h
    · cases h
      refine ⟨_, rfl, ‹_›, ?_⟩
      rw [toNat_extractLsb'_eq_div_mod]
      omega
    · cases h

theorem decodeXform_eq {imm : BitVec 8} {i : Instr} (h : decodeXform imm = .ok i) :
    (imm = 0 ∧ i = .xformF) ∨ (imm = 1 ∧ i = .xformR) := by
  unfold decodeXform at h
  split at h
  · cases h; exact .inl ⟨‹_›, rfl⟩
  · split at h
    · cases h; exact .inr ⟨‹_›, rfl⟩
    · cases h

/-- A command word is its OP, twenty zeros and its IMM. -/
theorem word_of_fields (v : Word) :
    v.toNat = (v.extractLsb' 28 4).toNat * 2 ^ 28 + (v.extractLsb' 8 20).toNat * 2 ^ 8 + (v.extractLsb' 0 8).toNat := by
  rw [toNat_extractLsb'_eq_div_mod, toNat_extractLsb'_eq_div_mod, toNat_extractLsb'_eq_div_mod]
  omega

/-- A command word that decodes is the whole encoding of a well-formed command. -/
theorem decodeCommand_spec {v : Word} {i : Instr} (h : decodeCommand v = .ok i) :
    i.wf = true ∧ encode i = v := by
  have hv := word_of_fields v
  unfold decodeCommand at h
  dsimp only at h
  split at h
  · cases h
  rename_i hmid
  rw [not_not] at hmid
  rw [hmid, show (0 : BitVec 20).toNat = 0 from rfl, Nat.zero_mul, Nat.add_zero] at hv
  have plain {op : BitVec 4} {j : Instr} (hop : v.extractLsb' 28 4 = op)
      (hj : j.wf = true ∧ (encode j).toNat = op.toNat * 2 ^ 28) (h : decodePlain (v.extractLsb' 0 8) j = .ok i) :
      i.wf = true ∧ encode i = v := by
    have himm := decodePlain_ok h
    rw [hop, himm, Nat.add_zero] at hv
    rw [decodePlain_eq h]
    exact ⟨hj.1, BitVec.eq_of_toNat_eq (hj.2.trans hv.symm)⟩
  split at h
  · exact plain ‹_› ⟨rfl, rfl⟩ h
  split at h
  · exact plain ‹_› ⟨rfl, rfl⟩ h
  split at h
  · exact plain ‹_› ⟨rfl, rfl⟩ h
  split at h
  · rename_i hop
    obtain ⟨n, rfl, hn, himm⟩ := decodeReadbits_eq h
    refine ⟨hn, BitVec.eq_of_toNat_eq ?_⟩
    rw [hv, hop, encode, toNat_append_eq_add, himm]
    rfl
  split at h
  · exact plain ‹_› ⟨rfl, rfl⟩ h
  split at h
  · rename_i hop
    rw [hop] at hv
    rcases decodeXform_eq h with ⟨himm, rfl⟩ | ⟨himm, rfl⟩
    · rw [himm] at hv
      exact ⟨rfl, BitVec.eq_of_toNat_eq hv.symm⟩
    · rw [himm] at hv
      exact ⟨rfl, BitVec.eq_of_toNat_eq hv.symm⟩
  · cases h

/-- Settles O8: the operands a decoder cuts out are put back by the encoder at the same place. -/
theorem encodeOfDecodeIsTheWord : Obligations.EncodeOfDecodeIsTheWord := by
  unfold Obligations.EncodeOfDecodeIsTheWord
  intro slot v i h
  cases slot with
  | command =>
    obtain ⟨hwf, henc⟩ := decodeCommand_spec h
    exact ⟨hwf, Machine.slot_of_command h, by rw [henc]⟩
  | header => cases h; exact ⟨rfl, rfl, encode_decodeHeader v⟩
  | runHead => cases h; exact decodeRunHead_spec v
  | residual w => exact decodeResidual_spec h

/-! Which words have no instruction -/

theorem decodePlain_error {imm : BitVec 8} {i : Instr} {e : DecodeError} (h : decodePlain imm i = .error e) :
    imm.toNat ≠ 0 := by
  unfold decodePlain at h
  split at h
  · cases h
  · bv_omega

theorem decodeReadbits_error {imm : BitVec 8} {e : DecodeError} (h : decodeReadbits imm = .error e) :
    64 ≤ imm.toNat ∨ imm.toNat % 64 = 0 ∨ 33 ≤ imm.toNat % 64 := by
  have htop := toNat_extractLsb'_eq_div_mod imm 6 2
  have hlow := toNat_extractLsb'_eq_div_mod imm 0 6
  unfold decodeReadbits at h
  split at h
  · bv_omega
  · split at h
    · cases h
    · rename_i hwidth
      simp only [readWidthOk, Bool.and_eq_true, bne_iff_ne, decide_eq_true_eq, not_and] at hwidth
      bv_omega

theorem decodeXform_error {imm : BitVec 8} {e : DecodeError} (h : decodeXform imm = .error e) : 2 ≤ imm.toNat := by
  unfold decodeXform at h
  split at h
  · cases h
  · split at h
    · cases h
    · bv_omega

/-- A command word that does not decode is reserved (R102). -/
theorem reservedWord_of_decode_error {v : Word} {e : DecodeError} (h : decode .command v = .error e) :
    reservedWord v := by
  have hop := toNat_extractLsb'_eq_div_mod v 28 4
  have hmid := toNat_extractLsb'_eq_div_mod v 8 20
  have himm := toNat_extractLsb'_eq_div_mod v 0 8
  simp only [decode, decodeCommand] at h
  simp only [reservedWord]
  split at h
  · bv_omega
  split at h
  · have := decodePlain_error h; bv_omega
  split at h
  · have := decodePlain_error h; bv_omega
  split at h
  · have := decodePlain_error h; bv_omega
  split at h
  · have := decodeReadbits_error h; bv_omega
  split at h
  · have := decodePlain_error h; bv_omega
  split at h
  · have := decodeXform_error h; bv_omega
  · bv_omega

/-- Settles O9: in the stream every branch of the decoder answers an instruction, and a command word either decodes
or is reserved. -/
theorem onlyReservedCommandWordsAreIllegal : Obligations.OnlyReservedCommandWordsAreIllegal := by
  unfold Obligations.OnlyReservedCommandWordsAreIllegal
  refine ⟨fun v => ⟨⟨_, rfl⟩, ⟨_, rfl⟩, fun w hw => ⟨_, if_pos hw⟩⟩, fun v => ⟨?_, fun hlegal => ?_⟩⟩
  · rintro ⟨i, h⟩
    exact not_reservedWord_of_decode h
  · cases h : decode .command v with
    | ok i => exact ⟨i, rfl⟩
    | error e => exact absurd (reservedWord_of_decode_error h) hlegal

end Sys2Proof
end

section
/-! PROOFS. What a step keeps, in the parts a step is made of; and first of it the status and the memories
(10_state.md R39; 20_memory.md R60, R79; 60_exceptions.md R214, R215). -/

namespace Sys2Proof.Machine

open Sys2Proof.Safety

/-- A property that does not speak of the host's list, that every instruction, the closing actions and every move of
the host keep, and that holds after the reset event, is kept by a step. -/
theorem kept_by_step {P : State → Prop} (hlist : ∀ s hs, P s → P { s with host := hs })
    (hexec : ∀ s t, P s → ExecResult s t → P t)
    (hclose : ∀ s t, P s → s.st = .busy → s.dstate = .done → CloseResult s t → P t)
    (hmove : ∀ s t, P s → s.st ≠ .busy → HostResult s t → P t) (hreset : ∀ s, P (resetEvent s))
    {s t : State} (hs : P s) (h : step s = .next t) : P t := by
  obtain ⟨l, ⟨-, h⟩ | ⟨hb, hd, h⟩ | ⟨hb, h⟩ | ⟨-, rfl⟩⟩ := step_result h
  · exact hexec _ _ (hlist s l hs) h
  · exact hclose _ _ (hlist s l hs) hb hd h
  · exact hmove _ _ (hlist s l hs) hb h
  · exact hreset _

/-! Status -/

theorem statusConsistent_of_idle {s : State} (hi : s.st = .idle) (hc : s.cause = .none) : StatusConsistent s := by
  simp [StatusConsistent, hi, hc]

theorem statusConsistent_of_busy {s : State} (hb : s.st = .busy) (hc : s.cause = .none) (hd : s.done = false)
    (he : s.cmderr = false) : StatusConsistent s := by
  simp [StatusConsistent, hb, hc, hd, he]

theorem statusConsistent_takeFault {c : Cause} {s : State} (hc : c ≠ .none) (he : s.cmderr = false) :
    StatusConsistent (takeFault c s) := by
  simp [StatusConsistent, hc, he]

theorem cause_of_not_fault {s : State} (h : StatusConsistent s) (hf : s.st ≠ .fault) : s.cause = .none := by
  obtain ⟨hcause, -⟩ := h
  by_contra hne
  exact hf (hcause.mp hne)

/-- A micro-operation of a decode writes none of the status but what it writes with a fault. -/
theorem statusConsistent_of_same {s t : State} (h : StatusConsistent s) (hb : s.st = .busy) (hst : t.st = s.st)
    (hc : t.cause = s.cause) (hd : t.done = s.done) (he : t.cmderr = s.cmderr) : StatusConsistent t := by
  have hnone := cause_of_not_fault h (by simp [hb])
  obtain ⟨-, hflags, -⟩ := h
  obtain ⟨hdone, herr⟩ := hflags (by simp [hb])
  exact statusConsistent_of_busy (hst.trans hb) (hc.trans hnone) (hd.trans hdone) (he.trans herr)

theorem execResult_statusConsistent {s t : State} (hs : StatusConsistent s) (h : ExecResult s t) :
    StatusConsistent t := by
  have hcause := cause_of_not_fault hs
  cases h with
  | same => exact hs
  | refuse h => exact statusConsistent_of_idle h (hcause (by simp [h]))
  | hdr k v h => exact statusConsistent_of_same hs h (by simp) (by simp) (by simp) (by simp)
  | run c n h => exact statusConsistent_of_same hs h (by simp) (by simp) (by simp) (by simp)
  | endRec h => exact statusConsistent_of_same hs h (by simp) (by simp) (by simp) (by simp)
  | sample v w h => exact statusConsistent_of_same hs h (by simp) (by simp) (by simp) (by simp)
  | sampleFault h =>
    obtain ⟨-, hflags, -⟩ := hs
    exact statusConsistent_takeFault (by decide) (hflags (by simp [h])).2
  | initbuffer h | clearbits h | loadbits h => exact statusConsistent_of_idle rfl (hcause (by simp [h]))
  | readbits n h | xform r h => exact statusConsistent_of_idle rfl (by simpa using hcause (by simp [h]))
  | decode h => exact statusConsistent_of_busy rfl (hcause (by simp [h])) rfl rfl
  | loadbitsFault | decodeFault | xformFault => exact statusConsistent_takeFault (by decide) rfl

theorem closeResult_statusConsistent {s t : State} (hs : StatusConsistent s) (hb : s.st = .busy)
    (h : CloseResult s t) : StatusConsistent t := by
  cases h with
  | fault =>
    obtain ⟨-, hflags, -⟩ := hs
    exact statusConsistent_takeFault (by decide) (hflags (by simp [hb])).2
  | restored => exact statusConsistent_of_idle rfl (by simpa using cause_of_not_fault hs (by simp [hb]))

theorem hostResult_statusConsistent {s t : State} (hs : StatusConsistent s) (hb : s.st ≠ .busy)
    (h : HostResult s t) : StatusConsistent t := by
  cases h with
  | same | read => exact hs
  | reg r v => rw [writeRegister_eq]; exact hs
  | byte sp => cases sp <;> exact hs
  | refuse hf =>
    have hi : s.st = .idle := by
      revert hb hf
      cases s.st <;> simp
    have hcause := cause_of_not_fault hs hf
    exact statusConsistent_of_idle hi hcause

/-- Settles O54: what each part of a step leaves of the flags, CAUSE, CNT and ALLOC. -/
theorem stepKeepsStatusConsistent : Obligations.StepKeepsStatusConsistent := by
  unfold Obligations.StepKeepsStatusConsistent
  intro s t hs h
  exact kept_by_step (fun _ _ h => h) (fun _ _ => execResult_statusConsistent)
    (fun _ _ hs hb _ => closeResult_statusConsistent hs hb) (fun _ _ => hostResult_statusConsistent)
    (fun _ => statusConsistent_of_idle rfl rfl) hs h

/-! Memories -/

theorem memoriesCanonical_of_same {s t : State} (h : MemoriesCanonical s) (hcoded : t.coded = s.coded)
    (hout : t.out = s.out) (htmp : t.tmp = s.tmp) (hparams : t.params = s.params) : MemoriesCanonical t := by
  unfold MemoriesCanonical
  rw [hcoded, hout, htmp, hparams]
  exact h

theorem memoriesCanonical_unspecified {s : State} {g : Nat} (hcoded : s.coded = .unspecified g)
    (hout : s.out = .unspecified g) (htmp : s.tmp = .unspecified g) : MemoriesCanonical s := by
  unfold MemoriesCanonical
  rw [hcoded, hout, htmp]
  exact ⟨⟨memoryWf_unspecified g, memoryWf_unspecified g, memoryWf_unspecified g⟩, cellsBelow_unspecified _ g,
    cellsBelow_unspecified _ g, cellsBelow_unspecified _ g⟩

theorem memoriesCanonical_takeFault (c : Cause) {s : State} (h : MemoriesCanonical s) :
    MemoriesCanonical (takeFault c s) := by
  obtain ⟨⟨hcoded, -, -⟩, hbelow, -, -⟩ := h
  exact ⟨⟨memoryWf_forgetFrom _ _ _ hcoded, memoryWf_unspecified _, memoryWf_unspecified _⟩,
    cellsBelow_forgetFrom _ _ hbelow, cellsBelow_unspecified _ _, cellsBelow_unspecified _ _⟩

theorem chunk_fits {p : Params} {n : Nat} (h : chunkTooLarge p n = false) : ceil4 n ≤ p.codedBytes := by
  rw [← Bool.not_eq_true, chunkTooLarge_iff] at h
  omega

/-- The pad bytes lie inside CODED where the padded chunk does. -/
theorem memoriesCanonical_loadBits {s : State} {n : Nat} (h : MemoriesCanonical s)
    (hfits : ceil4 n ≤ s.params.codedBytes) : MemoriesCanonical (loadBits n s) := by
  obtain ⟨⟨hcoded, hout, htmp⟩, bcoded, bout, btmp⟩ := h
  refine ⟨⟨memoryWf_writeBytes _ _ _ hcoded, hout, htmp⟩, cellsBelow_writeBytes bcoded fun _ => ?_, bout, btmp⟩
  rw [List.length_replicate, loadBits_params]
  unfold ceil4 at *
  omega

theorem memoriesCanonical_transformOut {s : State} (restore : Bool) {n lanes : Nat} (window : Nat)
    (h : MemoriesCanonical s) (hin : bufferOutside s.params n lanes = false) :
    MemoriesCanonical (transformOut restore n lanes window s) := by
  rw [← Bool.not_eq_true, bufferOutside_iff] at hin
  obtain ⟨⟨hcoded, hout, htmp⟩, bcoded, bout, btmp⟩ := h
  unfold MemoriesCanonical
  rw [transformOut_coded, transformOut_tmp, transformOut_params]
  exact ⟨⟨hcoded, memoryWf_transformOut _ _ _ _ _ hout, htmp⟩, bcoded,
    cellsBelow_transformOut _ _ _ bout (by omega), btmp⟩

theorem memoriesCanonical_complete {s : State} (h : MemoriesCanonical s) : MemoriesCanonical (complete s) := h

theorem memoriesCanonical_forgetTmp {s : State} (h : MemoriesCanonical s) : MemoriesCanonical (forgetTmp s) := by
  obtain ⟨⟨hcoded, hout, -⟩, bcoded, bout, -⟩ := h
  exact ⟨⟨hcoded, hout, memoryWf_unspecified _⟩, bcoded, bout, cellsBelow_unspecified _ _⟩

theorem memoriesCanonical_forgetBeyondResult {s : State} (h : MemoriesCanonical s) :
    MemoriesCanonical (forgetBeyondResult s) := by
  obtain ⟨⟨hcoded, hout, htmp⟩, bcoded, bout, btmp⟩ := h
  exact ⟨⟨hcoded, memoryWf_forgetFrom _ _ _ hout, htmp⟩, bcoded, cellsBelow_forgetFrom _ _ bout, btmp⟩

theorem memoriesCanonical_placeSample {s : State} (v : Byte) (h : MemoriesCanonical s)
    (hroom : s.cnt.toNat < s.params.outBytes) : MemoriesCanonical (placeSample v s) := by
  obtain ⟨⟨hcoded, hout, htmp⟩, bcoded, bout, btmp⟩ := h
  exact ⟨⟨hcoded, memoryWf_writeByte _ _ _ hout, htmp⟩, bcoded, cellsBelow_writeByte bout hroom, btmp⟩

theorem execResult_memoriesCanonical {s t : State} (hs : MemoriesCanonical s) (h : ExecResult s t) :
    MemoriesCanonical t := by
  cases h with
  | same | refuse | initbuffer | clearbits => exact hs
  | hdr | run | endRec | readbits => exact memoriesCanonical_of_same hs (by simp) (by simp) (by simp) (by simp)
  | sample v w h hd h0 hw h32 hr hc ho =>
    exact memoriesCanonical_placeSample v
      (memoriesCanonical_of_same hs (by simp) (by simp) (by simp) (by simp)) (by simpa using lt_outBytes_of_claim hc ho)
  | loadbits h hc hk => exact memoriesCanonical_loadBits (s := accept s) hs (chunk_fits hk)
  | decode h hk => exact memoriesCanonical_loadBits (s := clearBits (initBuffer (accept s))) hs (chunk_fits hk)
  | sampleFault => exact memoriesCanonical_takeFault _ hs
  | loadbitsFault | xformFault => exact memoriesCanonical_takeFault (s := accept s) _ hs
  | decodeFault => exact memoriesCanonical_takeFault (s := clearBits (initBuffer (accept s))) _ hs
  | xform r h hb =>
    exact memoriesCanonical_complete
      (memoriesCanonical_forgetTmp (memoriesCanonical_transformOut (s := accept s) r _ hs hb))

theorem closeResult_memoriesCanonical {s t : State} (hs : MemoriesCanonical s) (h : CloseResult s t) :
    MemoriesCanonical t := by
  cases h with
  | fault => exact memoriesCanonical_takeFault _ hs
  | restored hb =>
    exact memoriesCanonical_complete (memoriesCanonical_forgetBeyondResult
      (memoriesCanonical_forgetTmp (memoriesCanonical_transformOut true _ hs hb)))

theorem hostResult_memoriesCanonical {s t : State} (hs : MemoriesCanonical s) (h : HostResult s t) :
    MemoriesCanonical t := by
  cases h with
  | same | read | refuse => exact hs
  | reg r v => rw [writeRegister_eq]; exact hs
  | byte sp a b hi ha =>
    obtain ⟨⟨hcoded, hout, htmp⟩, bcoded, bout, btmp⟩ := hs
    cases sp with
    | coded => exact ⟨⟨memoryWf_writeByte _ _ _ hcoded, hout, htmp⟩, cellsBelow_writeByte bcoded ha, bout, btmp⟩
    | out => exact ⟨⟨hcoded, memoryWf_writeByte _ _ _ hout, htmp⟩, bcoded, cellsBelow_writeByte bout ha, btmp⟩

/-- Settles O53: each write of a step is to addresses its own check has found inside the capacity. -/
theorem stepKeepsMemoriesCanonical : Obligations.StepKeepsMemoriesCanonical := by
  unfold Obligations.StepKeepsMemoriesCanonical
  intro s t hs h
  exact kept_by_step (fun _ _ h => h) (fun _ _ => execResult_memoriesCanonical)
    (fun _ _ hs _ _ => closeResult_memoriesCanonical hs) (fun _ _ hs _ => hostResult_memoriesCanonical hs)
    (fun s => memoriesCanonical_unspecified (g := s.fresh) rfl rfl rfl) hs h

end Sys2Proof.Machine
end

section
/-! PROOFS. The reader's range over a step (10_state.md R45), and the reader that a preparation leaves
(40_bit_reader.md R121 to R123). -/

namespace Sys2Proof.Machine

open Sys2Proof.Safety

/-- An empty window is in range wherever BOFF and PLEN are. -/
theorem readerInRange_initBuffer {s : State} (h : ReaderInRange s) : ReaderInRange (initBuffer s) := by
  obtain ⟨-, -, hbuffer⟩ := h
  exact ⟨Nat.zero_le _, Nat.one_pos, hbuffer⟩

theorem readerInRange_clearBits {s : State} (h : ReaderInRange s) : ReaderInRange (clearBits s) := by
  obtain ⟨hle, hlt, -⟩ := h
  exact ⟨hle, hlt, rfl, rfl, Nat.le_refl _, Nat.zero_le _⟩

/-- Capacities fit a register, so PLEN holds the padded length exactly. -/
theorem toNat_paddedLength {p : Params} {n : Nat} (hfits : ceil4 n ≤ p.codedBytes) :
    (BitVec.ofNat 32 (ceil4 n)).toNat = ceil4 n := by
  have := p.codedWords.isLt
  unfold Params.codedBytes at hfits
  rw [BitVec.toNat_ofNat, Nat.mod_eq_of_lt (by omega)]

/-- What INITBUFFER and CLEARBITS establish (R123). -/
theorem readerClear_iff {s : State} : readerClear s = true ↔ s.win = 0 ∧ s.nbits = 0 ∧ s.boff = 0 := by
  simp [readerClear, and_assoc]

/-- LOADBITS attaches a clear reader to the start of the padded chunk. -/
theorem readerInRange_loadBits {s : State} {n : Nat} (hc : readerClear s = true)
    (hfits : ceil4 n ≤ s.params.codedBytes) : ReaderInRange (loadBits n s) := by
  obtain ⟨hwin, hnbits, hboff⟩ := readerClear_iff.mp hc
  unfold ReaderInRange
  rw [loadBits_nbits, loadBits_win, loadBits_boff, loadBits_plen, loadBits_params, hwin, hnbits, hboff,
    toNat_paddedLength hfits]
  exact ⟨Nat.zero_le _, Nat.one_pos, rfl, Nat.mul_mod_right 4 _, Nat.zero_le _, hfits⟩

/-- An empty window at BITPOS = 8 * BOFF is in step with the stream. -/
theorem readerInStep_of_empty {s : State} (hwin : s.win = 0) (hnbits : s.nbits = 0)
    (hpos : s.bitpos = 8 * s.boff.toNat) : ReaderInStep s := by
  unfold ReaderInStep
  rw [hwin, hnbits]
  exact ⟨rfl, .inl hpos⟩

theorem readerInRange_advanceField {s : State} {w : Nat} (h32 : w ≤ 32) (h : ReaderInRange s) :
    ReaderInRange (advanceField w s) := by
  unfold advanceField
  split
  · exact h
  · exact readerInRange_advance (by omega) h32 h

theorem readerInStep_advanceField {s : State} {w : Nat} (h32 : w ≤ 32) (h : ReaderInRange s) (hz : ReaderInStep s) :
    ReaderInStep (advanceField w s) := by
  unfold advanceField
  split
  · exact hz
  · exact readerInStep_advance (by omega) h32 h hz

/-- The two reads of a record head. -/
theorem readerInRange_advance_advance {s : State} {n m : Nat} (hn : 1 ≤ n ∧ n ≤ 32) (hm : 1 ≤ m ∧ m ≤ 32)
    (h : ReaderInRange s) : ReaderInRange (advance m (advance n s)) :=
  readerInRange_advance hm.1 hm.2 (readerInRange_advance hn.1 hn.2 h)

theorem readerInStep_advance_advance {s : State} {n m : Nat} (hn : 1 ≤ n ∧ n ≤ 32) (hm : 1 ≤ m ∧ m ≤ 32)
    (h : ReaderInRange s) (hz : ReaderInStep s) : ReaderInStep (advance m (advance n s)) :=
  readerInStep_advance hm.1 hm.2 (readerInRange_advance hn.1 hn.2 h) (readerInStep_advance hn.1 hn.2 h hz)

/-- A READBITS width that is not refused is 1 to 32 (R101, R102). -/
theorem readWidthOk_iff {n : BitVec 6} : readWidthOk n = true ↔ 1 ≤ n.toNat ∧ n.toNat ≤ 32 := by
  simp only [readWidthOk, Bool.and_eq_true, bne_iff_ne, decide_eq_true_eq]
  bv_omega

theorem readerInRange_of_same {s t : State} (h : ReaderInRange s) (hwin : t.win = s.win) (hnbits : t.nbits = s.nbits)
    (hboff : t.boff = s.boff) (hplen : t.plen = s.plen) (hparams : t.params = s.params) : ReaderInRange t := by
  unfold ReaderInRange
  rw [hwin, hnbits, hboff, hplen, hparams]
  exact h

theorem execResult_readerInRange {s t : State} (hs : s.st ≠ .fault → ReaderInRange s) (h : ExecResult s t)
    (ht : t.st ≠ .fault) : ReaderInRange t := by
  cases h with
  | same h => exact absurd h ht
  | refuse h => exact hs (by simp [h])
  | hdr k v h => exact readerInRange_advance_advance (n := 2) (m := 16) (by decide) (by decide) (hs (by simp [h]))
  | run c n h => exact readerInRange_advance_advance (n := 7) (m := 3) (by decide) (by decide) (hs (by simp [h]))
  | endRec h => exact readerInRange_advance (n := 7) (by decide) (by decide) (hs (by simp [h]))
  | sample v w h hd h0 hw h32 => exact readerInRange_advanceField h32 (hs (by simp [h]))
  | initbuffer h => exact readerInRange_initBuffer (s := accept s) (hs (by simp [h]))
  | clearbits h => exact readerInRange_clearBits (s := accept s) (hs (by simp [h]))
  | loadbits h hc hk => exact readerInRange_loadBits (s := accept s) hc (chunk_fits hk)
  | readbits n h hn =>
    obtain ⟨h1, h32⟩ := readWidthOk_iff.mp hn
    exact readerInRange_advance (s := accept s) h1 h32 (hs (by simp [h]))
  | decode h hk => exact readerInRange_loadBits (s := clearBits (initBuffer (accept s))) rfl (chunk_fits hk)
  | xform r h =>
    exact readerInRange_of_same (hs (by simp [h])) (by simp) (by simp) (by simp) (by simp) (by simp)
  | sampleFault | loadbitsFault | decodeFault | xformFault => exact absurd rfl ht

theorem closeResult_readerInRange {s t : State} (hs : ReaderInRange s) (h : CloseResult s t) (ht : t.st ≠ .fault) :
    ReaderInRange t := by
  cases h with
  | fault => exact absurd rfl ht
  | restored => exact readerInRange_of_same hs (by simp) (by simp) (by simp) (by simp) (by simp)

theorem hostResult_readerInRange {s t : State} (hs : s.st ≠ .fault → ReaderInRange s) (h : HostResult s t)
    (ht : t.st ≠ .fault) : ReaderInRange t := by
  cases h with
  | same | read | refuse => exact hs ht
  | reg r v =>
    rw [writeRegister_eq] at ht ⊢
    exact hs ht
  | byte sp => cases sp <;> exact hs ht

/-- A cleared reader with no buffer, as after a reset. -/
theorem readerInRange_of_detached {s : State} (hc : readerClear s = true) (hplen : s.plen = 0) : ReaderInRange s := by
  obtain ⟨hwin, hnbits, hboff⟩ := readerClear_iff.mp hc
  unfold ReaderInRange
  rw [hwin, hnbits, hboff, hplen]
  exact ⟨Nat.zero_le _, Nat.one_pos, rfl, rfl, Nat.le_refl _, Nat.zero_le _⟩

/-- Settles O55: the range is kept by reads and by each preparation command, and a fault makes no claim of it. -/
theorem stepKeepsReaderInRange : Obligations.StepKeepsReaderInRange := by
  unfold Obligations.StepKeepsReaderInRange
  intro s t hs h
  exact kept_by_step (P := fun s => s.st ≠ .fault → ReaderInRange s) (fun _ _ h => h)
    (fun _ _ => execResult_readerInRange) (fun _ _ hs hb _ => closeResult_readerInRange (hs (by simp [hb])))
    (fun _ _ hs _ => hostResult_readerInRange hs) (fun _ _ => readerInRange_of_detached rfl rfl) hs h

end Sys2Proof.Machine
end

section
/-! PROOFS. The rest of the machine's invariant over a step: the header registers, the reader in step with the stream,
DSTATE, and the decoder's registers beside the samples written (10_state.md R45, R46; 41_residual_decoder.md R155). -/

namespace Sys2Proof.Machine

open Sys2Proof.Safety

/-! The header registers -/

theorem headerInRange_of_same {s t : State} (h : HeaderInRange s) (hskip : t.skip = s.skip)
    (hstrip : t.strip = s.strip) : HeaderInRange t := by
  unfold HeaderInRange
  rw [hskip, hstrip]
  exact h

theorem execResult_headerInRange {s t : State} (hs : s.st ≠ .fault → HeaderInRange s) (h : ExecResult s t)
    (ht : t.st ≠ .fault) : HeaderInRange t := by
  cases h with
  | same h => exact absurd h ht
  | hdr k v =>
    show 1 ≤ (skipOf k).toNat ∧ (skipOf k).toNat ≤ 4 ∧ 1 ≤ (stripOf v).toNat ∧ (stripOf v).toNat ≤ 65536
    rw [toNat_skipOf, toNat_stripOf]
    omega
  | run c n h | endRec h | sample v w h | readbits n h | xform r h =>
    exact headerInRange_of_same (hs (by simp [h])) (by simp) (by simp)
  | refuse h | initbuffer h | clearbits h | loadbits h | decode h => exact hs (by simp [h])
  | sampleFault | loadbitsFault | decodeFault | xformFault => exact absurd rfl ht

theorem closeResult_headerInRange {s t : State} (hs : HeaderInRange s) (h : CloseResult s t) (ht : t.st ≠ .fault) :
    HeaderInRange t := by
  cases h with
  | fault => exact absurd rfl ht
  | restored => exact headerInRange_of_same hs (by simp) (by simp)

theorem hostResult_headerInRange {s t : State} (hs : s.st ≠ .fault → HeaderInRange s) (h : HostResult s t)
    (ht : t.st ≠ .fault) : HeaderInRange t := by
  cases h with
  | same | read | refuse => exact hs ht
  | reg r v =>
    rw [writeRegister_eq] at ht ⊢
    exact hs ht
  | byte sp => cases sp <;> exact hs ht

/-! A host move and the closing actions end outside BUSY -/

theorem hostResult_st {s t : State} (h : HostResult s t) : t.st = s.st := by
  cases h with
  | same | read | refuse => rfl
  | reg r v => rw [writeRegister_eq]
  | byte sp => cases sp <;> rfl

theorem closeResult_st {s t : State} (h : CloseResult s t) : t.st = .fault ∨ t.st = .idle := by
  cases h with
  | fault => exact .inl rfl
  | restored => exact .inr rfl

/-! The reader in step with the stream, and DSTATE -/

/-- After an instruction that leaves the block BUSY the reader is in step and the decoder has left D_IDLE. -/
theorem execResult_busy {s t : State} (hr : s.st ≠ .fault → ReaderInRange s)
    (hs : s.st = .busy → ReaderInStep s ∧ s.dstate ≠ .idle) (h : ExecResult s t) (ht : t.st = .busy) :
    ReaderInStep t ∧ t.dstate ≠ .idle := by
  cases h with
  | same | refuse => exact hs ht
  | hdr k v h =>
    have hz := readerInStep_advance_advance (n := 2) (m := 16) (by decide) (by decide) (hr (by simp [h])) (hs h).1
    exact ⟨hz, by simp⟩
  | run c n h hd =>
    have hz := readerInStep_advance_advance (n := 7) (m := 3) (by decide) (by decide) (hr (by simp [h])) (hs h).1
    exact ⟨hz, by simp [hd]⟩
  | endRec h =>
    have hz := readerInStep_advance (n := 7) (by decide) (by decide) (hr (by simp [h])) (hs h).1
    exact ⟨hz, by simp⟩
  | sample v w h hd h0 hw h32 => exact ⟨readerInStep_advanceField h32 (hr (by simp [h])) (hs h).1, by simp [hd]⟩
  | decode => exact ⟨readerInStep_of_empty rfl rfl rfl, by simp⟩
  | initbuffer | clearbits | loadbits | readbits | xform => cases ht
  | sampleFault | loadbitsFault | decodeFault | xformFault => cases ht

/-- An instruction that ends in IDLE was a command, and keeps DSTATE. -/
theorem execResult_idle {s t : State} (hs : s.st = .idle → s.dstate = .idle ∨ s.dstate = .done) (h : ExecResult s t)
    (ht : t.st = .idle) : t.dstate = .idle ∨ t.dstate = .done := by
  cases h with
  | same | refuse => exact hs ht
  | hdr k v h | run c n h | endRec h | sample v w h => simp [h] at ht -- these stay BUSY
  | initbuffer h | clearbits h | loadbits h => exact hs h
  | readbits n h | xform r h => simpa using hs h
  | decode => cases ht
  | sampleFault | loadbitsFault | decodeFault | xformFault => cases ht

/-! The decoder's registers -/

theorem decoderConsistent_of_not_busy {s : State} (h : s.st ≠ .busy) : DecoderConsistent s :=
  fun hd => absurd hd.1 h

/-- A width of the table fits W. -/
theorem toNat_width (p : Params) (c : BitVec 3) : (BitVec.ofNat 6 (p.width c)).toNat = p.width c := by
  have : p.width c < 33 := Fin.isLt _
  rw [BitVec.toNat_ofNat, Nat.mod_eq_of_lt (by omega)]

theorem outBytes_lt (p : Params) : p.outBytes < 2 ^ 32 := by
  have := p.outBlocks.isLt
  unfold Params.outBytes
  omega

/-- The claim for sample i keeps ALLOC the smallest multiple of 2^20 that is at least the sample count (R33). -/
theorem toNat_claimed {p : Params} {i : Nat} {alloc : Word} (hc : claimFails p i = false)
    (halloc : alloc.toNat = Config.block * ((i + Config.block - 1) / Config.block)) :
    (claimed i alloc).toNat = Config.block * ((i + 1 + Config.block - 1) / Config.block) := by
  have hcap := outBytes_lt p
  rw [← Bool.not_eq_true, claimFails_iff] at hc
  unfold claimed Config.block at *
  split
  · rw [BitVec.toNat_ofNat]
    omega
  · omega

/-- A sample written at CNT leaves the samples so far written, and ACT the last of them. -/
theorem decoderConsistent_placeSample {s : State} (v : Byte) (hs : DecoderConsistent s) (hb : s.st = .busy)
    (hd : s.dstate = .decodeRuns) (h0 : s.runrem ≠ 0) (hc : claimFails s.params s.cnt.toNat = false)
    (hroom : s.cnt.toNat < s.params.outBytes) : DecoderConsistent (placeSample v s) := by
  obtain ⟨hw, -, halloc, -, hcells, -⟩ := hs ⟨hb, .inl hd⟩
  have hcap := outBytes_lt s.params
  have hcnt : (placeSample v s).cnt.toNat = s.cnt.toNat + 1 := by
    show (s.cnt + 1).toNat = _
    rw [BitVec.toNat_add, show (1 : Word).toNat = 1 from rfl, Nat.mod_eq_of_lt (by omega)]
  intro _
  refine ⟨fun _ => hw h0, ?_, fun _ => ?_, fun hdone => ?_, fun a ha => ?_, ?_⟩
  · rw [hcnt]
    exact hroom
  · rw [hcnt]
    exact toNat_claimed hc (halloc hd)
  · exact absurd (hd.symm.trans hdone) (by decide)
  · show (cellAt (putCell s.out.cells s.cnt.toNat v) a).isSome = true
    rw [cellAt_putCell]
    split
    · rfl
    · exact hcells a (by omega)
  · rw [hcnt, if_neg (Nat.succ_ne_zero _), Nat.add_sub_cancel]
    show v = readByte .out (writeByte s.out s.cnt.toNat v) s.cnt.toNat
    rw [readByte_writeByte, if_pos rfl]

/-- Reads move the reader only. -/
theorem decoderConsistent_advanceField {s : State} (w : Nat) (hs : DecoderConsistent s) :
    DecoderConsistent (advanceField w s) := by
  unfold DecoderConsistent decoding byteAt memoryOf at *
  simpa using hs

theorem execResult_decoderConsistent {s t : State} (hs : DecoderConsistent s) (h : ExecResult s t) :
    DecoderConsistent t := by
  cases h with
  | same => exact hs
  | hdr k v h =>
    have hclaim : 0 = Config.block * ((0 + Config.block - 1) / Config.block) := by decide
    exact fun _ => ⟨fun hrun => absurd rfl hrun, Nat.zero_le _, fun _ => hclaim, fun hd => absurd hd (by simp),
      fun a ha => absurd ha (Nat.not_lt_zero a), rfl⟩
  | run c n h hd h0 hn =>
    obtain ⟨-, hcnt, halloc, -, hcells, hact⟩ := hs ⟨h, .inl hd⟩
    refine fun _ => ⟨fun _ => ?_, ?_⟩
    · show (BitVec.ofNat 6 (s.params.width c)).toNat = (advance 3 (advance 7 s)).params.width c
      rw [toNat_width]
      simp
    · unfold byteAt memoryOf at *
      simp only [advance_cnt, advance_params, advance_dstate, advance_alloc, advance_out, advance_act]
      exact ⟨hcnt, halloc, fun hdone => absurd (hd.symm.trans hdone) (by decide), hcells, hact⟩
  | endRec h hd h0 =>
    obtain ⟨-, hcnt, -, -, hcells, hact⟩ := hs ⟨h, .inl hd⟩
    intro _
    unfold byteAt memoryOf at *
    simp only [advance_cnt, advance_params, advance_out, advance_act, advance_runrem, advance_w, advance_wcode]
    exact ⟨fun hrun => absurd h0 hrun, hcnt, fun hruns => absurd hruns (by decide), fun _ => ⟨trivial, h0⟩, hcells,
      hact⟩
  | sample v w h hd h0 hw h32 hr hc ho =>
    exact decoderConsistent_placeSample v (decoderConsistent_advanceField _ hs) (by simpa using h) (by simpa using hd)
      (by simpa using h0) (by simpa using hc) (by simpa using lt_outBytes_of_claim hc ho)
  | decode => exact fun hd => absurd hd.2 (by simp)
  | refuse h => exact decoderConsistent_of_not_busy (by simp [h])
  | initbuffer | clearbits | loadbits | readbits | xform => exact decoderConsistent_of_not_busy (by simp)
  | sampleFault | loadbitsFault | decodeFault | xformFault => exact decoderConsistent_of_not_busy (by simp)

/-! All of it -/

theorem invariant_of_not_busy {s : State} (hstatus : StatusConsistent s) (hmem : MemoriesCanonical s)
    (hreg : s.st ≠ .fault → ReaderInRange s ∧ HeaderInRange s) (hb : s.st ≠ .busy)
    (hd : s.st = .idle → s.dstate = .idle ∨ s.dstate = .done) : Invariant s :=
  ⟨hstatus, hmem, hreg, fun h => absurd h hb, hd, decoderConsistent_of_not_busy hb⟩

theorem execResult_invariant {s t : State} (hs : Invariant s) (h : ExecResult s t) : Invariant t := by
  obtain ⟨hstatus, hmem, hreg, hbusy, hidle, hdec⟩ := hs
  have hr : s.st ≠ .fault → ReaderInRange s := fun hf => (hreg hf).1
  exact ⟨execResult_statusConsistent hstatus h, execResult_memoriesCanonical hmem h,
    fun hf => ⟨execResult_readerInRange hr h hf, execResult_headerInRange (fun hf => (hreg hf).2) h hf⟩,
    execResult_busy hr hbusy h, execResult_idle hidle h, execResult_decoderConsistent hdec h⟩

theorem closeResult_invariant {s t : State} (hs : Invariant s) (hb : s.st = .busy) (hd : s.dstate = .done)
    (h : CloseResult s t) : Invariant t := by
  obtain ⟨hstatus, hmem, hreg, -⟩ := hs
  obtain ⟨hr, hh⟩ := hreg (by simp [hb])
  refine invariant_of_not_busy (closeResult_statusConsistent hstatus hb h) (closeResult_memoriesCanonical hmem h)
    (fun hf => ⟨closeResult_readerInRange hr h hf, closeResult_headerInRange hh h hf⟩) ?_
    fun _ => .inr ((closeResult_dstate h).trans hd)
  rcases closeResult_st h with ht | ht <;> simp [ht]

theorem hostResult_invariant {s t : State} (hs : Invariant s) (hb : s.st ≠ .busy) (h : HostResult s t) :
    Invariant t := by
  obtain ⟨hstatus, hmem, hreg, -, hidle, -⟩ := hs
  refine invariant_of_not_busy (hostResult_statusConsistent hstatus hb h) (hostResult_memoriesCanonical hmem h)
    (fun hf => ⟨hostResult_readerInRange (fun hf => (hreg hf).1) h hf,
      hostResult_headerInRange (fun hf => (hreg hf).2) h hf⟩) ?_ ?_
  · rwa [hostResult_st h]
  · rwa [hostResult_st h, hostResult_dstate h]

theorem headerInRange_reset : HeaderInRange State.reset := by
  unfold HeaderInRange
  decide

/-- After the reset event, with SKIP and STRIP by log entry 2. -/
theorem resetEvent_invariant (s : State) : Invariant (resetEvent s) :=
  invariant_of_not_busy (statusConsistent_of_idle rfl rfl)
    (memoriesCanonical_unspecified (g := s.fresh) rfl rfl rfl)
    (fun _ => ⟨readerInRange_of_detached rfl rfl, headerInRange_reset⟩) (by simp [State.reset]) fun _ => .inl rfl

/-- Settles O56: each part of a step keeps each clause, the reader's place in the stream and the samples written
being the clauses that a running decode moves on. -/
theorem stepKeepsTheInvariant : Obligations.StepKeepsTheInvariant := by
  unfold Obligations.StepKeepsTheInvariant
  intro s t hs h
  exact kept_by_step (fun _ _ h => h) (fun _ _ => execResult_invariant) (fun _ _ => closeResult_invariant)
    (fun _ _ => hostResult_invariant) resetEvent_invariant hs h

/-- Settles O2: reset is idle, with an empty reader and nothing written, and SKIP and STRIP by log entry 2. -/
theorem resetMeetsTheInvariant : Obligations.ResetMeetsTheInvariant := by
  unfold Obligations.ResetMeetsTheInvariant
  exact invariant_of_not_busy (statusConsistent_of_idle rfl rfl)
    (memoriesCanonical_unspecified (g := 0) rfl rfl rfl)
    (fun _ => ⟨readerInRange_of_detached rfl rfl, headerInRange_reset⟩) (by decide) fun _ => .inl rfl

end Sys2Proof.Machine
end

section
/-! PROOFS. Which instruction a step runs, and what the records of a running decode do where they are selected and
where they are not (30_encoding.md R96; 41_residual_decoder.md R140 to R147; 43_host_commands.md R190). -/

namespace Sys2Proof.Machine

open Sys2Proof.Safety

/-! From the fetch to the step -/

theorem step_of_fetch_run {s u : State} {i : Instr} (h : fetch s = .run i u) : step s = exec i u := by
  simp only [step, h]

theorem step_of_fetch_rest {s : State} {o : Host.Outcome State Fault Refusal} (h : fetch s = .rest o) : step s = o := by
  simp only [step, h]

/-- A reset that is due comes before anything else (R240). -/
theorem step_of_reset_due {s : State} {rest : List HostMove} (hh : s.host = .reset 0 :: rest) :
    step s = .next (resetEvent { s with host := rest }) :=
  step_of_fetch_rest (by simp only [fetch, hh])

/-- A reset on its way leaves a running decode its turn. -/
theorem fetch_busy_of_reset_on_its_way {s : State} {d : Nat} {rest : List HostMove} (hb : s.st = .busy)
    (hh : s.host = .reset (d + 1) :: rest) : fetch s = busyTurn { s with host := .reset d :: rest } := by
  simp [fetch, hh, turnBeforeReset, hb]

/-- DSTATE and RUNREM alone select the slot of the next record (R140). -/
theorem busyTurn_of_selected {s : State} {slot : Slot}
    (hsel : s.dstate = .readHeader ∧ slot = .header
      ∨ s.dstate = .decodeRuns ∧ s.runrem = 0 ∧ slot = .runHead
      ∨ s.dstate = .decodeRuns ∧ s.runrem ≠ 0 ∧ slot = .residual s.w) : busyTurn s = fetchRecord slot s := by
  rcases hsel with ⟨hd, rfl⟩ | ⟨hd, hrun, rfl⟩ | ⟨hd, hrun, rfl⟩
  · exact busyTurn_readHeader hd
  · exact busyTurn_runHead hd hrun
  · exact busyTurn_residual hd hrun

/-- Settles O3: the step is the reset event, whatever the state. -/
theorem resetEventWorksInEveryState : Obligations.ResetEventWorksInEveryState := by
  unfold Obligations.ResetEventWorksInEveryState
  intro s rest hh
  exact ⟨_, step_of_reset_due hh, rfl, rfl, rfl, rfl⟩

/-- Settles O4: the step fetches the selected record, over the state with a coming reset one step nearer. -/
theorem stepRunsTheSelectedRecord : Obligations.StepRunsTheSelectedRecord := by
  unfold Obligations.StepRunsTheSelectedRecord
  intro s slot i hb hsel hd
  refine ⟨fun hn => step_of_fetchRecord hb hn (busyTurn_of_selected hsel) hd, fun d rest hh => ?_⟩
  have hturn : busyTurn { s with host := .reset d :: rest } = fetchRecord slot { s with host := .reset d :: rest } :=
    busyTurn_of_selected hsel
  refine step_of_fetch_run ((fetch_busy_of_reset_on_its_way hb hh).trans (hturn.trans (fetchRecord_of_decode ?_)))
  rwa [lookAhead_host]

/-- Settles O5: the host's move is the command it has written. -/
theorem stepRunsTheSubmittedCommand : Obligations.StepRunsTheSubmittedCommand := by
  unfold Obligations.StepRunsTheSubmittedCommand
  intro s v rest i hi hh hd
  exact step_of_command hi hh hd

/-! Records in their place -/

/-- Settles O20: HDR where it is selected, with the reader in range. -/
theorem hdrEffect : Obligations.HdrEffect := by
  unfold Obligations.HdrEffect
  intro s k v hb hd hr
  exact exec_hdr_of_selected k v (decoderAt_iff.mpr ⟨hb, hd⟩) hr

/-- The eight RUN instructions by their codes. -/
theorem eq_runOfCode_of_mem {n : BitVec 7} {i : Instr} {c : BitVec 3}
    (h : (i, c) ∈ [(Instr.runC0 n, 0#3), (.runC1 n, 1#3), (.runC2 n, 2#3), (.runC3 n, 3#3),
      (.runC4 n, 4#3), (.runC5 n, 5#3), (.runC6 n, 6#3), (.runC7 n, 7#3)]) : i = runOfCode c n := by
  simp only [List.mem_cons, Prod.mk.injEq, List.not_mem_nil, or_false] at h
  rcases h with ⟨rfl, rfl⟩ | ⟨rfl, rfl⟩ | ⟨rfl, rfl⟩ | ⟨rfl, rfl⟩ | ⟨rfl, rfl⟩ | ⟨rfl, rfl⟩ | ⟨rfl, rfl⟩ |
    ⟨rfl, rfl⟩ <;> rfl

/-- Settles O22: each of the eight starts a run of its code. -/
theorem runEffect : Obligations.RunEffect := by
  unfold Obligations.RunEffect
  intro s n i c hi hb hd hrun hn hr
  rw [eq_runOfCode_of_mem hi, exec_runOfCode]
  exact startRun_of_selected c (runHeadSelected_iff.mpr ⟨hb, hd, hrun⟩) hn hr

/-- Settles O23: END where it is selected, with the reader in range. -/
theorem endEffect : Obligations.EndEffect := by
  unfold Obligations.EndEffect
  intro s hb hd hrun hr
  exact exec_endRec_of_selected (runHeadSelected_iff.mpr ⟨hb, hd, hrun⟩) hr

/-- The top w bits of the look-ahead word are what a read of w delivers; for w = 0 there are none. -/
theorem lookAhead_shift_eq_readBits {s : State} {w : BitVec 6} (h32 : w.toNat ≤ 32) (hr : ReaderInRange s) :
    lookAhead s >>> (32 - w.toNat) = if w = 0 then 0 else (readBits w.toNat s).1 := by
  apply BitVec.eq_of_toNat_eq
  rw [BitVec.toNat_ushiftRight, Nat.shiftRight_eq_div_pow]
  split
  · subst w
    exact Nat.div_eq_of_lt (lookAhead s).isLt
  · rw [readBits_eq_lookAhead (by bv_omega) h32 hr]

/-- Settles O26: the residual slot of width W decodes every look-ahead word, to the bits a read of W delivers. -/
theorem stepReadsTheResidualField : Obligations.StepReadsTheResidualField := by
  unfold Obligations.StepReadsTheResidualField
  intro s hb hd hrun h32 hr hn
  rw [← lookAhead_shift_eq_readBits h32 hr]
  exact step_of_fetchRecord hb hn (busyTurn_residual hd hrun) (if_pos h32)

/-! Records out of place -/

/-- Settles O29: each record checks its own place before anything else. -/
theorem recordsRunOnlyWhereSelected : Obligations.RecordsRunOnlyWhereSelected := by
  unfold Obligations.RecordsRunOnlyWhereSelected
  intro s
  refine ⟨fun hno k v => ?_, fun hno => ?_, fun w f hno => ?_⟩
  · rw [← decoderAt_iff, Bool.not_eq_true] at hno
    exact if_pos hno
  · rw [← runHeadSelected_iff, Bool.not_eq_true] at hno
    refine ⟨if_pos hno, fun n c => ?_⟩
    rw [exec_runOfCode, startRun, hno]
    rfl
  · rw [← sampleSelected_iff, Bool.not_eq_true] at hno
    exact if_pos hno

/-! Commands out of place -/

/-- Every command first looks at ST (R220). -/
theorem exists_exec_eq_submit {i : Instr} (h : i.slot = .command) : ∃ run, ∀ s, exec i s = submit s run := by
  cases i with
  | hdr | runC0 | runC1 | runC2 | runC3 | runC4 | runC5 | runC6 | runC7 | endRec | sample => cases h
  | initbuffer | clearbits | loadbits | readbits | decode | xformF | xformR => exact ⟨_, fun _ => rfl⟩

/-- Settles O46: what submission answers while BUSY and in FAULT. -/
theorem commandsNeedAnIdleBlock : Obligations.CommandsNeedAnIdleBlock := by
  unfold Obligations.CommandsNeedAnIdleBlock
  intro s i hi
  obtain ⟨run, hrun⟩ := exists_exec_eq_submit hi
  rw [hrun]
  exact ⟨fun hb => by simp [submit, hb], fun hf => by simp [submit, hf]⟩

end Sys2Proof.Machine
end

section
/-! PROOFS. A step of a running decode: what it leaves alone, and that the host's list has no part in it
(20_memory.md R77; 70_reset_and_hazards.md R250). -/

namespace Sys2Proof.Machine

open Sys2Proof.Safety

/-- What a running decode does next when it answers a next state: the record it fetches, or its closing actions. -/
theorem step_busy_cases {s t : State} (hb : s.st = .busy) (hn : noResetPending s) (h : step s = .next t) :
    (∃ i, busyTurn s = .run i s ∧ exec i s = .next t)
      ∨ (busyTurn s = .rest (closeDecode s) ∧ closeDecode s = .next t) := by
  have hfetch := fetch_busy hb hn
  cases hturn : busyTurn s with
  | run i u =>
    obtain ⟨rfl, -⟩ := busyTurn_run hturn
    rw [step_of_fetch_run (hfetch.trans hturn)] at h
    exact .inl ⟨i, rfl, h⟩
  | rest o =>
    rw [step_of_fetch_rest (hfetch.trans hturn)] at h
    subst h
    have hclose := (busyTurn_rest hturn).2
    exact .inr ⟨by rw [hclose], hclose⟩

/-! The host's side -/

/-- What a micro-operation of a decode leaves alone of the host's side. -/
theorem execResult_host {s t : State} (hb : s.st = .busy) (h : ExecResult s t) :
    t.host = s.host ∧ t.hostRead = s.hostRead ∧ t.a0 = s.a0 ∧ t.a1 = s.a1 ∧ t.a2 = s.a2 := by
  cases h with
  | hdr | run | endRec | sample => simp
  | sampleFault => exact ⟨rfl, rfl, rfl, rfl, rfl⟩
  | same h | refuse h | initbuffer h | clearbits h | loadbits h | loadbitsFault h | readbits n h | decode h
  | decodeFault h | xform r h | xformFault h => rw [hb] at h; cases h

theorem closeResult_host {s t : State} (h : CloseResult s t) :
    t.host = s.host ∧ t.hostRead = s.hostRead ∧ t.a0 = s.a0 ∧ t.a1 = s.a1 ∧ t.a2 = s.a2 := by
  cases h with
  | fault => exact ⟨rfl, rfl, rfl, rfl, rfl⟩
  | restored => simp

theorem step_busy_host {s t : State} (hb : s.st = .busy) (hn : noResetPending s) (h : step s = .next t) :
    t.host = s.host ∧ t.hostRead = s.hostRead ∧ t.a0 = s.a0 ∧ t.a1 = s.a1 ∧ t.a2 = s.a2 := by
  rcases step_busy_cases hb hn h with ⟨i, -, h⟩ | ⟨-, h⟩
  · exact execResult_host hb (exec_result h)
  · exact closeResult_host (closeDecode_result h)

/-! With another list of the host -/

theorem readBits_withHost (n : Nat) (s : State) (l : List HostMove) :
    readBits n { s with host := l } = ((readBits n s).1, { advance n s with host := l }) := by
  rcases Nat.lt_or_ge n s.nbits.toNat with hn | hn
  · simp only [advance, readBits_within (s := { s with host := l }) hn, readBits_within hn]
  · simp only [advance, readBits_refill (s := { s with host := l }) hn, readBits_refill hn]
    rfl

theorem advance_withHost (n : Nat) (s : State) (l : List HostMove) :
    advance n { s with host := l } = { advance n s with host := l } := by
  rw [advance, readBits_withHost]

theorem advanceField_withHost (w : Nat) (s : State) (l : List HostMove) :
    advanceField w { s with host := l } = { advanceField w s with host := l } := by
  unfold advanceField
  split
  · rfl
  · exact advance_withHost w s l

theorem transformOut_withHost (restore : Bool) (n lanes window : Nat) (s : State) (l : List HostMove) :
    transformOut restore n lanes window { s with host := l } =
      { transformOut restore n lanes window s with host := l } := by
  unfold transformOut
  split <;> rfl

theorem startRun_withHost {c : BitVec 3} {n : BitVec 7} {s t : State} (l : List HostMove)
    (h : startRun c n s = .next t) : startRun c n { s with host := l } = .next { t with host := l } := by
  obtain ⟨hb, hd, hrun, hn, hout, rfl⟩ := startRun_next h
  have hsel : runHeadSelected { s with host := l } = true := runHeadSelected_iff.mpr ⟨hb, hd, hrun⟩
  have hout : refillOutside 10 { s with host := l } = false := hout
  simp only [startRun, hsel, decide_eq_true hn, hout, advance_withHost]
  rfl

/-- A micro-operation of a decode does the same with another list of the host. -/
theorem exec_withHost {i : Instr} {s t : State} (hb : s.st = .busy) (l : List HostMove) (h : exec i s = .next t) :
    exec i { s with host := l } = .next { t with host := l } := by
  have command (hi : i.slot = .command) : exec i { s with host := l } = .next { t with host := l } := by
    rw [(commandsNeedAnIdleBlock s i hi).1 hb] at h
    cases h
  cases i with
  | hdr k v =>
    obtain ⟨-, hd, hout, rfl⟩ := execHdr_next h
    have hsel : decoderAt .readHeader { s with host := l } = true := decoderAt_iff.mpr ⟨hb, hd⟩
    have hout : refillOutside 18 { s with host := l } = false := hout
    simp only [exec, execHdr, hsel, hout, advance_withHost]
    rfl
  | runC0 n => exact startRun_withHost l h
  | runC1 n => exact startRun_withHost l h
  | runC2 n => exact startRun_withHost l h
  | runC3 n => exact startRun_withHost l h
  | runC4 n => exact startRun_withHost l h
  | runC5 n => exact startRun_withHost l h
  | runC6 n => exact startRun_withHost l h
  | runC7 n => exact startRun_withHost l h
  | endRec =>
    obtain ⟨-, hd, hrun, hout, rfl⟩ := execEndRec_next h
    have hsel : runHeadSelected { s with host := l } = true := runHeadSelected_iff.mpr ⟨hb, hd, hrun⟩
    have hout : refillOutside 7 { s with host := l } = false := hout
    simp only [exec, execEndRec, hsel, hout, advance_withHost]
    rfl
  | sample w f =>
    obtain ⟨-, hd, hrun, hw, h32, hout, hcase⟩ := execSample_next h
    have hsel : sampleSelected w { s with host := l } = true := sampleSelected_iff.mpr ⟨hb, hd, hrun, hw, h32⟩
    have hout : fieldOutside w.toNat { s with host := l } = false := hout
    have hvalue : sampleValue w.toNat f.toNat { s with host := l } = sampleValue w.toNat f.toNat s := rfl
    rcases hcase with ⟨hclaim, rfl⟩ | ⟨hclaim, hinside, rfl⟩
    · simp only [exec, execSample, hsel, hout, hclaim]
      rfl
    · simp only [exec, execSample, hsel, hout, hclaim, hinside, hvalue, advanceField_withHost]
      rfl
  | initbuffer | clearbits | loadbits | readbits | decode | xformF | xformR => exact command rfl

theorem closeDecode_withHost {s t : State} (l : List HostMove) (h : closeDecode s = .next t) :
    closeDecode { s with host := l } = .next { t with host := l } := by
  obtain ⟨hin, ⟨hlacks, rfl⟩ | ⟨hfits, rfl⟩⟩ := closeDecode_next h
  · simp only [closeDecode, hin, hlacks]
    rfl
  · simp only [closeDecode, hin, hfits, transformOut_withHost]
    rfl

theorem fetchRecord_withHost {slot : Slot} {s : State} {i : Instr} (l : List HostMove)
    (h : fetchRecord slot s = .run i s) : fetchRecord slot { s with host := l } = .run i { s with host := l } := by
  unfold fetchRecord at h
  split at h
  · cases h
    exact fetchRecord_of_decode (by rwa [lookAhead_host])
  · cases h

/-- Settles O45: the turn of a running decode is made of the reader, DSTATE and RUNREM, and its record or its closing
actions do the same with every list. -/
theorem hostHasNoMoveWhileBusy : Obligations.HostHasNoMoveWhileBusy := by
  unfold Obligations.HostHasNoMoveWhileBusy
  intro s t hb hn h
  obtain ⟨hhost, hread, ha0, ha1, ha2⟩ := step_busy_host hb hn h
  refine ⟨hhost, hread, ha0, ha1, ha2, fun l hl => ?_⟩
  have hfetch : fetch { s with host := l } = busyTurn { s with host := l } := fetch_busy hb hl
  rcases step_busy_cases hb hn h with ⟨i, hturn, h⟩ | ⟨hturn, h⟩
  · obtain ⟨-, slot, -, hsel⟩ := busyTurn_run hturn
    have hturn' : busyTurn { s with host := l } = fetchRecord slot { s with host := l } := busyTurn_of_selected hsel
    rw [busyTurn_of_selected hsel] at hturn
    rw [step_of_fetch_run (hfetch.trans (hturn'.trans (fetchRecord_withHost l hturn)))]
    exact exec_withHost hb l h
  · have hd := (busyTurn_rest (hturn.trans (by rw [h]))).1
    have hturn' : busyTurn { s with host := l } = .rest (closeDecode { s with host := l }) := by
      simp only [busyTurn, hd]
    rw [step_of_fetch_rest (hfetch.trans hturn')]
    exact closeDecode_withHost l h

/-! The stream -/

theorem execResult_stream {s t : State} (hb : s.st = .busy) (h : ExecResult s t) (ht : t.st ≠ .fault) :
    t.coded = s.coded ∧ t.plen = s.plen := by
  cases h with
  | hdr | run | endRec | sample => simp
  | sampleFault => exact absurd rfl ht
  | same h | refuse h | initbuffer h | clearbits h | loadbits h | loadbitsFault h | readbits n h | decode h
  | decodeFault h | xform r h | xformFault h => rw [hb] at h; cases h

theorem closeResult_stream {s t : State} (h : CloseResult s t) (ht : t.st ≠ .fault) :
    t.coded = s.coded ∧ t.plen = s.plen := by
  cases h with
  | fault => exact absurd rfl ht
  | restored => simp

/-- Settles O51: a record reads CODED and a transform works on OUT. -/
theorem decodingLeavesTheStreamAlone : Obligations.DecodingLeavesTheStreamAlone := by
  unfold Obligations.DecodingLeavesTheStreamAlone
  intro s t hb hdue h ht
  obtain ⟨l, ⟨-, h⟩ | ⟨-, -, h⟩ | ⟨hb', -⟩ | ⟨hreset, -⟩⟩ := step_result h
  · exact execResult_stream (s := { s with host := l }) hb h ht
  · exact closeResult_stream (s := { s with host := l }) h ht
  · exact absurd hb hb'
  · exact absurd (by rw [hreset]; rfl) hdue

end Sys2Proof.Machine
end

section
/-! PROOFS. STATUS, and the host's byte accesses to CODED and OUT (10_state.md R39; 20_memory.md R64). -/

namespace Sys2Proof.Machine

open Sys2Proof.Safety

/-- Settles O1: each register by its field in State.reset. -/
theorem resetRegistersHoldTheSpecsValues : Obligations.ResetRegistersHoldTheSpecsValues := by
  unfold Obligations.ResetRegistersHoldTheSpecsValues
  exact ⟨rfl, rfl, rfl, rfl, rfl, rfl, rfl, rfl, rfl, rfl, rfl, rfl, rfl, rfl, rfl⟩

/-- Settles O6: the decoder run on the seven words. -/
theorem specWordsDecode : Obligations.SpecWordsDecode := by
  unfold Obligations.SpecWordsDecode
  decide

/-- STATUS as a number is its fields' codes, each at its place. -/
theorem toNat_statusWord (s : State) :
    (statusWord s).toNat =
      s.st.code.toNat + 4 * s.done.toNat + 8 * s.cmderr.toNat + 16 * s.cause.code.toNat
        + 256 * s.dstate.code.toNat := by
  unfold statusWord
  simp only [toNat_append_eq_add, BitVec.toNat_ofBool, BitVec.toNat_ofNat]
  omega

/-- Settles O41: the fields' places, and the code of each value. -/
theorem statusFields : Obligations.StatusFields := by
  unfold Obligations.StatusFields
  intro s
  refine (toNat_statusWord s).trans (congrArg₂ (· + ·) (congrArg₂ (· + ·) (congrArg₂ (· + ·) (congrArg₂ (· + ·)
    ?_ rfl) rfl) (congrArg (16 * ·) ?_)) (congrArg (256 * ·) ?_))
  · cases s.st <;> rfl
  · cases s.cause <;> rfl
  · cases s.dstate <;> rfl

/-! Byte accesses -/

section
variable {s : State} {rest : List HostMove} {sp : HostSpace} {a : Word} {b : Byte}

theorem step_writeByte_of_idle (ha : a.toNat < s.params.capacity sp.space) (hi : s.st = .idle)
    (hh : s.host = .writeByte sp a b :: rest) :
    step s = .next (hostWriteByte { s with host := rest } sp a.toNat b) := by
  rw [step_move (by simp [hi]) hh rfl]
  simp [hostMove, depositByte, hi, Nat.not_le.mpr ha]

theorem step_writeByte_of_fault (ha : a.toNat < s.params.capacity sp.space) (hf : s.st = .fault)
    (hh : s.host = .writeByte sp a b :: rest) : step s = .refused .byteWriteInFault := by
  rw [step_move (by simp [hf]) hh rfl]
  simp [hostMove, depositByte, hf, Nat.not_le.mpr ha]

theorem step_readByte (ha : a.toNat < s.params.capacity sp.space) (hb : s.st ≠ .busy)
    (hh : s.host = .readByte sp a :: rest) :
    step s = .next { s with host := rest, hostRead := (byteAt s sp.space a.toNat).setWidth 32 } := by
  rw [step_move hb hh rfl]
  simp only [hostMove, collectByte, if_neg (Nat.not_le.mpr ha)]
  cases sp <;> rfl

theorem step_byte_outside (ha : s.params.capacity sp.space ≤ a.toNat) (hb : s.st ≠ .busy)
    (hh : s.host = .writeByte sp a b :: rest ∨ s.host = .readByte sp a :: rest) :
    step s = .fault (.noSuchAddress sp.space) := by
  rcases hh with hh | hh
  · rw [step_move hb hh rfl]
    simp only [hostMove, depositByte, if_pos ha]
  · rw [step_move hb hh rfl]
    simp only [hostMove, collectByte, if_pos ha]

/-- A byte the host deposits is that byte of that memory and no other. -/
theorem byteAt_hostWriteByte (s : State) (sp : HostSpace) (a : Nat) (b : Byte) (x : Nat) :
    byteAt (hostWriteByte s sp a b) sp.space x = if x = a then b else byteAt s sp.space x := by
  cases sp with
  | coded => exact readByte_writeByte .coded s.coded a x b
  | out => exact readByte_writeByte .out s.out a x b

end

/-- Settles O44: a byte access is its own move of the host, checked first for the capacity and then for FAULT. -/
theorem hostByteAccess : Obligations.HostByteAccess := by
  unfold Obligations.HostByteAccess
  intro s rest sp a b
  refine ⟨fun ha hi hh => ?_, step_readByte, step_writeByte_of_fault, step_byte_outside⟩
  refine ⟨_, step_writeByte_of_idle ha hi hh, fun x => ?_, ?_, ?_⟩
  · rw [byteAt_hostWriteByte]
    cases sp <;> rfl
  · rintro rfl
    rfl
  · rintro rfl
    rfl

end Sys2Proof.Machine
end

section
/-! PROOFS. Progress: from a state that meets the invariant every step but a host byte access out of place answers a
next state (60_exceptions.md R210, R228). -/

namespace Sys2Proof.Machine

open Sys2Proof.Safety

/-- With its result inside OUT a decode closes. -/
theorem exists_closeDecode {s : State} (hin : s.cnt.toNat ≤ s.params.outBytes) : ∃ t, closeDecode s = .next t := by
  rw [closeDecode_of_inside hin]
  split
  · exact ⟨_, rfl⟩
  · exact ⟨_, rfl⟩

/-- A selected SAMPLE writes its value, or faults where OUT is full: OUT holds whole blocks only. -/
theorem exists_exec_sample {s : State} {w : BitVec 6} (f : Word) (hsel : sampleSelected w s = true)
    (hr : ReaderInRange s) (hcnt : s.cnt.toNat ≤ s.params.outBytes) : ∃ t, exec (.sample w f) s = .next t := by
  rcases Nat.lt_or_eq_of_le hcnt with hroom | hfull
  · exact ⟨_, exec_sample_of_room f hsel hr hroom⟩
  · refine ⟨_, exec_sample_of_claimFails f hsel hr ((claimFails_iff _ _).mpr ?_)⟩
    rw [hfull]
    unfold Params.outBytes Config.block
    omega

/-- A run head in its place: END, or the start of a run. -/
theorem exists_exec_runHead {s : State} (v : Word) (hsel : runHeadSelected s = true) (hr : ReaderInRange s) :
    ∃ t, exec (decodeRunHead v) s = .next t := by
  unfold decodeRunHead
  split
  · exact ⟨_, exec_endRec_of_selected hsel hr⟩
  · rw [exec_runOfCode]
    exact ⟨_, startRun_of_selected _ hsel ‹_› hr⟩

/-- A running decode always has a next step: a record that completes or faults, or its closing actions. -/
theorem exists_busyTurn {s : State} (hinv : Invariant s) (hb : s.st = .busy) :
    (∃ i t, busyTurn s = .run i s ∧ exec i s = .next t) ∨ ∃ t, busyTurn s = .rest (.next t) := by
  obtain ⟨-, -, hreg, hstep, -, hdec⟩ := hinv
  obtain ⟨hr, -⟩ := hreg (by simp [hb])
  obtain ⟨-, hne⟩ := hstep hb
  cases hd : s.dstate with
  | idle => exact absurd hd hne
  | readHeader =>
    exact .inl ⟨_, _, (busyTurn_readHeader hd).trans (fetchRecord_of_decode rfl),
      exec_hdr_of_selected _ _ (decoderAt_iff.mpr ⟨hb, hd⟩) hr⟩
  | decodeRuns =>
    obtain ⟨hw, hcnt, -⟩ := hdec ⟨hb, .inl hd⟩
    by_cases hrun : s.runrem = 0
    · obtain ⟨t, ht⟩ := exists_exec_runHead (lookAhead s) (runHeadSelected_iff.mpr ⟨hb, hd, hrun⟩) hr
      exact .inl ⟨_, t, (busyTurn_runHead hd hrun).trans (fetchRecord_of_decode rfl), ht⟩
    · have h32 : s.w.toNat ≤ 32 := by
        rw [hw hrun]
        exact Fin.is_le _
      obtain ⟨t, ht⟩ := exists_exec_sample (lookAhead s >>> (32 - s.w.toNat))
        (sampleSelected_iff.mpr ⟨hb, hd, hrun, rfl, h32⟩) hr hcnt
      exact .inl ⟨_, t, (busyTurn_residual hd hrun).trans (fetchRecord_of_decode (if_pos h32)), ht⟩
  | done =>
    obtain ⟨-, hcnt, -⟩ := hdec ⟨hb, .inr hd⟩
    obtain ⟨t, ht⟩ := exists_closeDecode hcnt
    exact .inr ⟨t, by simp only [busyTurn, hd, ht]⟩

theorem exists_step_of_busyTurn {s u : State} (hfetch : fetch s = busyTurn u) (hinv : Invariant u)
    (hb : u.st = .busy) : ∃ t, step s = .next t := by
  rcases exists_busyTurn hinv hb with ⟨i, t, hturn, ht⟩ | ⟨t, hturn⟩
  · exact ⟨t, (step_of_fetch_run (hfetch.trans hturn)).trans ht⟩
  · exact ⟨t, step_of_fetch_rest (hfetch.trans hturn)⟩

/-- A command in IDLE completes, is refused with CMDERR, or faults: with the reader in range it never leaves CODED. -/
theorem exists_exec_command {i : Instr} {s : State} (hslot : i.slot = .command) (hi : s.st = .idle)
    (hr : ReaderInRange s) : ∃ t, exec i s = .next t := by
  cases i with
  | hdr | runC0 | runC1 | runC2 | runC3 | runC4 | runC5 | runC6 | runC7 | endRec | sample => cases hslot
  | initbuffer => exact ⟨_, exec_initbuffer_of_idle hi⟩
  | clearbits => exact ⟨_, exec_clearbits_of_idle hi⟩
  | loadbits =>
    simp only [exec, execLoadbits, submit_idle _ hi]
    repeat' split
    all_goals exact ⟨_, rfl⟩
  | readbits n =>
    simp only [exec, execReadbits, submit_idle _ hi, refillOutside_of_inRange hr]
    split
    · exact ⟨_, rfl⟩
    · exact ⟨_, rfl⟩
  | decode =>
    simp only [exec, execDecode, submit_idle _ hi]
    split
    · exact ⟨_, rfl⟩
    · exact ⟨_, rfl⟩
  | xformF | xformR =>
    simp only [exec, execXformF, execXformR, xformCommand_of_idle _ hi]
    repeat' split
    all_goals exact ⟨_, rfl⟩

/-- A word written to CMD in IDLE is run or refused. -/
theorem exists_step_command_of_idle {s : State} {v : Word} {rest : List HostMove} (hi : s.st = .idle)
    (hr : ReaderInRange s) (hh : s.host = .writeReg 0 v :: rest) : ∃ t, step s = .next t := by
  cases hd : decode .command v with
  | ok i =>
    rw [step_of_command hi hh hd]
    exact exists_exec_command (s := { s with host := rest }) (slot_of_command hd) hi hr
  | error e =>
    exact ⟨_, reservedWordsChangeOnlyFlags s v rest hi hh (reservedWord_of_decode_error hd)⟩

theorem exists_reset_of_pending {s : State} (h : ¬ noResetPending s) : ∃ d rest, s.host = .reset d :: rest := by
  unfold noResetPending at h
  cases hh : s.host with
  | nil => simp [hh] at h
  | cons m rest => cases m <;> simp [hh, HostMove.isReset] at h ⊢

/-- Settles O57: the reset event, a micro-operation of a running decode, or a move of the host, each with a next
state. -/
theorem nothingGetsStuck : Obligations.NothingGetsStuck := by
  unfold Obligations.NothingGetsStuck
  intro s hinv hbyte
  by_cases hb : s.st = .busy
  · by_cases hn : noResetPending s
    · exact exists_step_of_busyTurn (fetch_busy hb hn) hinv hb
    · obtain ⟨d, rest, hh⟩ := exists_reset_of_pending hn
      cases d with
      | zero => exact ⟨_, step_of_reset_due hh⟩
      | succ d =>
        exact exists_step_of_busyTurn (u := { s with host := .reset d :: rest })
          (fetch_busy_of_reset_on_its_way hb hh) hinv hb
  · have hbyte := hbyte hb
    cases hh : s.host with
    | nil => exact ⟨s, step_of_no_move hb hh⟩
    | cons m rest =>
      cases m with
      | writeReg reg v =>
        by_cases hreg : reg = 0
        · subst hreg
          cases hst : s.st with
          | idle =>
            obtain ⟨-, -, hreg, -⟩ := hinv
            exact exists_step_command_of_idle hst (hreg (by simp [hst])).1 hh
          | busy => exact absurd hst hb
          | fault => exact ⟨_, step_command_of_fault hst hh⟩
        · exact ⟨_, step_writeReg hb hh hreg⟩
      | readReg reg => exact ⟨_, step_readReg hb hh⟩
      | writeByte sp a b =>
        obtain ⟨hi, ha⟩ := (hbyte sp a b).1 (by simp [hh])
        exact ⟨_, step_writeByte_of_idle ha hi hh⟩
      | readByte sp a => exact ⟨_, step_readByte ((hbyte sp a 0).2 (by simp [hh])) hb hh⟩
      | reset d =>
        cases d with
        | zero => exact ⟨_, step_of_reset_due hh⟩
        | succ d => exact ⟨_, step_of_reset_on_its_way hb hh⟩

end Sys2Proof.Machine
end

section
/-! PROOFS. Termination of a decode: a number of steps left that every micro-operation lowers (41_residual_decoder.md
R152). -/

namespace Sys2Proof.Safety

open Sys2Proof.Machine

/-- A bound on the steps a block has before it leaves BUSY: the rest of the current run, at most 128 steps for each RUN
record the rest of the stream has room for, the END and the closing actions; and the header before them. -/
def stepsLeft (s : State) : Nat :=
  if s.st = .busy then
    match s.dstate with
    | .idle => 0
    | .readHeader => 128 * (8 * s.plen.toNat / 10 + 1) + 3
    | .decodeRuns => s.runrem.toNat + 128 * ((8 * s.plen.toNat - s.bitpos + 9) / 10) + 2
    | .done => 1
  else 0

theorem stepsLeft_of_not_busy {s : State} (h : s.st ≠ .busy) : stepsLeft s = 0 := if_neg h

theorem stepsLeft_readHeader {s : State} (hb : s.st = .busy) (hd : s.dstate = .readHeader) :
    stepsLeft s = 128 * (8 * s.plen.toNat / 10 + 1) + 3 := by
  simp only [stepsLeft, if_pos hb, hd]

theorem stepsLeft_decodeRuns {s : State} (hb : s.st = .busy) (hd : s.dstate = .decodeRuns) :
    stepsLeft s = s.runrem.toNat + 128 * ((8 * s.plen.toNat - s.bitpos + 9) / 10) + 2 := by
  simp only [stepsLeft, if_pos hb, hd]

theorem stepsLeft_done {s : State} (hb : s.st = .busy) (hd : s.dstate = .done) : stepsLeft s = 1 := by
  simp only [stepsLeft, if_pos hb, hd]

section
variable {s : State}

/-- The header's step leaves the stream's runs, the END and the closing actions. -/
theorem exists_step_header_fewer (hb : s.st = .busy) (hd : s.dstate = .readHeader) (hr : ReaderInRange s)
    (hn : noResetPending s) : ∃ t, step s = .next t ∧ stepsLeft t < stepsLeft s := by
  obtain ⟨t, hstep, -, -, -, ht⟩ := stepReadsTheHeader s hb hd hr hn
  have hplen : t.plen = s.plen := by rw [ht]; simp
  have hrun : t.runrem.toNat = 0 := by rw [ht]; rfl
  refine ⟨t, hstep, ?_⟩
  rw [stepsLeft_readHeader hb hd, stepsLeft_decodeRuns (by rw [ht]; simpa using hb) (by rw [ht]), hplen, hrun]
  omega

/-- A run head's step: an END beyond the stream at the latest, since there every bit is 0; before it a RUN of at most
127 samples, which takes ten bits of the stream. -/
theorem exists_step_runHead_fewer (hb : s.st = .busy) (hd : s.dstate = .decodeRuns) (hrun : s.runrem = 0)
    (hr : ReaderInRange s) (hz : ReaderInStep s) (hn : noResetPending s) :
    ∃ t, step s = .next t ∧ stepsLeft t < stepsLeft s := by
  obtain ⟨hend, hhead⟩ := stepReadsTheRunHead s hb hd hrun hr hn
  rw [stepsLeft_decodeRuns hb hd]
  by_cases h0 : (readBits 7 s).1 = 0
  · refine ⟨_, hend h0, ?_⟩
    rw [stepsLeft_done (by simpa using hb) rfl]
    omega
  · obtain ⟨hle, hstep⟩ := hhead h0
    have hinside : s.bitpos < 8 * s.plen.toNat := by
      by_contra hbeyond
      apply h0
      apply BitVec.eq_of_toNat_eq
      rw [readBits_eq_field (by decide) (by decide) hr hz, field_beyond _ (by omega)]
      rfl
    refine ⟨_, hstep, ?_⟩
    rw [stepsLeft_decodeRuns (by simpa using hb) (by simpa using hd)]
    simp only [advance_plen, advance_bitpos, BitVec.toNat_setWidth]
    omega

/-- A SAMPLE's step leaves one sample less of its run, or faults. -/
theorem sample_fewer {w : BitVec 6} {f : Word} {t : State} (h : exec (.sample w f) s = .next t) :
    stepsLeft t < stepsLeft s := by
  obtain ⟨hb, hd, hrun, -, -, -, ⟨-, rfl⟩ | ⟨-, -, rfl⟩⟩ := execSample_next h
  · rw [stepsLeft_decodeRuns hb hd, stepsLeft_of_not_busy (by simp)]
    omega
  · have hless : (s.runrem - 1).toNat + 1 = s.runrem.toNat := by bv_omega
    rw [stepsLeft_decodeRuns hb hd, stepsLeft_decodeRuns (by simpa using hb) (by simpa using hd)]
    simp only [placeSample_runrem, placeSample_plen, placeSample_bitpos, advanceField_runrem, advanceField_plen,
      advanceField_bitpos]
    omega

/-- Every micro-operation of a decode lowers the number of steps left. -/
theorem exists_step_fewer (hinv : Invariant s) (hb : s.st = .busy) (hn : noResetPending s) :
    ∃ t, step s = .next t ∧ stepsLeft t < stepsLeft s := by
  obtain ⟨t, hstep⟩ := nothingGetsStuck s hinv fun hidle => absurd hb hidle
  obtain ⟨-, -, hreg, hbusy, -, hdec⟩ := hinv
  obtain ⟨hr, -⟩ := hreg (by simp [hb])
  obtain ⟨hz, hne⟩ := hbusy hb
  cases hd : s.dstate with
  | idle => exact absurd hd hne
  | readHeader => exact exists_step_header_fewer hb hd hr hn
  | decodeRuns =>
    by_cases hrun : s.runrem = 0
    · exact exists_step_runHead_fewer hb hd hrun hr hz hn
    · obtain ⟨hw, -⟩ := hdec ⟨hb, .inl hd⟩
      have h32 : s.w.toNat ≤ 32 := by
        rw [hw hrun]
        exact Fin.is_le _
      refine ⟨t, hstep, ?_⟩
      rw [stepReadsTheResidualField s hb hd hrun h32 hr hn] at hstep
      exact sample_fewer hstep
  | done =>
    refine ⟨t, hstep, ?_⟩
    rw [step_closing hb hd hn] at hstep
    rw [stepsLeft_done hb hd, stepsLeft_of_not_busy]
    · decide
    · rcases closeResult_st (closeDecode_result hstep) with ht | ht <;> simp [ht]

/-- The block leaves BUSY within the steps left: a decode keeps the invariant and the host's list. -/
theorem exists_run_leaves_busy (n : Nat) (hinv : Invariant s) (hn : noResetPending s) (hle : stepsLeft s ≤ n) :
    ∃ k t, k ≤ n ∧ Host.Core.run core k s = .next t ∧ t.st ≠ .busy := by
  induction n generalizing s with
  | zero =>
    refine ⟨0, s, Nat.le_refl 0, rfl, fun hb => ?_⟩
    obtain ⟨t, -, hlt⟩ := exists_step_fewer hinv hb hn
    omega
  | succ n ih =>
    by_cases hb : s.st = .busy
    · obtain ⟨t, hstep, hlt⟩ := exists_step_fewer hinv hb hn
      have hhost : noResetPending t := by
        unfold noResetPending
        rw [(step_busy_host hb hn hstep).1]
        exact hn
      obtain ⟨k, u, hk, hrun, hu⟩ := ih (stepKeepsTheInvariant s t hinv hstep) hhost (by omega)
      refine ⟨k + 1, u, by omega, ?_, hu⟩
      simpa only [Host.Core.run, show core.step s = _ from hstep] using hrun
    · exact ⟨0, s, Nat.zero_le _, rfl, hb⟩

end

/-- Settles O39: the bound is the number of steps left at the header. -/
theorem decodeTerminates : Obligations.DecodeTerminates := by
  unfold Obligations.DecodeTerminates
  intro s hinv hb hd hn
  exact exists_run_leaves_busy _ hinv hn (stepsLeft_readHeader hb hd).le

end Sys2Proof.Safety
end

section
/-! PROOFS. The Bit Reader's reads by R124's branches, and its commands (40_bit_reader.md R121 to R131). -/

namespace Sys2Proof.Machine

open Sys2Proof.Safety

/-! Reads -/

/-- The word of a refill as a number: four bytes of CODED, the first most significant, or 0 at the end of the buffer
and beyond (R65, R124). -/
theorem toNat_refill_bytes (s : State) :
    (refill s).toNat =
      if s.boff.toNat < s.plen.toNat then
        (byteAt s .coded s.boff.toNat).toNat * 2 ^ 24 + (byteAt s .coded (s.boff.toNat + 1)).toNat * 2 ^ 16
          + (byteAt s .coded (s.boff.toNat + 2)).toNat * 2 ^ 8 + (byteAt s .coded (s.boff.toNat + 3)).toNat
      else 0 := by
  unfold refill
  split
  · exact toNat_be32 ..
  · rfl

/-- Settles O58: a read by its two branches, the refill's word by its bytes. -/
theorem readFollowsTheWindow : Obligations.ReadFollowsTheWindow := by
  unfold Obligations.ReadFollowsTheWindow
  intro s n h1 h32 hr
  obtain ⟨hvalue, -, hwin, -⟩ := readBits_parts h1 h32 hr
  dsimp only
  rw [← toNat_refill_bytes, hvalue, hwin]
  refine ⟨fun h => ?_, fun h => ?_⟩
  · rw [if_pos h, if_pos h]
    exact ⟨rfl, rfl⟩
  · rw [if_neg (Nat.not_lt.mpr h), if_neg (Nat.not_lt.mpr h)]
    exact ⟨rfl, rfl⟩

/-- Settles O15: the invariants are kept, and NBITS and BOFF are those of the branch taken. -/
theorem readKeepsTheReaderInvariants : Obligations.ReadKeepsTheReaderInvariants := by
  unfold Obligations.ReadKeepsTheReaderInvariants
  intro s n h1 h32 hr
  obtain ⟨-, hnbits, -, hboff, hframe⟩ := readBits_parts h1 h32 hr
  refine ⟨readerInRange_advance h1 h32 hr, readerInStep_advance h1 h32 hr, advance_bitpos n s, hnbits, ?_, hframe⟩
  rw [hboff]
  by_cases h : n < s.nbits.toNat
  · rw [if_pos h, if_neg (by omega)]
  · rw [if_neg h, toNat_boffAfter hr]
    simp only [Nat.not_lt.mp h, true_and]

/-- Settles O17: each read of a byte starts at a byte boundary and leaves the reader at the next. -/
theorem eightBitReadsYieldTheBytes : Obligations.EightBitReadsYieldTheBytes := by
  unfold Obligations.EightBitReadsYieldTheBytes
  intro s k count
  induction count generalizing s k with
  | zero => exact fun _ _ _ _ => rfl
  | succ count ih =>
    intro hr hz hpos hin
    have hbyte : (readBits 8 s).1.toNat = (readByte .coded s.coded k).toNat := by
      rw [readBits_eq_field (by decide) (by decide) hr hz, hpos, field_byte _ (by omega)]
    have hrest := ih (advance 8 s) (k + 1) (readerInRange_advance (by decide) (by decide) hr)
      (readerInStep_advance (by decide) (by decide) hr hz) (by rw [advance_bitpos, hpos]; omega)
      (by rw [advance_plen]; omega)
    rw [List.replicate_succ, readBytes, List.map_cons]
    simp only [readEach]
    rw [hbyte, hrest, advance_coded]

/-! READBITS -/

theorem advance_accept (n : Nat) (s : State) : advance n (accept s) = accept (advance n s) := by
  rcases Nat.lt_or_ge n s.nbits.toNat with hn | hn
  · simp only [advance, readBits_within (s := accept s) hn, readBits_within hn]
    rfl
  · simp only [advance, readBits_refill (s := accept s) hn, readBits_refill hn]
    rfl

/-- Settles O13: a width of 1 to 32 reads, any other is refused. -/
theorem readbitsEffect : Obligations.ReadbitsEffect := by
  unfold Obligations.ReadbitsEffect
  intro s n hi hr
  simp only [exec, execReadbits, submit_idle _ hi, refillOutside_of_inRange hr, advance_accept]
  refine ⟨fun hwidth => ?_, fun hwidth => ?_⟩
  · rw [readWidthOk_iff.mpr hwidth]
    simp [complete, accept, hi]
  · have hbad : readWidthOk n = false := by
      rw [← Bool.not_eq_true, readWidthOk_iff]
      omega
    rw [if_pos hbad]
    rfl

/-! LOADBITS, and DECODE's submission -/

/-- The pad bytes read as 0 and every other byte as before. -/
theorem readByte_loadBits (n : Nat) (s : State) (a : Nat) :
    readByte .coded (loadBits n s).coded a = if n ≤ a ∧ a < ceil4 n then 0 else readByte .coded s.coded a := by
  have hpad : n ≤ ceil4 n := by unfold ceil4; omega
  rw [loadBits_coded, readByte_writeBytes, List.length_replicate, Nat.add_sub_cancel' hpad]
  by_cases ha : n ≤ a ∧ a < ceil4 n
  · have hin : a - n < ceil4 n - n := by omega
    rw [if_pos ha, if_pos ha, List.getD_replicate 0 hin]
  · rw [if_neg ha, if_neg ha]

theorem chunkTooLarge_of_fits {p : Params} {n : Nat} (h : ceil4 n ≤ p.codedBytes) : ¬ chunkTooLarge p n = true := by
  rw [chunkTooLarge_iff]
  omega

theorem exec_loadbits_of_clear {s : State} (hi : s.st = .idle) (hc : readerClear s = true)
    (hfits : ceil4 s.a0.toNat ≤ s.params.codedBytes) :
    exec .loadbits s = .next (complete (accept (loadBits s.a0.toNat s))) := by
  simp only [exec, execLoadbits, submit_idle _ hi, hc, if_neg (chunkTooLarge_of_fits hfits)]
  rfl

theorem exec_loadbits_of_large {s : State} (hi : s.st = .idle) (hc : readerClear s = true)
    (hlarge : s.params.codedBytes < ceil4 s.a0.toNat) :
    exec .loadbits s = .next (takeFault .resourceCoded (accept s)) := by
  simp only [exec, execLoadbits, submit_idle _ hi, hc, if_pos ((chunkTooLarge_iff _ _).mpr hlarge)]
  rfl

/-- Settles O12: the check of the reader, the check of the capacity, and the padding. -/
theorem loadbitsEffect : Obligations.LoadbitsEffect := by
  unfold Obligations.LoadbitsEffect
  refine ⟨by decide, fun s hi => ?_⟩
  dsimp only
  rw [← readerClear_iff]
  refine ⟨fun hc hfits => ⟨(loadBits s.a0.toNat s).coded, ?_, readByte_loadBits _ s⟩, fun hc hlarge => ?_, fun hc => ?_⟩
  · rw [exec_loadbits_of_clear hi hc hfits, complete_accept_of_idle (s := loadBits s.a0.toNat s) hi]
    rfl
  · exact ⟨_, exec_loadbits_of_large hi hc hlarge, faultFrom_takeFault .resourceCoded (s := accept s) rfl⟩
  · rw [Bool.not_eq_true] at hc
    simp only [exec, execLoadbits, submit_idle _ hi, if_pos hc]
    rfl

/-- Settles O36: INITBUFFER and CLEARBITS before LOADBITS leave only the check of the capacity. -/
theorem decodeStarts : Obligations.DecodeStarts := by
  unfold Obligations.DecodeStarts
  intro s hi
  dsimp only
  refine ⟨fun hfits => ⟨(loadBits s.a0.toNat s).coded, exec_decode_of_fits hi hfits, readByte_loadBits _ s⟩,
    fun hlarge => ?_⟩
  have hexec : exec .decode s = .next (takeFault .resourceCoded (clearBits (initBuffer (accept s)))) := by
    simp only [exec, execDecode, submit_idle _ hi, if_pos ((chunkTooLarge_iff _ _).mpr hlarge)]
  exact ⟨_, hexec, faultFrom_takeFault .resourceCoded (s := clearBits (initBuffer (accept s))) rfl⟩

/-! Preparation -/

/-- Settles O18: the emptied window is in step with the stream at the next word to be fetched. -/
theorem initbufferDropsThePrefetch : Obligations.InitbufferDropsThePrefetch := by
  unfold Obligations.InitbufferDropsThePrefetch
  intro s n hi h1 h32 hr
  have hrange : ReaderInRange (complete (accept (initBuffer s))) := readerInRange_initBuffer (s := s) hr
  exact ⟨_, exec_initbuffer_of_idle hi, rfl, readBits_eq_field h1 h32 hrange (readerInStep_of_empty rfl rfl rfl)⟩

/-- LOADBITS with a clear reader at the start of the stream keeps it there. -/
theorem exists_exec_loadbits {s : State} (hi : s.st = .idle) (hc : readerClear s = true) (hpos : s.bitpos = 0)
    (hfits : ceil4 s.a0.toNat ≤ s.params.codedBytes) :
    ∃ v, exec .loadbits s = .next v
      ∧ v.win = 0 ∧ v.nbits = 0 ∧ v.boff = 0 ∧ v.bitpos = 0 ∧ v.plen.toNat = ceil4 s.a0.toNat
      ∧ ReaderInRange v ∧ ReaderInStep v := by
  obtain ⟨hwin, hnbits, hboff⟩ := readerClear_iff.mp hc
  have hrange : ReaderInRange (complete (accept (loadBits s.a0.toNat s))) := readerInRange_loadBits hc hfits
  have hstep : ReaderInStep (complete (accept (loadBits s.a0.toNat s))) :=
    readerInStep_of_empty hwin hnbits (by simp [hpos, hboff])
  exact ⟨_, exec_loadbits_of_clear hi hc hfits, hwin, hnbits, hboff, hpos, toNat_paddedLength hfits, hrange, hstep⟩

/-- Settles O19: in either order the two commands leave a clear reader and BITPOS 0. -/
theorem preparationClearsTheReader : Obligations.PreparationClearsTheReader := by
  unfold Obligations.PreparationClearsTheReader
  intro s hi hfits first second hmem
  simp only [List.mem_cons, Prod.mk.injEq, List.not_mem_nil, or_false] at hmem
  rcases hmem with ⟨rfl, rfl⟩ | ⟨rfl, rfl⟩
  · have hload := exists_exec_loadbits
      (s := complete (accept (clearBits (complete (accept (initBuffer s)))))) rfl (readerClear_iff.mpr ⟨rfl, rfl, rfl⟩)
      rfl hfits
    obtain ⟨v, hv⟩ := hload
    exact ⟨_, _, v, exec_initbuffer_of_idle hi, exec_clearbits_of_idle rfl, hv⟩
  · have hload := exists_exec_loadbits
      (s := complete (accept (initBuffer (complete (accept (clearBits s)))))) rfl (readerClear_iff.mpr ⟨rfl, rfl, rfl⟩)
      rfl hfits
    obtain ⟨v, hv⟩ := hload
    exact ⟨_, _, v, exec_clearbits_of_idle hi, exec_initbuffer_of_idle rfl, hv⟩

end Sys2Proof.Machine
end

section
/-! PROOFS. Two decodes of the simplest kind: zero residuals, and the empty chunk (41_residual_decoder.md R154;
43_host_commands.md section 2). -/

namespace Sys2Proof.Safety

open Sys2Proof.Machine

/-- With STRIP = 1 and ACT = 0 a field equal to the bias gives the sample 0, from either base. -/
theorem sampleValue_bias {s : State} {w : Nat} (hw : 1 ≤ w) (hstrip : s.strip = 1) (hact : s.act = 0) :
    sampleValue w (2 ^ (w - 1)) s = 0 := by
  have hbase : sampleBase s.params.accum s.act = 0 := by
    rw [hact]
    unfold sampleBase
    split <;> rfl
  have hpred : predictionOf s = 0 := by
    rw [predictionOf_eq, hstrip]
    exact if_pos (.inl rfl)
  have hres : residualOf w (2 ^ (w - 1)) = 0 := by
    rw [residualOf, if_neg (by omega), Nat.cast_pow, Nat.cast_ofNat, Int.sub_self]
  rw [sampleValue, hbase, hpred, hres]
  rfl

/-- Settles O27: the sample written is that 0. -/
theorem zeroResidualsGiveZeroSamples : Obligations.ZeroResidualsGiveZeroSamples := by
  unfold Obligations.ZeroResidualsGiveZeroSamples
  intro s w hb hd hrun hw h1 h32 hr hroom hstrip hact
  have hbias : (BitVec.ofNat 32 (2 ^ (w.toNat - 1))).toNat = 2 ^ (w.toNat - 1) := by
    rw [BitVec.toNat_ofNat, Nat.mod_eq_of_lt (Nat.pow_lt_pow_right (by decide) (by omega))]
  have hexec := exec_sample_of_room (BitVec.ofNat 32 (2 ^ (w.toNat - 1)))
    (sampleSelected_iff.mpr ⟨hb, hd, hrun, hw, h32⟩) hr hroom
  rw [hbias, sampleValue_bias h1 hstrip hact] at hexec
  refine ⟨_, hexec, ?_, rfl, by simpa using hstrip, by simp⟩
  show readByte .out (writeByte (advanceField w.toNat s).out (advanceField w.toNat s).cnt.toNat 0) s.cnt.toNat = 0
  rw [readByte_writeByte, advanceField_cnt, if_pos rfl]

/-! The empty chunk -/

/-- An END at a run head leaves the stream and moves the reader by seven bits. -/
theorem step_end_reader {s t : State} (hb : s.st = .busy) (hd : s.dstate = .decodeRuns) (hrun : s.runrem = 0)
    (hr : ReaderInRange s) (hn : noResetPending s) (hN : (readBits 7 s).1 = 0) (h : step s = .next t) :
    t.plen = s.plen ∧ t.bitpos = s.bitpos + 7 := by
  cases (((stepReadsTheRunHead s hb hd hrun hr hn).1 hN).symm.trans h)
  simp

theorem closeResult_reader {s t : State} (h : CloseResult s t) (ht : t.st ≠ .fault) :
    t.plen = s.plen ∧ t.bitpos = s.bitpos := by
  cases h with
  | fault => exact absurd rfl ht
  | restored => simp

/-- From a run head that is an END a decode takes two steps, which move the reader by seven bits. -/
theorem exists_steps_of_end {s u : State} {m : Memory} {plen p : Nat} {out : List Byte}
    (h : Producing s m plen p out u) (hrun : u.runrem = 0) (hN : field m plen p 7 = 0) :
    ∃ v t, step u = .next v ∧ step v = .next t ∧ Ends s m plen out t
      ∧ (t.st ≠ .fault → t.plen.toNat = plen ∧ t.bitpos = p + 7) := by
  obtain ⟨v, hend, hrunning, hv, hd, halloc, hv0⟩ := exists_step_end h hrun hN
  obtain ⟨t, hclose, ht⟩ := exists_step_closing hrunning hv hd halloc hv0
  refine ⟨v, t, hend, hclose, ht, fun hf => ?_⟩
  have hread : (readBits 7 u).1 = 0 :=
    BitVec.eq_of_toNat_eq ((h.readBits_eq (by decide) (by decide)).trans hN)
  obtain ⟨hvplen, hvpos⟩ := step_end_reader h.busy h.dstate hrun h.inRange h.noReset hread hend
  obtain ⟨htplen, htpos⟩ :=
    closeResult_reader (closeDecode_result ((step_closing hrunning.busy hd hrunning.noReset).symm.trans hclose)) hf
  rw [htplen, hvplen, htpos, hvpos]
  exact ⟨h.padded, by rw [h.bitpos]⟩

/-- Settles O40: the four steps, the header and the run head being zeros beyond the end of the empty stream. -/
theorem emptyChunkDecodesToNothing : Obligations.EmptyChunkDecodesToNothing := by
  unfold Obligations.EmptyChunkDecodesToNothing
  intro s hi hc hh ha0
  have hlen : ceil4 s.a0.toNat = 0 := by rw [ha0]; rfl
  obtain ⟨u, hsubmit, hud, hu⟩ := exists_step_submission hi hh (by rw [hlen]; exact Nat.zero_le _)
  rw [hlen] at hu
  obtain ⟨v, hheader, hv, hv0⟩ := exists_step_header hu hud
  obtain ⟨x, t, hend, hclose, ht, hreader⟩ := exists_steps_of_end hv hv0 (field_beyond _ (by decide) 7)
  have hskip : specSkip (loadBits s.a0.toNat s).coded 0 = 1 := by rw [specSkip, field_beyond _ (by decide)]
  have hstrip : specStrip (loadBits s.a0.toNat s).coded 0 = 1 := by rw [specStrip, field_beyond _ (by decide)]
  obtain ⟨⟨hti, htdone⟩, hterr, htd, htcnt, -, -, htskip, htstrip, -⟩ :=
    ht.1 (Nat.zero_le _) (by rw [hskip]; exact Nat.zero_le _)
  obtain ⟨htplen, htpos⟩ := hreader (by simp [hti])
  have hcause : t.cause = .none := by
    have hv := stepKeepsStatusConsistent _ _
      (stepKeepsStatusConsistent _ _ (statusConsistent_of_idle hi hc) hsubmit) hheader
    exact cause_of_not_fault (stepKeepsStatusConsistent _ _ (stepKeepsStatusConsistent _ _ hv hend) hclose)
      (by simp [hti])
  refine ⟨t, ?_, BitVec.eq_of_toNat_eq (htskip.trans hskip), BitVec.eq_of_toNat_eq (htstrip.trans hstrip),
    BitVec.eq_of_toNat_eq htcnt, BitVec.eq_of_toNat_eq htplen, htpos, ?_⟩
  · simp only [Host.Core.run, show core.step _ = _ from hsubmit, show core.step _ = _ from hheader,
      show core.step _ = _ from hend, show core.step _ = _ from hclose]
  · apply BitVec.eq_of_toNat_eq
    rw [toNat_statusWord, hti, htdone, hterr, hcause, htd]
    rfl

end Sys2Proof.Safety
end

section
/-! PROOFS. The canonical form of a list of cells (log entry 4). -/

namespace Sys2Proof.Machine

/-- An address below every listed cell is not listed. -/
theorem cellAt_eq_none_of_lt {l : List Host.Cell} {a : Nat} (h : ∀ c ∈ l, a < c.1) : cellAt l a = none := by
  induction l with
  | nil => rfl
  | cons c rest ih =>
    obtain ⟨x, b⟩ := c
    have hx : a < x := h (x, b) List.mem_cons_self
    rw [cellAt, if_neg hx.ne]
    exact ih fun d hd => h d (List.mem_cons_of_mem _ hd)

theorem cellAt_cons_self (x : Nat) (b : Byte) (rest : List Host.Cell) : cellAt ((x, b) :: rest) x = some b :=
  if_pos rfl

/-- In a rising list no address listed lies below the head's. -/
theorem fst_le_of_cellAt_isSome {x a : Nat} {b : Byte} {rest : List Host.Cell}
    (h : risingCells ((x, b) :: rest) = true) (ha : (cellAt ((x, b) :: rest) a).isSome = true) : x ≤ a := by
  by_contra hlt
  obtain ⟨-, hall⟩ := risingCells_lt h
  have hbelow : ∀ c ∈ (x, b) :: rest, a < c.1 := by
    intro c hc
    rcases List.mem_cons.mp hc with rfl | hc
    · omega
    · exact Nat.lt_trans (by omega) (hall c hc)
  rw [cellAt_eq_none_of_lt hbelow] at ha
  cases ha

/-- Settles O52: equal listings have equal heads, the least address listed, and equal listings after them. -/
theorem equalCellListsAreEqualData : Obligations.EqualCellListsAreEqualData := by
  unfold Obligations.EqualCellListsAreEqualData
  intro c
  induction c with
  | nil =>
    rintro (_ | ⟨⟨y, d⟩, ds⟩) - - heq
    · rfl
    · have := heq y
      rw [cellAt_cons_self] at this
      cases this
  | cons cell cs ih =>
    obtain ⟨x, b⟩ := cell
    rintro (_ | ⟨⟨y, d⟩, ds⟩) hc hd heq
    · have := heq x
      rw [cellAt_cons_self] at this
      cases this
    · have hxy : x ≤ y := fst_le_of_cellAt_isSome hc (by rw [heq y, cellAt_cons_self]; rfl)
      have hyx : y ≤ x := fst_le_of_cellAt_isSome hd (by rw [← heq x, cellAt_cons_self]; rfl)
      obtain rfl : x = y := Nat.le_antisymm hxy hyx
      have hbd := heq x
      rw [cellAt_cons_self, cellAt_cons_self] at hbd
      obtain rfl := Option.some.inj hbd
      obtain ⟨hcs, hclt⟩ := risingCells_lt hc
      obtain ⟨hds, hdlt⟩ := risingCells_lt hd
      have hrest : ∀ a, cellAt cs a = cellAt ds a := by
        intro a
        by_cases ha : a = x
        · subst ha
          rw [cellAt_eq_none_of_lt hclt, cellAt_eq_none_of_lt hdlt]
        · have := heq a
          simpa only [cellAt, if_neg ha] using this
      rw [ih ds hcs hds hrest]

end Sys2Proof.Machine
end

section
/-! PROOFS. The lanes of a span, and the transform window by window (42_interleave_transform.md R172 to R178). -/

namespace Sys2Proof.Machine

/-- L_i is the ceiling of (len - i) / s (R172). -/
theorem laneLength_eq_ceil {len lanes i : Nat} (hi : i < lanes) :
    laneLength len lanes i = if len ≤ i then 0 else (len - i + lanes - 1) / lanes := by
  refine eq_of_forall_lt_iff fun m => ?_
  rw [lt_laneLength_iff hi]
  split
  · omega
  · rw [Nat.lt_div_iff_mul_lt (by omega), Nat.mul_comm]
    omega

/-- S_i is the sum of the lengths before lane i. -/
theorem laneStart_eq_sum (len lanes i : Nat) :
    laneStart len lanes i = ((List.range i).map (laneLength len lanes)).sum := by
  induction i with
  | zero => simp [laneStart]
  | succ i ih => rw [laneStart_succ, ih, List.range_succ, List.map_append, List.sum_append, List.map_singleton,
      List.sum_singleton]

/-- Settles O30: lane by lane, and the start after the last lane is the length. -/
theorem laneGeometry : Obligations.LaneGeometry := by
  unfold Obligations.LaneGeometry
  intro len lanes h2
  refine ⟨fun i hi => ⟨laneLength_eq_ceil hi, laneStart_eq_sum len lanes i⟩, ?_⟩
  rw [← laneStart_eq_sum, laneStart_lanes (by omega)]

/-! Permutations -/

theorem map_getD_range (y : List Byte) : ((List.range y.length).map fun j => y.getD j 0) = y := by
  apply List.ext_getElem
  · simp
  · intro i h1 h2
    simp [h2]

/-- The gathered places of a span are its places in another order: they are onto, and as many. -/
theorem map_gatheredPlace_perm {lanes : Nat} (h : 0 < lanes) (len : Nat) :
    ((List.range len).map (gatheredPlace len lanes)).Perm (List.range len) := by
  have honto : List.range len ⊆ (List.range len).map (gatheredPlace len lanes) := by
    intro p hp
    obtain ⟨j, hj, rfl⟩ := exists_gatheredPlace_eq h (List.mem_range.mp hp)
    exact List.mem_map_of_mem (List.mem_range.mpr hj)
  exact ((List.subperm_of_subset List.nodup_range honto).perm_of_length_le (by simp)).symm

theorem scatter_perm {lanes : Nat} (h : 0 < lanes) (y : List Byte) : (scatter lanes y).Perm y := by
  have hperm := (map_gatheredPlace_perm h y.length).map fun j => y.getD j 0
  rw [List.map_map, map_getD_range] at hperm
  exact hperm

/-- fwd_s is undone by a permutation. -/
theorem gather_perm {lanes : Nat} (h : 0 < lanes) (x : List Byte) : (gather lanes x).Perm x := by
  have hperm := scatter_perm h (gather lanes x)
  rw [scatter_gather h] at hperm
  exact hperm.symm

theorem spanMap_perm (restore : Bool) {lanes : Nat} (h : 0 < lanes) (x : List Byte) :
    (spanMap restore lanes x).Perm x := by
  cases restore with
  | false => exact gather_perm h x
  | true => exact scatter_perm h x

theorem windowMap_perm (restore : Bool) {lanes : Nat} (h : 0 < lanes) (wb k : Nat) (x : List Byte) :
    (windowMap restore lanes wb k x).Perm x := by
  induction k generalizing x with
  | zero => exact spanMap_perm restore h x
  | succ k ih =>
    have hparts := (spanMap_perm restore h (x.take wb)).append (ih (x.drop wb))
    rw [List.take_append_drop] at hparts
    exact hparts

/-- Settles O33: span by span. -/
theorem transformPermutes : Obligations.TransformPermutes := by
  unfold Obligations.TransformPermutes
  intro restore lanes window x
  unfold transformBytes
  split
  · exact .refl x
  · split
    · exact spanMap_perm restore (by omega) x
    · exact windowMap_perm restore (by omega) _ _ x

/-! Where the transform is the identity, and windows -/

/-- With at most one byte a lane the gathered place of a byte is its own (R178). -/
theorem gatheredPlace_of_le {len lanes j : Nat} (hlen : len ≤ lanes) (hj : j < len) :
    gatheredPlace len lanes j = j := by
  rw [gatheredPlace, Nat.mod_eq_of_lt (by omega), Nat.div_eq_of_lt (by omega), laneStart]
  rcases Nat.lt_or_eq_of_le hlen with hlt | rfl
  · rw [Nat.div_eq_of_lt hlt, Nat.mod_eq_of_lt hlt]
    omega
  · rw [Nat.div_self (by omega), Nat.mod_self]
    omega

theorem scatter_of_length_le {lanes : Nat} (h : 0 < lanes) {x : List Byte} (hlen : x.length ≤ lanes) :
    scatter lanes x = x := by
  refine List.ext_getElem? fun j => ?_
  by_cases hj : j < x.length
  · rw [getElem?_scatter h hj, gatheredPlace_of_le hlen hj]
  · rw [List.getElem?_eq_none (by rw [length_scatter]; omega), List.getElem?_eq_none (by omega)]

theorem spanMap_of_length_le (restore : Bool) {lanes : Nat} (h : 0 < lanes) {x : List Byte}
    (hlen : x.length ≤ lanes) : spanMap restore lanes x = x := by
  have hscatter := scatter_of_length_le h hlen
  cases restore with
  | true => exact hscatter
  | false =>
    have hgather := gather_scatter h x
    rw [hscatter] at hgather
    exact hgather

/-- Windows of one byte a lane are all left as they are. -/
theorem windowMap_of_one_sample (restore : Bool) {lanes k : Nat} (h : 0 < lanes) {x : List Byte}
    (hk : x.length < (k + 1) * lanes) : windowMap restore lanes lanes k x = x := by
  induction k generalizing x with
  | zero => exact spanMap_of_length_le restore h (by omega)
  | succ k ih =>
    have hrow : lanes ≤ (k + 1) * lanes := Nat.le_mul_of_pos_left lanes (Nat.succ_pos k)
    rw [Nat.succ_mul] at hk
    rw [windowMap, spanMap_of_length_le restore h (List.length_take_le ..), ih (by rw [List.length_drop]; omega),
      List.take_append_drop]

theorem transformBytes_unbounded (restore : Bool) {lanes : Nat} (h : 2 ≤ lanes) (x : List Byte) :
    transformBytes restore lanes 0 x = spanMap restore lanes x := by
  rw [transformBytes, if_neg (by omega), if_pos rfl]

theorem transformBytes_bounded (restore : Bool) {lanes window : Nat} (h : 2 ≤ lanes) (hw : 0 < window)
    (x : List Byte) :
    transformBytes restore lanes window x =
      windowMap restore lanes (lanes * window) (x.length / (lanes * window)) x := by
  rw [transformBytes, if_neg (by omega), if_neg (by omega)]

/-- The first whole window by itself, then the rest with the same window (R175). -/
theorem transformBytes_window (restore : Bool) {lanes window : Nat} (h : 2 ≤ lanes) (hw : 0 < window) {x : List Byte}
    (hin : lanes * window ≤ x.length) :
    transformBytes restore lanes window x =
      transformBytes restore lanes 0 (x.take (lanes * window))
        ++ transformBytes restore lanes window (x.drop (lanes * window)) := by
  have hpos : 0 < lanes * window := Nat.mul_pos (by omega) hw
  rw [transformBytes_bounded restore h hw, transformBytes_bounded restore h hw, transformBytes_unbounded restore h,
    Nat.div_eq_sub_div hpos hin, windowMap, List.length_drop]

/-- A window no smaller than the buffer is the unbounded mode: no whole window, or one and an empty rest. -/
theorem transformBytes_of_length_le (restore : Bool) {lanes window : Nat} (h : 2 ≤ lanes) {x : List Byte}
    (hlen : x.length ≤ lanes * window) : transformBytes restore lanes window x = transformBytes restore lanes 0 x := by
  rcases Nat.eq_zero_or_pos window with rfl | hw
  · rfl
  rcases Nat.lt_or_eq_of_le hlen with hlt | heq
  · rw [transformBytes_bounded restore h hw, Nat.div_eq_of_lt hlt, transformBytes_unbounded restore h, windowMap]
  · have hempty : transformBytes restore lanes window [] = [] :=
      List.eq_nil_of_length_eq_zero (length_transformBytes restore lanes window [])
    rw [transformBytes_window restore h hw heq.ge, ← heq, List.take_length, List.drop_length, hempty, List.append_nil]

/-- Settles O34: the unbounded mode is one span, the bounded mode goes window by window, and a span of at most one
byte a lane stays as it is. -/
theorem transformCornerCases : Obligations.TransformCornerCases := by
  unfold Obligations.TransformCornerCases
  intro restore lanes window x
  have one (hle : lanes ≤ 1) (w : Nat) : transformBytes restore lanes w x = x := if_pos hle
  refine ⟨fun h => ⟨transformBytes_unbounded false h x, transformBytes_unbounded true h x,
    fun hw hin => transformBytes_window restore h hw hin⟩, fun hle => one hle window, ?_⟩
  rcases Nat.lt_or_ge 1 lanes with h | hle
  · refine ⟨fun hlen => ?_, ?_, transformBytes_of_length_le restore h⟩
    · rw [transformBytes_unbounded restore h, spanMap_of_length_le restore (by omega) hlen]
    · rw [transformBytes_bounded restore h Nat.one_pos, Nat.mul_one]
      refine windowMap_of_one_sample restore (by omega) ?_
      rw [Nat.succ_mul]
      exact Nat.lt_div_mul_add (by omega)
  · exact ⟨fun _ => one hle 0, one hle 1, fun _ => (one hle window).trans (one hle 0).symm⟩

end Sys2Proof.Machine
end
